-- ==== Sys2Proof/Word.lean ====
section
/-!
DEFINITION. The byte, the one word type of the block (00 R9: "A byte is an unsigned 8-bit value 0..255").
Every other quantity of the spec is an unbounded natural number or a register of a stated width.
-/

namespace Sys2Proof

/-- A byte (00 R9). -/
abbrev Byte := BitVec 8

end Sys2Proof
end

