-- ==== Sys2Proof/Machine/Records.lean ====
section
/-!
DEFINITION. The records the block exchanges with its caller and its device, and its working registers: plain data,
named as the spec names them. They stand before Config because two of Config's free values have these types.
-/

namespace Sys2Proof.Machine

open Sys2Proof (Byte)

/-- The working registers of 10 R25 to R32, each of the width the rule gives. -/
structure Work where
  /-- ROW, 5 bits (10 R25). -/
  row : BitVec 5
  /-- COL, 6 bits (10 R25). -/
  col : BitVec 6
  /-- INV, 1 bit (10 R26). -/
  inv : Bool
  /-- ESC, 1 bit (10 R27). -/
  esc : Bool
  /-- FB, 640 bytes (10 R28). -/
  fb : Vector Byte 640
  /-- GRID, 640 bytes (10 R29). -/
  grid : Vector Byte 640
  /-- FADDR, 24 bits (10 R32). -/
  faddr : BitVec 24
  /-- FEND, 25 bits (10 R32). -/
  fend : BitVec 25
  /-- FOFF, 20 bits (10 R32). -/
  foff : BitVec 20
  /-- DONE, 20 bits (10 R32). -/
  doneBytes : BitVec 20
  /-- LASTSR, 8 bits (10 R32). -/
  lastsr : Byte
  /-- RBUF (10 R32). -/
  rbuf : List Byte
deriving DecidableEq, Repr, Inhabited

/-- The reset values of 10 R40. -/
def Work.zero : Work where
  row := 0
  col := 0
  inv := false
  esc := false
  fb := Vector.replicate 640 0
  grid := Vector.replicate 640 0
  faddr := 0
  fend := 0
  foff := 0
  doneBytes := 0
  lastsr := 0
  rbuf := []

/-- One transaction of the transport contract (20 R53, R54). -/
inductive Xact where
  /-- `Write(bs)`. -/
  | write (bs : List Byte)
  /-- `Exchange(bs, n)`. -/
  | exchange (bs : List Byte) (n : Nat)
deriving DecidableEq, Repr

/-- How the device and the transport end one transaction (00 R8, 20 R54). See log 3 and log 4. -/
inductive Reply where
  /-- Success, the device answering out of the state it keeps (10 R34: "`MemRead(0x0000, 640)` returns `DISP`"). -/
  | own
  /-- Success, with any bytes at all; a wrong length is a TransportError (20 R54). -/
  | bytes (bs : List Byte)
  /-- The transport reports its own error (60 R162). -/
  | error (code : Nat)
deriving DecidableEq, Repr, Inhabited

/-- What a TransportError carries (60 R158, R162; D30). -/
inductive TransportErr where
  /-- "the transport's own error, unchanged". -/
  | reported (code : Nat)
  /-- An `Exchange` that returned a number of bytes other than the one asked (20 R54). -/
  | wrongLength (asked got : Nat)
deriving DecidableEq, Repr

/-- The context of an `InvalidRegion`, one form per rule that raises it (60 R158). -/
inductive RegionErr where
  /-- 41 R124: `InvalidRegion(addr, len = 0)`. -/
  | emptyRead (addr len : Nat)
  /-- 41 R123: `InvalidRegion(addr, len, page)`. -/
  | page (addr len page : Nat)
  /-- 41 R121: `InvalidRegion(addr, len, limit)`; R130 gives `flash.se` no `len`. -/
  | size (addr : Nat) (len : Option Nat) (limit : Nat)
  /-- 41 R122: `InvalidRegion(addr, len, lo, hi)`; R130 gives `flash.se` no `len`. -/
  | upgrade (addr : Nat) (len : Option Nat) (lo hi : Nat)
  /-- 42 R141: `InvalidRegion(start, end)`. -/
  | eraseRange (start stop : Nat)
  /-- 42 R144: `InvalidRegion(start, len)`. -/
  | writeRange (start len : Nat)
deriving DecidableEq, Repr

/-- The context of a result (10 R21, 60 R158). -/
inductive Info where
  | success
  | invalidOpcode (sel spiop : Byte)
  | forbiddenOpcode (op : Byte)
  | layoutError (expected got : Nat)
  | invalidCharacter (index : Nat) (byte : Byte)
  | invalidImageSize (len minExcl maxExcl : Nat)
  | invalidRegion (e : RegionErr)
  | transportError (e : TransportErr)
deriving DecidableEq, Repr

/-- The result record of 10 R21. -/
structure Result where
  status : Byte
  value : List Byte
  info : Info
deriving DecidableEq, Repr

/-- The kinds of progress event (42 R151). -/
inductive ProgressKind where
  | erase | program | read
deriving DecidableEq, Repr

/-- The event `Progress(kind, done)` (42 R151). -/
structure Progress where
  kind : ProgressKind
  bytes : Nat
deriving DecidableEq, Repr

/-- Which line of the running operation's pseudocode is next: the model's own field (log 1). 10 R24: the loops are
written "as loops over the pseudocode rather than as jumps of `pc`". -/
inductive Phase where
  /-- Accepted, nothing of the operation has run. -/
  | start
  /-- A flash command: its first `k` checks have passed, the next check or the transaction is next (10 R24, 41 R125). -/
  | checked (k : Nat)
  /-- `osd.write`: the streaming parser consumes the text (40 R107). -/
  | parse
  /-- `osd.write`: the frame is complete, row `r` is the next to send (40 R111; in frame mode `r` = 0 is the frame). -/
  | send (r : Nat)
  /-- 42 R142: the write-enable of an erase step is next. -/
  | eraseWren
  /-- 42 R142: the sector erase is next. -/
  | eraseSector
  /-- 42 R142: polling. -/
  | erasePoll
  /-- 42 R146: the write-enable of a program step is next. -/
  | progWren
  /-- 42 R146: the page program is next. -/
  | progPage
  /-- 42 R146: polling. -/
  | progPoll
  /-- 42 R149: the next chunk is to be read. -/
  | readChunk
deriving DecidableEq, Repr

/-- The reset input of the block (70 R175, R176; log 14). -/
inductive ResetIn where
  /-- Not asserted. -/
  | off
  /-- Asserted between two transactions. -/
  | between
  /-- Asserted while the next step's transaction is in flight. -/
  | during
deriving DecidableEq, Repr

end Sys2Proof.Machine
end

