-- ==== Sys2Proof/Config.lean ====
section
/-!
DEFINITION. The parameters of 00 R7 and 93 I1, the configuration a model takes as fields, and the free values:
constants without a body, so that nothing can be proved of what they are.
-/

namespace Sys2Proof

open Sys2Proof.Machine (Work Reply)

/-! The sizes that the registers and the encodings fix: FB and GRID hold 640 bytes (10 R28, R29), ROW counts to 16 and
COL to 40 (10 R25), a cell has its inverse bit at bit 7 (10 R31), an address is three bytes (20 R48). Log 11. -/

/-- COLS. -/
abbrev COLS : Nat := 40
/-- ROWS. -/
abbrev ROWS : Nat := 16
/-- FRAME_BYTES. -/
abbrev FRAME_BYTES : Nat := 640
/-- INV_BIT. -/
abbrev INV_BIT : Byte := 0x80
/-- GLYPHS. -/
abbrev GLYPHS : Nat := 128
/-- FLASH_ADDR_BYTES. -/
abbrev FLASH_ADDR_BYTES : Nat := 3

/-- The numeric literals of the document, which the model takes as parameters: "every literal is a named parameter of
00_scope.md rule R7, with the document's value as default" (93 I1; log 11). -/
structure Geometry where
  /-- DISPLAY_BASE. -/
  displayBase : Nat
  /-- FONT_BASE, context only: the block never reaches it (10 R37). -/
  fontBase : Nat
  /-- FLASH_TUNNEL. -/
  flashTunnel : Nat
  /-- FLASH_SIZE. -/
  flashSize : Nat
  /-- UPG_START. -/
  upgStart : Nat
  /-- UPG_LAST. -/
  upgLast : Nat
  /-- SECTOR. -/
  sector : Nat
  /-- PAGE. -/
  page : Nat
  /-- MIN_FW. -/
  minFw : Nat
  /-- MAX_FW_EXCL. -/
  maxFwExcl : Nat
  /-- READ_CHUNK. -/
  readChunk : Nat
  /-- PROG_PROGRESS. -/
  progProgress : Nat
  /-- ERASE_PROGRESS. -/
  eraseProgress : Nat
  /-- READ_PROGRESS. -/
  readProgress : Nat
deriving DecidableEq, Repr

/-- The document's values (00 R7; MAX_FW_EXCL by 90 C1). -/
def Geometry.defaults : Geometry where
  displayBase := 0x0000
  fontBase := 0x0800
  flashTunnel := 0x7000
  flashSize := 0x100000
  upgStart := 0x080000
  upgLast := 0x0FFFFF
  sector := 0x10000
  page := 256
  minFw := 400000
  maxFwExcl := 0x7FFFF
  readChunk := 1024
  progProgress := 16384
  eraseProgress := 65536
  readProgress := 65536

/-- UPG_SIZE = `UPG_LAST - UPG_START + 1` (00 R7). -/
def Geometry.upgSize (g : Geometry) : Nat := g.upgLast - g.upgStart + 1

/-- OSD_WRITE_MODE (00 R7, D11). -/
inductive OsdWriteMode where
  | rows | frame
deriving DecidableEq, Repr

/-- The configuration: "a model takes them as fields with the defaults above, so that a different flash part changes
configuration, not semantics" (00 R7; log 10), with the geometry of 93 I1 among them (log 11). -/
structure Config where
  opWren : Byte
  opRdsr : Byte
  opRead : Byte
  opPp : Byte
  opSe : Byte
  opBe : Byte
  wipMask : Byte
  osdWriteMode : OsdWriteMode
  placeholder : Byte
  geo : Geometry
deriving DecidableEq, Repr

/-- The defaults of 00 R7. -/
def Config.defaults : Config where
  opWren := 0x06
  opRdsr := 0x05
  opRead := 0x03
  opPp := 0x02
  opSe := 0xD8
  opBe := 0xC7
  wipMask := 0x01
  osdWriteMode := .rows
  placeholder := 0x2E
  geo := Geometry.defaults

/-! Open parameters, which no rule reads (00 R7, I23; log 22). -/

/-- WIP_POLL_INTERVAL, OPEN. -/
opaque Config.wipPollInterval : Nat

/-- I2C_ADDR, OPEN. -/
opaque Config.i2cAddr : Nat

/-! Free values. The first argument of most is the draw number, read from the counter `draws` of State. -/

/-- How the device ends a transaction for which no reply stands in `replies` (00 R8, I16; log 3). -/
opaque Config.reply : Nat → Reply

/-- A device byte whose value the spec leaves to the device: draw number, then address (I6, I15; log 6, log 7). -/
opaque Config.freeByte : Nat → Nat → Byte

/-- The status register after a flash command (10 R36, R42; log 8). -/
opaque Config.freeSr : Nat → Byte

/-- The working registers after an error: "left with any value" (60 R160, I17; log 9). -/
opaque Config.freeWork : Nat → Work

/-- A byte of the device's address space at power-on, by address (10 R42, I20; log 5). -/
opaque Config.powerOnDevice : Nat → Byte

/-- A byte of the flash at power-on, by address (10 R42, I20; log 5). -/
opaque Config.powerOnFlash : Nat → Byte

/-- The status register at power-on (10 R42, I20; log 8). -/
opaque Config.powerOnSr : Byte

/-- What FADDR holds after an erase request whose start does not fit its 24 bits and which erases nothing
(42 R140, R141; log 12). -/
opaque Config.wideStart : Nat → BitVec 24

end Sys2Proof
end

