-- ==== Sys2Proof/Syntax.lean ====
section
/-!
DEFINITION. The instructions: one constructor for each row of spec/opcode_table.json (30 R93). The first seven are the
OSD tokens that `osd.write` consumes (30 R69); the other fifteen are the requests a caller offers (30 R80), with the
request fields each of them reads as its operands (30 R82).
-/

namespace Sys2Proof

/-- The request record of 10 R20. `stop` is the spec's field `end`. -/
structure Request where
  sel : Byte
  spiop : Byte
  addr : Nat
  stop : Nat
  n : Nat
  data : List Byte
deriving DecidableEq, Repr

/-- A request whose fields are all zero or empty. -/
def Request.zero : Request where
  sel := 0
  spiop := 0
  addr := 0
  stop := 0
  n := 0
  data := []

/-- The request word `W = sel * 256 + spiop` (30 R81). -/
def Request.word (r : Request) : BitVec 16 := r.sel ++ r.spiop

/-- The instructions of the opcode table. -/
inductive Instr where
  /-- inv_on: `\i`, 0x5C 0x69 (30 R70, 40 R101). -/
  | invOn
  /-- inv_off: `\u`, 0x5C 0x75 (30 R71, 40 R102). -/
  | invOff
  /-- newline: 0x0A (30 R72, 40 R100). -/
  | newline
  /-- pad: 0x00 (30 R73, 40 R108). -/
  | pad
  /-- bslash: a 0x5C that begins no marker (30 R74, 40 R103). -/
  | bslash
  /-- char: 0ccccccc (30 R75, 40 R104). -/
  | char (c : BitVec 7)
  /-- invalid: 1ccccccc (30 R76, 40 R95). -/
  | invalid (c : BitVec 7)
  /-- osd.write "text" (40 R99). -/
  | osdWrite (text : List Byte)
  /-- osd.read frame (40 R113). -/
  | osdRead (frame : List Byte)
  /-- osd.dump (40 R115). -/
  | osdDump
  /-- flash.wren (41 R126). -/
  | flashWren
  /-- flash.rdsr (41 R127). -/
  | flashRdsr
  /-- flash.read addr, n (41 R128). -/
  | flashRead (addr n : Nat)
  /-- flash.pp addr, data (41 R129). -/
  | flashPp (addr : Nat) (data : List Byte)
  /-- flash.se addr (41 R130). -/
  | flashSe (addr : Nat)
  /-- flash.be (41 R131). -/
  | flashBe
  /-- flash.cmd spiop (41 R132). -/
  | flashCmd (spiop : Byte)
  /-- flash.wait (41 R133). -/
  | flashWait
  /-- flash.erase start, end (42 R141). -/
  | flashErase (start stop : Nat)
  /-- flash.write start, data (42 R144). -/
  | flashWrite (start : Nat) (data : List Byte)
  /-- flash.fw image (42 R147). -/
  | flashFw (image : List Byte)
  /-- flash.readfw (42 R149). -/
  | flashReadfw
deriving DecidableEq, Repr

/-- The seven token constructors (30 R69). -/
def Instr.isToken : Instr → Bool
  | .invOn | .invOff | .newline | .pad | .bslash | .char _ | .invalid _ => true
  | .osdWrite _ | .osdRead _ | .osdDump | .flashWren | .flashRdsr | .flashRead _ _ | .flashPp _ _ | .flashSe _
  | .flashBe | .flashCmd _ | .flashWait | .flashErase _ _ | .flashWrite _ _ | .flashFw _ | .flashReadfw => false

/-- An encoded instruction: the bytes of an OSD token, or a request record (30 R67, R93). -/
inductive Encoded where
  | token (bs : List Byte)
  | request (r : Request)
deriving DecidableEq, Repr

end Sys2Proof
end

