-- ==== Sys2Proof/WellFormed.lean ====
section
/-!
DEFINITION. Which configurations and which instructions are well formed: the terms the encodings of 30 R68 to R81 can
express. Operands of requests are unbounded at the interface ("no value is silently truncated", 10 R20) and their
range checks are rules of the operations, so they are not checked here.
-/

namespace Sys2Proof

/-- The SPI opcodes the block knows (30 R87): five it sends and the bulk erase it refuses. -/
def Config.spiOps (c : Config) : List Byte := [c.opWren, c.opRdsr, c.opRead, c.opPp, c.opSe, c.opBe]

/-- WIP_MASK names one bit of the status register (00 R7: "status register bit 0"; 10 R36). -/
def Config.maskWf (c : Config) : Bool := c.wipMask != 0 && (c.wipMask &&& (c.wipMask - 1)) == 0

/-- The six opcodes name six commands (30 R87). -/
def Config.opsWf (c : Config) : Bool := decide c.spiOps.Nodup

/-- The flash is whole sectors of whole pages, and so is the upgrade region inside it (20 R46, 41 R130: "UPG_START and
UPG_LAST + 1 are multiples of SECTOR"). -/
abbrev Geometry.FlashWf (g : Geometry) : Prop :=
  0 < g.page ∧ 0 < g.sector ∧ g.sector % g.page = 0 ∧ g.flashSize % g.sector = 0 ∧ g.upgStart % g.sector = 0 ∧
    (g.upgLast + 1) % g.sector = 0 ∧ g.upgStart ≤ g.upgLast ∧ g.upgLast < g.flashSize

/-- The flash addresses and the counts of a sequence fit their registers (10 R32: FADDR 24 bits, FOFF and DONE 20). -/
abbrev Geometry.RegistersWf (g : Geometry) : Prop := g.flashSize < 0x1000000 ∧ g.upgSize < 0x100000

/-- An accepted image fits the upgrade region (42 R147: "`MAX_FW_EXCL <= UPG_SIZE`"), a read-back is whole chunks
(42 R149), and the progress granularities are not zero (42 R151). -/
abbrev Geometry.SequencesWf (g : Geometry) : Prop :=
  g.maxFwExcl ≤ g.upgSize ∧ 0 < g.readChunk ∧ g.upgSize % g.readChunk = 0 ∧ 0 < g.progProgress ∧
    0 < g.eraseProgress ∧ 0 < g.readProgress

/-- The Display region and the flash tunnel lie apart in the 16-bit address space (20 R43, R45). -/
abbrev Geometry.RegionsWf (g : Geometry) : Prop :=
  g.displayBase + FRAME_BYTES ≤ 0x10000 ∧ g.flashTunnel < 0x10000 ∧
    (g.flashTunnel < g.displayBase ∨ g.displayBase + FRAME_BYTES ≤ g.flashTunnel)

/-- A geometry on which the rules' own derived facts hold (log 11). -/
abbrev Geometry.Wf (g : Geometry) : Prop := g.FlashWf ∧ g.RegistersWf ∧ g.SequencesWf ∧ g.RegionsWf

/-- The check of `Geometry.Wf`. -/
def Geometry.wf (g : Geometry) : Bool := decide g.Wf

/-- A configuration for a flash part (00 R7, 93 I1). -/
def Config.wf (c : Config) : Bool := c.maskWf && c.opsWf && c.geo.wf

/-- CHAR is "any byte 0x01..0x7F other than 0x0A and 0x5C" (30 R75). -/
def charWf (c : BitVec 7) : Bool := c != 0x00 && c != 0x0A && c != 0x5C

/-- `flash.cmd` holds "any other" SPI opcode (30 R80, 41 R132). -/
def cmdWf (c : Config) (op : Byte) : Bool := !c.spiOps.contains op

/-- The well-formed instructions under a configuration. -/
def Instr.wf (c : Config) : Instr → Bool
  | .char x => charWf x
  | .flashCmd op => cmdWf c op
  | .invOn | .invOff | .newline | .pad | .bslash | .invalid _ => true
  | .osdWrite _ | .osdRead _ | .osdDump | .flashWren | .flashRdsr | .flashRead _ _ | .flashPp _ _ | .flashSe _
  | .flashBe | .flashWait | .flashErase _ _ | .flashWrite _ _ | .flashFw _ | .flashReadfw => true

end Sys2Proof
end

