-- ==== Sys2Proof/Decode.lean ====
section
/-!
DEFINITION. The decoders of 30 sections 2 and 3, total on any bytes and any request, rejecting by name, and after them
the encoder written from the same tables. The wire frames of 30 section 4 are built in Machine/Operands.lean and read
back on the device's side in Machine/Device.lean.
-/

namespace Sys2Proof

/-- Why bytes or a request word decode to no instruction. -/
inductive DecodeError where
  /-- A `sel` not in the table (30 R89 (1)). -/
  | reservedSelector (sel spiop : Byte)
  /-- A non-zero `spiop` with a `sel` other than 0x10 (30 R89 (2)). -/
  | nonzeroSpiop (sel spiop : Byte)
  /-- No byte to decode. -/
  | noBytes
  /-- Bytes are left after the one token. -/
  | trailingBytes (rest : List Byte)
deriving DecidableEq, Repr

/-- The backslash (30 R68). -/
abbrev BACKSLASH : Byte := 0x5C
/-- The letter `i` (30 R70). -/
abbrev LETTER_I : Byte := 0x69
/-- The letter `u` (30 R71). -/
abbrev LETTER_U : Byte := 0x75
/-- LF (30 R72). -/
abbrev LF : Byte := 0x0A

/-- The one-byte token a byte is when it completes no marker (30 R72 to R76). -/
def byteToken (b : Byte) : Instr :=
  if b.msb then .invalid (b.setWidth 7)
  else if b = LF then .newline
  else if b = 0x00 then .pad
  else if b = BACKSLASH then .bslash
  else .char (b.setWidth 7)

/-- The leftmost token of the undecoded bytes and what is left after it (30 R77 (3)). -/
def decodeToken : List Byte → Except DecodeError (Instr × List Byte)
  | [] => .error .noBytes
  | [b] => .ok (byteToken b, [])
  | b :: b' :: rest =>
    if b = BACKSLASH ∧ b' = LETTER_I then .ok (.invOn, rest)
    else if b = BACKSLASH ∧ b' = LETTER_U then .ok (.invOff, rest)
    else .ok (byteToken b, b' :: rest)

/-- All tokens of a text, left to right (30 R69, R77). A marker never spans two rows, since its second byte is no LF. -/
def decodeText : List Byte → List Instr
  | [] => []
  | [b] => [byteToken b]
  | b :: b' :: rest =>
    if b = BACKSLASH ∧ b' = LETTER_I then .invOn :: decodeText rest
    else if b = BACKSLASH ∧ b' = LETTER_U then .invOff :: decodeText rest
    else byteToken b :: decodeText (b' :: rest)

/-- Selector 0x10: the SPI opcode chooses (30 R80). The bulk-erase opcode is looked for first: no configuration admits
it (41 R131; log 23). -/
def decodeSpi (c : Config) (r : Request) : Instr :=
  if r.spiop = c.opBe then .flashBe
  else if r.spiop = c.opWren then .flashWren
  else if r.spiop = c.opRdsr then .flashRdsr
  else if r.spiop = c.opRead then .flashRead r.addr r.n
  else if r.spiop = c.opPp then .flashPp r.addr r.data
  else if r.spiop = c.opSe then .flashSe r.addr
  else .flashCmd r.spiop

/-- The other selectors of 30 R80, with the operand fields of 30 R82. -/
def decodeSelector (r : Request) : Option Instr :=
  if r.sel = 0x01 then some (.osdWrite r.data)
  else if r.sel = 0x02 then some (.osdRead r.data)
  else if r.sel = 0x03 then some .osdDump
  else if r.sel = 0x11 then some .flashWait
  else if r.sel = 0x20 then some (.flashErase r.addr r.stop)
  else if r.sel = 0x21 then some (.flashWrite r.addr r.data)
  else if r.sel = 0x22 then some (.flashFw r.data)
  else if r.sel = 0x23 then some .flashReadfw
  else none

/-- The request decoder (30 R80, R81, R82, R89). Fields an operation does not read are dropped here, so they "have no
effect" (10 R20, 41 R139). -/
def decodeRequest (c : Config) (r : Request) : Except DecodeError Instr :=
  if r.sel = 0x10 then .ok (decodeSpi c r)
  else match decodeSelector r with
    | none => .error (.reservedSelector r.sel r.spiop)
    | some i => if r.spiop = 0x00 then .ok i else .error (.nonzeroSpiop r.sel r.spiop)

/-- The decoder of one encoded instruction. -/
def decode (c : Config) : Encoded → Except DecodeError Instr
  | .token bs => match decodeToken bs with
    | .error e => .error e
    | .ok (i, []) => .ok i
    | .ok (_, b :: rest) => .error (.trailingBytes (b :: rest))
  | .request r => decodeRequest c r

/-- The request with the selector `sel`, the SPI opcode 0x00 and no operands. -/
def requestOf (sel : Byte) : Request := { Request.zero with sel := sel }

/-- The request of a raw SPI command (30 R80: `sel` 0x10). -/
def spiRequest (op : Byte) : Request := { Request.zero with sel := 0x10, spiop := op }

/-- The encoder, from the tables of 30 R69 and R80. -/
def encode (c : Config) : Instr → Encoded
  | .invOn => .token [BACKSLASH, LETTER_I]
  | .invOff => .token [BACKSLASH, LETTER_U]
  | .newline => .token [LF]
  | .pad => .token [0x00]
  | .bslash => .token [BACKSLASH]
  | .char x => .token [0#1 ++ x]
  | .invalid x => .token [1#1 ++ x]
  | .osdWrite text => .request { requestOf 0x01 with data := text }
  | .osdRead frame => .request { requestOf 0x02 with data := frame }
  | .osdDump => .request (requestOf 0x03)
  | .flashWren => .request (spiRequest c.opWren)
  | .flashRdsr => .request (spiRequest c.opRdsr)
  | .flashRead a n => .request { spiRequest c.opRead with addr := a, n := n }
  | .flashPp a p => .request { spiRequest c.opPp with addr := a, data := p }
  | .flashSe a => .request { spiRequest c.opSe with addr := a }
  | .flashBe => .request (spiRequest c.opBe)
  | .flashCmd op => .request (spiRequest op)
  | .flashWait => .request (requestOf 0x11)
  | .flashErase s e => .request { requestOf 0x20 with addr := s, stop := e }
  | .flashWrite s d => .request { requestOf 0x21 with addr := s, data := d }
  | .flashFw img => .request { requestOf 0x22 with data := img }
  | .flashReadfw => .request (requestOf 0x23)

/-! The opcode table as the spec's machine-readable copy gives it (30 R93). -/

/-- The three formats of 30 R93. -/
inductive Format where
  | token1 | token2 | request
deriving DecidableEq, Repr

/-- One row of the opcode table; `wire` is the row's wire opcode byte where it has one. -/
structure Row where
  mnemonic : String
  format : Format
  pattern : Nat
  mask : Nat
  wire : Option Byte
deriving DecidableEq, Repr

/-- The token rows. -/
def tokenRows : List Row :=
  [⟨"inv_on", .token2, 0x5C69, 0xFFFF, none⟩, ⟨"inv_off", .token2, 0x5C75, 0xFFFF, none⟩,
   ⟨"newline", .token1, 0x0A, 0xFF, none⟩, ⟨"pad", .token1, 0x00, 0xFF, none⟩,
   ⟨"bslash", .token1, 0x5C, 0xFF, none⟩, ⟨"char", .token1, 0x00, 0x80, none⟩,
   ⟨"invalid", .token1, 0x80, 0x80, none⟩]

/-- The rows of the OSD requests and the raw flash commands. -/
def commandRows : List Row :=
  [⟨"osd.write", .request, 0x0100, 0xFFFF, none⟩, ⟨"osd.read", .request, 0x0200, 0xFFFF, none⟩,
   ⟨"osd.dump", .request, 0x0300, 0xFFFF, none⟩, ⟨"flash.wren", .request, 0x1006, 0xFFFF, some 0x06⟩,
   ⟨"flash.rdsr", .request, 0x1005, 0xFFFF, some 0x05⟩, ⟨"flash.read", .request, 0x1003, 0xFFFF, some 0x03⟩,
   ⟨"flash.pp", .request, 0x1002, 0xFFFF, some 0x02⟩, ⟨"flash.se", .request, 0x10D8, 0xFFFF, some 0xD8⟩,
   ⟨"flash.be", .request, 0x10C7, 0xFFFF, some 0xC7⟩, ⟨"flash.cmd", .request, 0x1000, 0xFF00, none⟩,
   ⟨"flash.wait", .request, 0x1100, 0xFFFF, some 0x05⟩]

/-- The rows of the flash sequences. -/
def sequenceRows : List Row :=
  [⟨"flash.erase", .request, 0x2000, 0xFFFF, some 0xD8⟩, ⟨"flash.write", .request, 0x2100, 0xFFFF, some 0x02⟩,
   ⟨"flash.fw", .request, 0x2200, 0xFFFF, none⟩, ⟨"flash.readfw", .request, 0x2300, 0xFFFF, some 0x03⟩]

/-- spec/opcode_table.json. -/
def opcodeTable : List Row := tokenRows ++ commandRows ++ sequenceRows

/-- The mnemonic of an instruction's row. -/
def Instr.mnemonic : Instr → String
  | .invOn => "inv_on"
  | .invOff => "inv_off"
  | .newline => "newline"
  | .pad => "pad"
  | .bslash => "bslash"
  | .char _ => "char"
  | .invalid _ => "invalid"
  | .osdWrite _ => "osd.write"
  | .osdRead _ => "osd.read"
  | .osdDump => "osd.dump"
  | .flashWren => "flash.wren"
  | .flashRdsr => "flash.rdsr"
  | .flashRead _ _ => "flash.read"
  | .flashPp _ _ => "flash.pp"
  | .flashSe _ => "flash.se"
  | .flashBe => "flash.be"
  | .flashCmd _ => "flash.cmd"
  | .flashWait => "flash.wait"
  | .flashErase _ _ => "flash.erase"
  | .flashWrite _ _ => "flash.write"
  | .flashFw _ => "flash.fw"
  | .flashReadfw => "flash.readfw"

/-- The opcode-table row of an instruction. -/
def Instr.row (i : Instr) : Option Row := opcodeTable.find? (fun r => r.mnemonic == i.mnemonic)

/-- The number the table writes for an encoded instruction: the byte of a one-byte token, the two bytes of a marker
with the first as the high byte, or the request word. -/
def Encoded.tableNumber : Encoded → Nat
  | .token bs => bs.foldl (fun n b => n * 256 + b.toNat) 0
  | .request r => r.word.toNat

/-- The format of an encoded instruction. -/
def Encoded.format : Encoded → Format
  | .token [_] => .token1
  | .token _ => .token2
  | .request _ => .request

/-- The encoded instruction with the number `w` of `nbits` bits, as the opcode table numbers it: 8 bits are a one-byte
token, 16 bits a marker if they are 0x5C69 or 0x5C75 and a request word otherwise, its operand fields zero and empty
(log 17). -/
def tableEncoded (nbits w : Nat) : Option Encoded :=
  if nbits = 8 then some (.token [BitVec.ofNat 8 w])
  else if nbits = 16 then
    let hi := BitVec.ofNat 8 (w / 256)
    let lo := BitVec.ofNat 8 w
    if hi = BACKSLASH ∧ (lo = LETTER_I ∨ lo = LETTER_U) then some (.token [hi, lo])
    else some (.request { Request.zero with sel := hi, spiop := lo })
  else none

/-- The instruction the decoder reads from an instruction whose bits are `w`, under the default configuration, whose
opcodes are those of the table. -/
def decodeTableWord (nbits w : Nat) : Option Instr :=
  match tableEncoded nbits w with
  | none => none
  | some e => match decode Config.defaults e with
    | .ok i => some i
    | .error _ => none

end Sys2Proof
end

