-- ==== Sys2Proof/Machine/Memory.lean ====
section
/-!
DEFINITION. Memory as plain data: a list of (address, byte) cells with addresses strictly rising. An address not
listed has no value here; what a device answers for it is said where the device answers (Machine/Device.lean; log 5).
-/

namespace Sys2Proof.Machine

open Sys2Proof (Byte)

/-- A memory: the cells something has written, addresses strictly rising. -/
abbrev Memory := List Host.Cell

/-- The canonical form. -/
abbrev Memory.wf (m : Memory) : Prop := m.Pairwise (fun a b => a.1 < b.1)

/-- Every listed address is below `limit`. -/
abbrev Memory.below (limit : Nat) (m : Memory) : Prop := ∀ c ∈ m, c.1 < limit

/-- The listed byte at an address. -/
def Memory.lookup (m : Memory) (a : Nat) : Option Byte := (m.find? (fun c => c.1 == a)).map (fun c => c.2)

/-- The cells of a byte string from an address on, byte `j` at `a + j` (20 R52). -/
def cellsFrom : Nat → List Byte → Memory
  | _, [] => []
  | a, b :: bs => (a, b) :: cellsFrom (a + 1) bs

/-- Write a byte string at an address. -/
def Memory.write (m : Memory) (a : Nat) (bs : List Byte) : Memory :=
  m.filter (fun c => decide (c.1 < a)) ++ cellsFrom a bs ++ m.filter (fun c => decide (a + bs.length ≤ c.1))

/-- The `n` bytes from an address on; `free` gives the byte of an address not listed. -/
def Memory.read (free : Nat → Byte) (m : Memory) (a n : Nat) : List Byte :=
  (List.range n).map (fun j => (m.lookup (a + j)).getD (free (a + j)))

/-- The `n` free bytes of draw `k` at the addresses from `a` on (I6, I15). -/
def freeBytes (k a n : Nat) : List Byte := (List.range n).map (fun j => Config.freeByte k (a + j))

end Sys2Proof.Machine
end

