-- ==== Sys2Proof/Machine/State.lean ====
section
/-!
DEFINITION. The state of the machine, as plain data, and its reset. Every field is listed in INVENTORY.md with the rule
that names it.
-/

namespace Sys2Proof.Machine

open Sys2Proof (Byte Request Config)

/-- The machine's faults. -/
inductive Fault where
  /-- Raised by the meaning of a multi-step operation in a state whose `phase` is not one of that operation's. No run
  from reset reaches such a state. Safe (log 24). -/
  | outOfSequence
deriving DecidableEq, Repr

/-- The machine's refusals. -/
inductive Refusal where
  /-- Raised by `exec` for an instruction that has no meaning in the model. Safe. -/
  | notModelled (mnemonic : String)
  /-- Raised by a transaction that sends a frame to which the spec gives the device no behaviour (20 R50, I19: "the
  block never sends such an access, and the model gives the device no behaviour there"). Safe (log 24). -/
  | noDeviceBehaviour (x : Xact)
deriving DecidableEq, Repr

/-- The state. -/
structure State where
  /-- The configuration of 00 R7; no step changes it. -/
  cfg : Config
  /-- BUSY (10 R22). -/
  busy : Bool
  /-- ERR (10 R22). -/
  err : Byte
  /-- The sequencer position (10 R24). -/
  pc : Nat
  /-- The accepted request (10 R20). -/
  req : Request
  /-- MODEL: the line of the running operation's pseudocode (log 1). -/
  phase : Phase
  /-- The working registers (10 R25 to R32). -/
  work : Work
  /-- The results returned so far, oldest first (10 R21; log 20). -/
  results : List Result
  /-- The progress events emitted so far, oldest first (42 R151; log 20). -/
  events : List Progress
  /-- The transactions sent so far, oldest first (20 R53; log 20). -/
  bus : List Xact
  /-- INPUT: the requests the caller will offer, the next first (10 R20, R23; log 2). -/
  requests : List Request
  /-- INPUT: the replies the device will give, the next first (00 R8; log 3). -/
  replies : List Reply
  /-- INPUT: the reset of the block (70 R175, R176; log 14). -/
  resetIn : ResetIn
  /-- Device: its 16-bit address space, DISP among it (20 R43, 10 R34, R37). -/
  devMem : Memory
  /-- Device: the flash array (10 R35). -/
  flash : Memory
  /-- Device: the flash status register SR (10 R36). -/
  sr : Byte
  /-- MODEL: the number of the next draw (log 13). -/
  draws : Nat
deriving DecidableEq, Repr

/-- The machine right after reset (10 R40, R42, 70 R175, R177). -/
def State.reset : State where
  cfg := Config.defaults
  busy := false
  err := 0
  pc := 0
  req := Request.zero
  phase := .start
  work := Work.zero
  results := []
  events := []
  bus := []
  requests := []
  replies := []
  resetIn := .off
  devMem := []
  flash := []
  sr := Config.powerOnSr
  draws := 0

/-- The outcome of a step or a meaning. -/
abbrev Out := Host.Outcome State Fault Refusal

end Sys2Proof.Machine
end

