-- ==== Sys2Proof/Machine/Operands.lean ====
section
/-!
DEFINITION. The operand forms: how addresses and payloads become the bytes of a wire frame (30 section 4), how data is
cut into page chunks (42 R145), and which bytes print (40 R114).
-/

namespace Sys2Proof.Machine

open Sys2Proof (Byte Config Geometry)

/-- `be16(a)` = `[a[15:8], a[7:0]]` (00 R10). -/
def be16 (a : Nat) : List Byte := [BitVec.ofNat 8 (a / 0x100), BitVec.ofNat 8 a]

/-- `be24(a)` = `[a[23:16], a[15:8], a[7:0]]` (00 R10, 20 R48). -/
def be24 (a : Nat) : List Byte := [BitVec.ofNat 8 (a / 0x10000), BitVec.ofNat 8 (a / 0x100), BitVec.ofNat 8 a]

/-- "Exactly the opcodes READ, PP and SE carry the 3-byte flash address" (30 R85). -/
def addressed (c : Config) (op : Byte) : Bool := op == c.opRead || op == c.opPp || op == c.opSe

/-- The frame builder `frame(op, a, p)` (41 R119, 30 R84). -/
def flashFrame (c : Config) (op : Byte) (a : Nat) (p : List Byte) : List Byte :=
  be16 c.geo.flashTunnel ++ [op] ++ (if addressed c op then be24 a else []) ++ p

/-- The transaction of `FlashXfer(op, a, p, n)`: a write if no response is asked for, else an exchange (41 R119). -/
def flashXact (c : Config) (op : Byte) (a : Nat) (p : List Byte) (n : Nat) : Xact :=
  if n = 0 then .write (flashFrame c op a p) else .exchange (flashFrame c op a p) n

/-- The transaction of `MemWrite(addr, n, v)` (20 R55). -/
def memWriteXact (addr : Nat) (v : List Byte) : Xact := .write (be16 addr ++ v)

/-- The transaction of `MemRead(addr, n)` (20 R55). -/
def memReadXact (addr n : Nat) : Xact := .exchange (be16 addr) n

/-- The 40 cells of row `r` of a frame (10 R30, 30 R90). -/
def frameRow (fb : Vector Byte 640) (r : Nat) : List Byte := (fb.toList.drop (COLS * r)).take COLS

/-- The length of the page chunk at flash address `a` when `left` bytes are left (42 R145). -/
def chunkLen (g : Geometry) (a left : Nat) : Nat := min (g.page - a % g.page) left

/-- The first byte of the page that holds `a` (20 R46). -/
def pageBase (g : Geometry) (a : Nat) : Nat := g.page * (a / g.page)

/-- The first byte of the sector that holds `a` (20 R46, 41 R130). -/
def sectorBase (g : Geometry) (a : Nat) : Nat := g.sector * (a / g.sector)

/-- `printable(b)` (40 R114). -/
def printable (c : Config) (b : Byte) : Byte := if 0x20 ≤ b ∧ b ≤ 0x7E then b else c.placeholder

/-- The printable grid of a frame of 640 bytes, cell by cell (40 R113, R115). A shorter string, which no rule passes
here, is filled with 0x00. -/
def gridOf (c : Config) (frame : List Byte) : Vector Byte 640 :=
  ⟨(((frame ++ List.replicate FRAME_BYTES 0x00).take FRAME_BYTES).map (printable c)).toArray, by simp⟩

/-- FADDR from an erase start: the start where it fits the 24 bits of 10 R32, else a free value (log 12). -/
def startReg (start : Nat) : BitVec 24 :=
  if start < 0x1000000 then BitVec.ofNat 24 start else Config.wideStart start

end Sys2Proof.Machine
end

