-- ==== Sys2Proof/Machine/Flags.lean ====
section
/-!
DEFINITION. The flag computations of 10 R38: the inverse flag's effect on a cell, the WIP bit of a status byte, and
the crossing of a progress granularity.
-/

namespace Sys2Proof.Machine

open Sys2Proof (Byte Config Geometry)

/-- The cell a byte produces: `b + 0x80` while INV = 1, `b` while INV = 0 (40 R105). -/
def cellOf (inv : Bool) (b : Byte) : Byte := if inv then b + INV_BIT else b

/-- `WIP = (s & WIP_MASK) != 0` (30 R86). -/
def wipSet (c : Config) (sr : Byte) : Bool := sr &&& c.wipMask != 0

/-- The granularity of a kind of progress (42 R151). -/
def granularity (g : Geometry) : ProgressKind → Nat
  | .erase => g.eraseProgress
  | .program => g.progProgress
  | .read => g.readProgress

/-- `floor(before / G) < floor(after / G)` (42 R151). -/
def crosses (g : Geometry) (kind : ProgressKind) (before after : Nat) : Bool :=
  decide (before / granularity g kind < after / granularity g kind)

end Sys2Proof.Machine
end

