-- ==== Sys2Proof/Machine/Device.lean ====
section
/-!
DEFINITION. The device's side of one transaction: what the bytes of a frame address (20 R51, R52, 30 R83, R84), what
the device answers out of the state it keeps (10 R34 to R36), and what the transaction does to that state when it
succeeds and when it fails. Where the spec leaves an effect to the device, the bytes are free values (log 6, 7, 8).
-/

namespace Sys2Proof.Machine

open Sys2Proof (Byte Config Geometry)

/-- What a frame asks of the device. -/
inductive Target where
  /-- Write `v` at device address `a` of the Display region. -/
  | displayWrite (a : Nat) (v : List Byte)
  /-- Read `n` bytes at device address `a` of the Display region. -/
  | displayRead (a n : Nat)
  /-- WREN. -/
  | wren
  /-- RDSR for `n` bytes. -/
  | rdsr (n : Nat)
  /-- READ `n` bytes at flash address `a`. -/
  | read (a n : Nat)
  /-- PP of `p` at flash address `a`. -/
  | program (a : Nat) (p : List Byte)
  /-- SE of the sector that holds flash address `a`. -/
  | erase (a : Nat)
deriving DecidableEq, Repr

/-- The number two address bytes name, most significant first (20 R44). -/
def fromBe16 (hi lo : Byte) : Nat := hi.toNat * 0x100 + lo.toNat

/-- The number three address bytes name, most significant first (20 R48). -/
def fromBe24 (b2 b1 b0 : Byte) : Nat := b2.toNat * 0x10000 + b1.toNat * 0x100 + b0.toNat

/-- The addressed SPI commands (30 R85): READ, PP and SE within the flash (20 R46); `n` is the response length. -/
def routeAddressed (c : Config) (op : Byte) (a : Nat) (p : List Byte) (n : Nat) : Option Target :=
  if op = c.opRead then if p = [] ∧ a + n ≤ c.geo.flashSize then some (.read a n) else none
  else if op = c.opPp then if n = 0 ∧ a + p.length ≤ c.geo.flashSize ∧ a < c.geo.flashSize then some (.program a p) else none
  else if op = c.opSe then if n = 0 ∧ p = [] ∧ a < c.geo.flashSize then some (.erase a) else none
  else none

/-- One SPI command, the bytes after the region address (20 R51, 30 R84, R87). -/
def routeSpi (c : Config) (n : Nat) : List Byte → Option Target
  | [op] =>
    if op = c.opWren then if n = 0 then some .wren else none
    else if op = c.opRdsr then some (.rdsr n)
    else none
  | op :: b2 :: b1 :: b0 :: p => routeAddressed c op (fromBe24 b2 b1 b0) p n
  | _ => none

/-- The `n` bytes at device address `a` are bytes of the Display region (20 R45, 10 R34). -/
abbrev inDisplay (g : Geometry) (a n : Nat) : Prop := g.displayBase ≤ a ∧ a + n ≤ g.displayBase + FRAME_BYTES

/-- What a transaction addresses: the Display region (0x0000..0x027F) or the flash tunnel (0x7000); anything else is a
frame to which the spec gives the device no behaviour (20 R45, R50; I19). -/
def route (c : Config) : Xact → Option Target
  | .write (hi :: lo :: v) =>
    if fromBe16 hi lo = c.geo.flashTunnel then routeSpi c 0 v
    else if inDisplay c.geo (fromBe16 hi lo) v.length then some (.displayWrite (fromBe16 hi lo) v) else none
  | .exchange (hi :: lo :: v) n =>
    if fromBe16 hi lo = c.geo.flashTunnel then routeSpi c n v
    else if v = [] ∧ inDisplay c.geo (fromBe16 hi lo) n then some (.displayRead (fromBe16 hi lo) n) else none
  | _ => none

/-- What the device answers out of the state it keeps: DISP, SR, FLASH (10 R34, R35, R36; log 4). -/
def ownAnswer (s : State) : Target → List Byte
  | .displayRead a n => Memory.read Config.powerOnDevice s.devMem a n
  | .rdsr n => List.replicate n s.sr
  | .read a n => Memory.read Config.powerOnFlash s.flash a n
  | .displayWrite _ _ | .wren | .program _ _ | .erase _ => []

/-- The flash commands' effect on the device: SR becomes a free value, and a program or erase makes the bytes of its
page or sector free values (10 R35, R36, I6; log 6, log 8). -/
def flashEffect (k : Nat) (t : Target) (s : State) : State :=
  match t with
  | .wren | .rdsr _ | .read _ _ => { s with sr := Config.freeSr k }
  | .program a _ =>
    { s with
      sr := Config.freeSr k
      flash := s.flash.write (pageBase s.cfg.geo a) (freeBytes k (pageBase s.cfg.geo a) s.cfg.geo.page) }
  | .erase a =>
    { s with
      sr := Config.freeSr k
      flash := s.flash.write (sectorBase s.cfg.geo a) (freeBytes k (sectorBase s.cfg.geo a) s.cfg.geo.sector) }
  | .displayWrite _ _ | .displayRead _ _ => s

/-- What a transaction that succeeds does to the device: a Display write sets `DISP[k + j] <- v[j]` (10 R34), a Display
read has no side effect (20 R59). -/
def doneEffect (k : Nat) (t : Target) (s : State) : State :=
  match t with
  | .displayWrite a v => { s with devMem := s.devMem.write a v }
  | .displayRead _ _ => s
  | .wren | .rdsr _ | .read _ _ | .program _ _ | .erase _ => flashEffect k t s

/-- What a transaction that fails does to the device: the bytes it addresses are free values (40 R117, 42 R152, I15;
log 7). -/
def failedEffect (k : Nat) (t : Target) (s : State) : State :=
  match t with
  | .displayWrite a v => { s with devMem := s.devMem.write a (freeBytes k a v.length) }
  | .displayRead a n => { s with devMem := s.devMem.write a (freeBytes k a n) }
  | .wren | .rdsr _ | .read _ _ | .program _ _ | .erase _ => flashEffect k t s

/-- The reply the next transaction gets: the next of `replies`, or a free one (log 3). -/
def State.nextReply (s : State) : Reply := s.replies.head?.getD (Config.reply s.draws)

/-- How a transaction ends: the bytes it returns (none for a `Write`), or the transport's error; an `Exchange` that
returns a wrong number of bytes is a TransportError (20 R54). -/
def answerOf (x : Xact) (own : List Byte) : Reply → Except TransportErr (List Byte)
  | .error code => .error (.reported code)
  | .own => match x with
    | .write _ => .ok []
    | .exchange _ _ => .ok own
  | .bytes bs => match x with
    | .write _ => .ok []
    | .exchange _ n => if bs.length = n then .ok bs else .error (.wrongLength n bs.length)

end Sys2Proof.Machine
end

