-- ==== Sys2Proof/Machine/Ops.lean ====
section
/-!
DEFINITION. The operations every meaning shares: ending an operation with a value or an error (60 R160, the block's
whole exception mechanism: there is no vector and no return, 60 R163), one transaction of the transport contract
(20 R53, R54), progress events (42 R151), accepting a request (10 R23, R24), the cells of the OSD parser (40 R107), and
the reset of the block (70 R175, R176).
-/

namespace Sys2Proof.Machine

open Sys2Proof (Byte Request Config)

/-! ## Results and errors -/

/-- The error codes of 60 R157. -/
def Info.code : Info → Byte
  | .success => 0
  | .invalidOpcode _ _ => 1
  | .forbiddenOpcode _ => 2
  | .layoutError _ _ => 3
  | .invalidCharacter _ _ => 4
  | .invalidImageSize _ _ _ => 5
  | .invalidRegion _ => 6
  | .transportError _ => 7

/-- One more step of the running operation has been taken (10 R24). -/
def State.advance (s : State) : State := { s with pc := s.pc + 1 }

/-- `return v` (00 R11): the operation ends with success. The step that ends it is counted like any other (log 26). -/
def State.finish (v : List Byte) (s : State) : State :=
  { s with busy := false, err := 0, pc := s.pc + 1, results := s.results ++ [⟨0, v, .success⟩] }

/-- A refused flash command: the result is the error, and it "changes no register except `ERR`" (41 R125). The step that
ends the operation is counted like any other: what `pc` holds once no operation runs is the model's choice (log 26). -/
def State.refuse (e : Info) (s : State) : State :=
  { s with busy := false, err := e.code, pc := s.pc + 1, results := s.results ++ [⟨e.code, [], e⟩] }

/-- `raise E(info)` (00 R11, 60 R160): the operation ends, ERR is the code, BUSY is 0, the working registers hold any
value (log 9). -/
def State.raise (e : Info) (s : State) : State :=
  { s.refuse e with work := Config.freeWork s.draws, draws := s.draws + 1 }

/-! ## Transactions -/

/-- The state after a transaction's frame is sent and its reply taken, before the device's effect. -/
def State.sent (x : Xact) (s : State) : State :=
  { s with bus := s.bus ++ [x], replies := s.replies.tail, draws := s.draws + 1 }

/-- One transaction (20 R54): the frame goes on the bus, the device acts, and the operation goes on with the bytes
returned, or ends with TransportError (60 R162), never retried. -/
def transact (x : Xact) (k : List Byte → State → State) (s : State) : Out :=
  match route s.cfg x with
  | none => .refused (.noDeviceBehaviour x)
  | some t => .next (match answerOf x (ownAnswer s t) s.nextReply with
    | .ok bs => k bs (doneEffect s.draws t (s.sent x))
    | .error e => (failedEffect s.draws t (s.sent x)).raise (.transportError e))

/-- `FlashXfer(op, a, p, n)` (41 R119). -/
def flashXfer (op : Byte) (a : Nat) (p : List Byte) (n : Nat) (k : List Byte → State → State) (s : State) : Out :=
  transact (flashXact s.cfg op a p n) k s

/-- One status poll: RDSR for one byte, and `LASTSR <- s[0]` (41 R127, R133). -/
def pollStatus (k : Byte → State → State) (s : State) : Out :=
  flashXfer s.cfg.opRdsr 0 [] 1
    (fun bs t => k (bs.headD 0) { t with work := { t.work with lastsr := bs.headD 0 } }) s

/-! ## Progress -/

/-- `progress(kind, before, after)` (42 R151). -/
def State.progress (kind : ProgressKind) (before after : Nat) (s : State) : State :=
  if crosses s.cfg.geo kind before after then { s with events := s.events ++ [⟨kind, after⟩] } else s

/-- Count `m` bytes done, with the progress event if a granularity is crossed. -/
def State.countDone (kind : ProgressKind) (m : Nat) (s : State) : State :=
  let t := s.progress kind s.work.doneBytes.toNat (s.work.doneBytes.toNat + m)
  { t with work := { t.work with doneBytes := t.work.doneBytes + BitVec.ofNat 20 m } }

/-- The running operation goes to a line of its pseudocode. -/
def State.goto (p : Phase) (s : State) : State := { s with phase := p }

/-! ## Checks (10 R24: "one step per transaction or per check") -/

/-- A check of a flash command: whether it fails, and the context of the InvalidRegion it then raises. -/
abbrev Check := Bool × RegionErr

/-- The next step of a command after `k` passed checks: the next check, which refuses the command or passes, or, all
being passed, its transaction `go` (41 R125: "runs its checks in this order and raises the first that fails"). -/
def checkStep (checks : List Check) (go : State → Out) (k : Nat) (s : State) : Out :=
  match checks[k]? with
  | none => go s
  | some (fails, e) => .next (if fails then s.refuse (.invalidRegion e) else (s.goto (.checked (k + 1))).advance)

/-- A command that runs `checks` one a step and then its transaction `go`. -/
def afterChecks (checks : List Check) (go : State → Out) (s : State) : Out :=
  match s.phase with
  | .start => checkStep checks go 0 s
  | .checked k => checkStep checks go k s
  | .parse | .send _ | .eraseWren | .eraseSector | .erasePoll | .progWren | .progPage | .progPoll | .readChunk =>
    .fault .outOfSequence

/-! ## The OSD parser's cells (40 R107) -/

/-- `ROW` < 16: the row is one of the frame's (40 R97). -/
def State.inFrame (s : State) : Bool := decide (s.work.row.toNat < ROWS)

/-- `put(v)`: the cell goes to (ROW, COL) and COL counts it; a cell past column 40 is dropped (40 R107, R109). -/
def State.put (v : Byte) (s : State) : State :=
  if s.work.col.toNat < COLS then
    { s with work := { s.work with
        fb := s.work.fb.setIfInBounds (COLS * s.work.row.toNat + s.work.col.toNat) (cellOf s.work.inv v),
        col := s.work.col + 1 } }
  else s

/-- The registers an `osd.write` starts from (40 R107 `init`). -/
def State.osdInit (s : State) : State :=
  { s with pc := 0, work := { s.work with
      row := 0, col := 0, inv := false, esc := false, fb := Vector.replicate 640 0 } }

/-- A backslash is held (40 R107: `ESC <- 1`). -/
def State.holdEsc (s : State) : State := { s with work := { s.work with esc := true } }

/-! ## Requests -/

/-- The block takes the request the caller offers: BUSY is 1 and `pc` is 0 (10 R22, R23, R24). With no request offered
it stays idle (70 R177). -/
def State.accept (s : State) : State :=
  match s.requests with
  | [] => s
  | r :: rest => { s with busy := true, pc := 0, phase := .start, req := r, requests := rest }

/-- What a request word that decodes to nothing answers: `InvalidOpcode(sel, spiop)` (30 R89). The words of a flash
command, selectors 0x10 (which always decodes) and 0x11, are refused with no register but ERR changed (41 R125 (1)); after
any other the working registers hold any value (60 R160). -/
def State.rejectWord (s : State) : State :=
  let e := Info.invalidOpcode s.req.sel s.req.spiop
  if s.req.sel = 0x10 ∨ s.req.sel = 0x11 then s.refuse e else s.raise e

/-! ## Reset of the block -/

/-- A reset between two transactions: the block's registers take the values of 10 R40, a running operation ends without
a result, and the device keeps its state (70 R175, R176, R178). -/
def State.blockReset (s : State) : State :=
  { s with busy := false, err := 0, pc := 0, req := Request.zero, phase := .start, work := Work.zero, resetIn := .off }

/-- A reset while the transaction of the step `o` is in flight: what reached the device stays, with the effect of a
failed transaction; the block is reset (70 R176; log 14). -/
def State.resetInFlight (s : State) (o : Out) : State :=
  match o with
  | .next t =>
    { s.blockReset with bus := t.bus, devMem := t.devMem, flash := t.flash, sr := t.sr, draws := t.draws }
  | .fault _ => s.blockReset
  | .refused _ => s.blockReset

/-- The state in which the next transaction will fail. -/
def State.failing (s : State) : State := { s with replies := .error 0 :: s.replies }

end Sys2Proof.Machine
end

