-- ==== Sys2Proof/Machine/FlashCommands.lean ====
section
/-!
DEFINITION. The Flash unit's primitive commands (41 R126 to R133). Each check of a command
is a step and so is its one transaction (10 R24; log 1); a refused command changes no register except ERR (R125).
-/

namespace Sys2Proof.Machine

open Sys2Proof (Byte Geometry)

/-- flash.wren: `Write([0x70, 0x00, 0x06])` (41 R126). -/
def execFlashWren (s : State) : Out :=
  flashXfer s.cfg.opWren 0 [] 0 (fun _ t => t.finish []) s

/-- flash.rdsr: one status byte, kept in LASTSR and returned (41 R127). -/
def execFlashRdsr (s : State) : Out :=
  pollStatus (fun sr t => t.finish [sr]) s

/-- The checks of `flash.read`, in the order of 41 R125: length (R124), flash size (R121). -/
def readChecks (g : Geometry) (a n : Nat) : List Check :=
  [(decide (n < 1), .emptyRead a 0), (decide (g.flashSize < a + n), .size a (some n) g.flashSize)]

/-- flash.read (41 R128). -/
def execFlashRead (a n : Nat) (s : State) : Out :=
  afterChecks (readChecks s.cfg.geo a n) (flashXfer s.cfg.opRead a [] n (fun bs t => t.finish bs)) s

/-- The checks of `flash.pp`, in the order of 41 R125: length (R123), flash size (R121), upgrade region (R122). -/
def ppChecks (g : Geometry) (a len : Nat) : List Check :=
  [(decide (len < 1 ∨ g.page < len ∨ g.page < a % g.page + len), .page a len g.page),
   (decide (g.flashSize < a + len), .size a (some len) g.flashSize),
   (decide (a < g.upgStart ∨ g.upgLast < a + len - 1), .upgrade a (some len) g.upgStart g.upgLast)]

/-- flash.pp (41 R129): no write-enable before, no poll after (R138). -/
def execFlashPp (a : Nat) (p : List Byte) (s : State) : Out :=
  afterChecks (ppChecks s.cfg.geo a p.length) (flashXfer s.cfg.opPp a p 0 (fun _ t => t.finish [])) s

/-- The checks of `flash.se`: flash size (41 R121), upgrade region (R122). -/
def seChecks (g : Geometry) (a : Nat) : List Check :=
  [(decide (g.flashSize ≤ a), .size a none g.flashSize),
   (decide (a < g.upgStart ∨ g.upgLast < a), .upgrade a none g.upgStart g.upgLast)]

/-- flash.se (41 R130). -/
def execFlashSe (a : Nat) (s : State) : Out :=
  afterChecks (seChecks s.cfg.geo a) (flashXfer s.cfg.opSe a [] 0 (fun _ t => t.finish [])) s

/-- flash.be: always refused, before any byte (41 R131). -/
def execFlashBe (s : State) : Out := .next (s.refuse (.forbiddenOpcode s.cfg.opBe))

/-- flash.cmd with any other SPI opcode: always refused, before any byte (41 R132). -/
def execFlashCmd (spiop : Byte) (s : State) : Out := .next (s.refuse (.invalidOpcode 0x10 spiop))

/-- flash.wait (41 R133): each step is one poll; the operation returns the status byte once WIP = 0 and otherwise polls
again, without limit. -/
def execFlashWait (s : State) : Out :=
  pollStatus (fun sr t => if wipSet t.cfg sr then t.advance else t.finish [sr]) s

end Sys2Proof.Machine
end

