-- ==== Sys2Proof/Machine/FlashSequences.lean ====
section
/-!
DEFINITION. The Flash unit's sequences (42): `flash.erase`, `flash.write`, `flash.fw`, `flash.readfw`. The
up-front check of R140 is a step, which sets the registers when it passes; every other step sends one transaction (10 R24;
log 1). `flash.fw` runs its size check only: the expansion does not run those of its erase and write again (30 R92). The loops
run over the registers FADDR, FEND, FOFF and DONE as the pseudocode does.
-/

namespace Sys2Proof.Machine

open Sys2Proof (Byte)

/-- FADDR moves on. -/
def State.moveAddr (m : Nat) (s : State) : State :=
  { s with work := { s.work with faddr := s.work.faddr + BitVec.ofNat 24 m } }

/-- FOFF moves on. -/
def State.moveOff (m : Nat) (s : State) : State :=
  { s with work := { s.work with foff := s.work.foff + BitVec.ofNat 20 m } }

/-- The write-enable that precedes every program and erase (42 R142, R146, 70 R181), then the phase `p`. -/
def stepWren (p : Phase) (s : State) : Out :=
  flashXfer s.cfg.opWren 0 [] 0 (fun _ t => (t.goto p).advance) s

/-! ## Erase -/

/-- The registers an erase starts from (42 R140). -/
def State.eraseInit (start stop : Nat) (s : State) : State :=
  { s with work := { s.work with faddr := startReg start, fend := BitVec.ofNat 25 stop, doneBytes := 0 } }

/-- The sector erase of an erase step (42 R142). -/
def stepSector (s : State) : Out :=
  flashXfer s.cfg.opSe s.work.faddr.toNat [] 0 (fun _ t => (t.goto .erasePoll).advance) s

/-- A sector is erased: progress is counted, FADDR moves on, and the loop goes on while `FADDR < FEND` (42 R141); `fin`
is what follows the loop. -/
def State.sectorDone (fin : State → State) (s : State) : State :=
  let t := (s.countDone .erase s.cfg.geo.sector).moveAddr s.cfg.geo.sector
  if t.work.faddr.toNat < t.work.fend.toNat then (t.goto .eraseWren).advance else fin t

/-- One poll of an erase step (42 R142). -/
def stepErasePoll (fin : State → State) (s : State) : Out :=
  pollStatus (fun sr t => if wipSet t.cfg sr then t.advance else t.sectorDone fin) s

/-- flash.erase (42 R141). -/
def execFlashErase (start stop : Nat) (s : State) : Out :=
  match s.phase with
  | .start =>
    if start % s.cfg.geo.sector ≠ 0 ∨ start < s.cfg.geo.upgStart ∨ s.cfg.geo.upgLast + 1 < stop then
      .next (s.raise (.invalidRegion (.eraseRange start stop)))
    else if start < stop then .next ((s.eraseInit start stop).goto .eraseWren).advance
    else .next ((s.eraseInit start stop).finish [])
  | .eraseWren => stepWren .eraseSector s
  | .eraseSector => stepSector s
  | .erasePoll => stepErasePoll (State.finish []) s
  | .checked _ | .parse | .send _ | .progWren | .progPage | .progPoll | .readChunk => .fault .outOfSequence

/-! ## Program -/

/-- The registers a program starts from (42 R140). -/
def State.progInit (start len : Nat) (s : State) : State :=
  { s with work := { s.work with
      faddr := BitVec.ofNat 24 start, fend := BitVec.ofNat 25 (start + len), foff := 0, doneBytes := 0 } }

/-- The length of the next page chunk (42 R145). -/
def State.nextChunk (s : State) (len : Nat) : Nat := chunkLen s.cfg.geo s.work.faddr.toNat (len - s.work.foff.toNat)

/-- The page program of a program step (42 R146): `D[FOFF .. FOFF + m)` at FADDR. -/
def stepPage (data : List Byte) (s : State) : Out :=
  flashXfer s.cfg.opPp s.work.faddr.toNat ((data.drop s.work.foff.toNat).take (s.nextChunk data.length)) 0
    (fun _ t => (t.goto .progPoll).advance) s

/-- A page is programmed: progress is counted, FADDR and FOFF move on, and the loop goes on while `FOFF < len(D)`
(42 R144); `fin` is what follows the loop. -/
def State.pageDone (len : Nat) (fin : State → State) (s : State) : State :=
  let m := s.nextChunk len
  let t := ((s.countDone .program m).moveAddr m).moveOff m
  if t.work.foff.toNat < len then (t.goto .progWren).advance else fin t

/-- One poll of a program step (42 R146). -/
def stepProgPoll (len : Nat) (fin : State → State) (s : State) : Out :=
  pollStatus (fun sr t => if wipSet t.cfg sr then t.advance else t.pageDone len fin) s

/-- flash.write (42 R144). -/
def execFlashWrite (start : Nat) (data : List Byte) (s : State) : Out :=
  match s.phase with
  | .start =>
    if start < s.cfg.geo.upgStart ∨ s.cfg.geo.upgLast + 1 < start + data.length then
      .next (s.raise (.invalidRegion (.writeRange start data.length)))
    else if data.length = 0 then .next ((s.progInit start data.length).finish [])
    else .next ((s.progInit start data.length).goto .progWren).advance
  | .progWren => stepWren .progPage s
  | .progPage => stepPage data s
  | .progPoll => stepProgPoll data.length (State.finish []) s
  | .checked _ | .parse | .send _ | .eraseWren | .eraseSector | .erasePoll | .readChunk => .fault .outOfSequence

/-! ## Firmware -/

/-- The erase of `flash.fw` is done: its write begins (42 R147). -/
def State.fwErased (len : Nat) (s : State) : State :=
  ((s.progInit s.cfg.geo.upgStart len).goto .progWren).advance

/-- flash.fw (42 R147, R148): the whole upgrade region is erased, then the image is written at its start. -/
def execFlashFw (image : List Byte) (s : State) : Out :=
  match s.phase with
  | .start =>
    if s.cfg.geo.minFw < image.length ∧ image.length < s.cfg.geo.maxFwExcl then
      .next ((s.eraseInit s.cfg.geo.upgStart (s.cfg.geo.upgLast + 1)).goto .eraseWren).advance
    else .next (s.raise (.invalidImageSize image.length s.cfg.geo.minFw s.cfg.geo.maxFwExcl))
  | .eraseWren => stepWren .eraseSector s
  | .eraseSector => stepSector s
  | .erasePoll => stepErasePoll (State.fwErased image.length) s
  | .progWren => stepWren .progPage s
  | .progPage => stepPage image s
  | .progPoll => stepProgPoll image.length (State.finish []) s
  | .checked _ | .parse | .send _ | .readChunk => .fault .outOfSequence

/-! ## Read back -/

/-- The registers a read-back starts from (42 R140). -/
def State.readInit (s : State) : State :=
  { s with work := { s.work with faddr := BitVec.ofNat 24 s.cfg.geo.upgStart, doneBytes := 0, rbuf := [] } }

/-- A chunk is read: RBUF takes it, progress is counted, FADDR moves on; after the last chunk RBUF is returned
(42 R149). -/
def State.chunkRead (bs : List Byte) (s : State) : State :=
  let m := s.cfg.geo.readChunk
  let t := (({ s with work := { s.work with rbuf := s.work.rbuf ++ bs } }).countDone .read m).moveAddr m
  if t.work.faddr.toNat ≤ s.cfg.geo.upgLast then (t.goto .readChunk).advance else t.finish t.work.rbuf

/-- One READ of READ_CHUNK bytes at FADDR (42 R149, R150). -/
def stepChunk (s : State) : Out :=
  flashXfer s.cfg.opRead s.work.faddr.toNat [] s.cfg.geo.readChunk (fun bs t => t.chunkRead bs) s

/-- flash.readfw (42 R149). -/
def execFlashReadfw (s : State) : Out :=
  match s.phase with
  | .start => stepChunk s.readInit
  | .readChunk => stepChunk s
  | .checked _ | .parse | .send _ | .eraseWren | .eraseSector | .erasePoll | .progWren | .progPage | .progPoll =>
    .fault .outOfSequence

end Sys2Proof.Machine
end

