-- ==== Sys2Proof/Machine/Osd.lean ====
section
/-!
DEFINITION. The OSD unit (40): the effect of each token on the parser's registers (R100 to R110), the streaming parser
of R107 that runs them, and the meanings of the tokens and of `osd.write`, `osd.read` and `osd.dump`.
-/

namespace Sys2Proof.Machine

open Sys2Proof (Byte)

/-! ## The effect of one token. In a discarded row (ROW = 16) a token has none (40 R97, R107 `skip`). -/

/-- INV_ON: "Sets `INV <- 1`" (40 R101); the held backslash was its first byte. -/
def State.tokInvOn (s : State) : State :=
  if s.inFrame then { s with work := { s.work with esc := false, inv := true } } else s

/-- INV_OFF: "Sets `INV <- 0`" (40 R102). -/
def State.tokInvOff (s : State) : State :=
  if s.inFrame then { s with work := { s.work with esc := false, inv := false } } else s

/-- NEWLINE: `ROW <- ROW + 1`, `COL <- 0`, `INV <- 0` (40 R100, R106). -/
def State.tokNewline (s : State) : State :=
  if s.inFrame then { s with work := { s.work with row := s.work.row + 1, col := 0, inv := false } } else s

/-- PAD: one cell of value `0x00 + 0x80*INV` (40 R108). -/
def State.tokPad (s : State) : State := if s.inFrame then s.put 0x00 else s

/-- BSLASH: one cell of value `0x5C + 0x80*INV`; the backslash is no longer held (40 R103, R107). -/
def State.tokBslash (s : State) : State :=
  if s.inFrame then
    let t := s.put BACKSLASH
    { t with work := { t.work with esc := false } }
  else s

/-- CHAR: one cell of value `b + 0x80*INV` (40 R104). -/
def State.tokChar (c : BitVec 7) (s : State) : State := if s.inFrame then s.put (0#1 ++ c) else s

/-- INVALID: the whole `osd.write` ends with `InvalidCharacter(index, byte)` (40 R95). -/
def State.tokInvalid (c : BitVec 7) (s : State) : State := s.raise (.invalidCharacter s.pc (1#1 ++ c))

/-! ## The meanings of the tokens -/

/-- inv_on (40 R101). -/
def execInvOn (s : State) : Out := .next s.tokInvOn

/-- inv_off (40 R102). -/
def execInvOff (s : State) : Out := .next s.tokInvOff

/-- newline (40 R100). -/
def execNewline (s : State) : Out := .next s.tokNewline

/-- pad (40 R108). -/
def execPad (s : State) : Out := .next s.tokPad

/-- bslash (40 R103). -/
def execBslash (s : State) : Out := .next s.tokBslash

/-- char (40 R104). -/
def execChar (c : BitVec 7) (s : State) : Out := .next (s.tokChar c)

/-- invalid (40 R95). -/
def execInvalid (c : BitVec 7) (s : State) : Out := .next (s.tokInvalid c)

/-! ## The streaming parser (40 R107) -/

/-- A byte that completes no marker and is no backslash: LF, NUL or a character (40 R100, R104, R108). -/
def State.plainByte (b : Byte) (s : State) : State :=
  if b = LF then s.tokNewline else if b = 0x00 then s.tokPad else s.tokChar (b.setWidth 7)

/-- A held backslash that the byte `b` does not complete to a marker is BSLASH; then `b` is decoded afresh
(40 R103, R107). -/
def State.unmarkedByte (b : Byte) (s : State) : State :=
  let t := if s.work.esc then s.tokBslash else s
  if b = BACKSLASH then t.holdEsc else t.plainByte b

/-- One valid input byte in a row of the frame (40 R107 `step`). -/
def State.frameByte (b : Byte) (s : State) : State :=
  if s.work.esc ∧ b = LETTER_I then s.tokInvOn
  else if s.work.esc ∧ b = LETTER_U then s.tokInvOff
  else s.unmarkedByte b

/-- One input byte (40 R107 `step`): "One step consumes one byte and advances `pc` by one". -/
def State.parseByte (b : Byte) (s : State) : State :=
  if b.msb then s.tokInvalid (b.setWidth 7)
  else if s.inFrame then (s.frameByte b).advance
  else s.advance

/-- The end of the text: a held backslash becomes a cell (40 R107 `end`), and row 0 is the next to send. -/
def State.parseEnd (s : State) : State :=
  ((if s.work.esc then s.tokBslash else s).goto (.send 0)).advance

/-- One step of the parser over a text. -/
def State.parseStep (text : List Byte) (s : State) : State :=
  match text[s.pc]? with
  | none => s.parseEnd
  | some b => s.parseByte b

/-! ## Sending the frame (40 R111, R112) -/

/-- Row `r` is sent; after row 15 the operation returns (40 R111, R99). -/
def sendRow (r : Nat) (s : State) : Out :=
  transact (memWriteXact (s.cfg.geo.displayBase + COLS * r) (frameRow s.work.fb r))
    (fun _ t => if r + 1 < ROWS then (t.goto (.send (r + 1))).advance else t.finish []) s

/-- The whole frame is sent and the operation returns (40 R112). -/
def sendFrame (s : State) : Out :=
  transact (memWriteXact s.cfg.geo.displayBase s.work.fb.toList) (fun _ t => t.finish []) s

/-- The next write of the frame. -/
def sendStep (r : Nat) (s : State) : Out :=
  match s.cfg.osdWriteMode with
  | .rows => if r < ROWS then sendRow r s else .fault .outOfSequence
  | .frame => sendFrame s

/-! ## The meanings of the operations -/

/-- osd.write (40 R99 in the streaming form of R107; log 18): each step consumes one byte, ends the text, or sends one
frame. The first step starts the parser (R107 `init`) and consumes the first byte. -/
def execOsdWrite (text : List Byte) (s : State) : Out :=
  match s.phase with
  | .start => .next ((s.osdInit.goto .parse).parseStep text)
  | .parse => .next (s.parseStep text)
  | .send r => sendStep r s
  | .checked _ | .eraseWren | .eraseSector | .erasePoll | .progWren | .progPage | .progPoll | .readChunk =>
    .fault .outOfSequence

/-- GRID takes the printable grid of a frame and is the value returned (40 R113, R115). -/
def State.returnGrid (frame : List Byte) (s : State) : State :=
  let grid := gridOf s.cfg frame
  ({ s with work := { s.work with grid := grid } }).finish grid.toList

/-- osd.read (40 R113): one check; when it passes the grid is returned in the same step. -/
def execOsdRead (frame : List Byte) (s : State) : Out :=
  .next (if frame.length = FRAME_BYTES then s.returnGrid frame
    else s.raise (.layoutError FRAME_BYTES frame.length))

/-- osd.dump (40 R115). -/
def execOsdDump (s : State) : Out :=
  transact (memReadXact s.cfg.geo.displayBase FRAME_BYTES) (fun bs t => t.returnGrid bs) s

end Sys2Proof.Machine
end

