-- ==== Sys2Proof/Machine/Dispatch.lean ====
section
/-!
DEFINITION. One arm for each instruction. For a request, `exec i s` is the next step of the operation `i`.
-/

namespace Sys2Proof.Machine

open Sys2Proof (Instr)

def exec (i : Instr) (s : State) : Host.Outcome State Fault Refusal :=
  match i with
  | .invOn => Sys2Proof.Machine.execInvOn s
  | .invOff => Sys2Proof.Machine.execInvOff s
  | .newline => Sys2Proof.Machine.execNewline s
  | .pad => Sys2Proof.Machine.execPad s
  | .bslash => Sys2Proof.Machine.execBslash s
  | .char c => Sys2Proof.Machine.execChar c s
  | .invalid c => Sys2Proof.Machine.execInvalid c s
  | .osdWrite text => Sys2Proof.Machine.execOsdWrite text s
  | .osdRead frame => Sys2Proof.Machine.execOsdRead frame s
  | .osdDump => Sys2Proof.Machine.execOsdDump s
  | .flashWren => Sys2Proof.Machine.execFlashWren s
  | .flashRdsr => Sys2Proof.Machine.execFlashRdsr s
  | .flashRead addr n => Sys2Proof.Machine.execFlashRead addr n s
  | .flashPp addr data => Sys2Proof.Machine.execFlashPp addr data s
  | .flashSe addr => Sys2Proof.Machine.execFlashSe addr s
  | .flashBe => Sys2Proof.Machine.execFlashBe s
  | .flashCmd spiop => Sys2Proof.Machine.execFlashCmd spiop s
  | .flashWait => Sys2Proof.Machine.execFlashWait s
  | .flashErase start stop => Sys2Proof.Machine.execFlashErase start stop s
  | .flashWrite start data => Sys2Proof.Machine.execFlashWrite start data s
  | .flashFw image => Sys2Proof.Machine.execFlashFw image s
  | .flashReadfw => Sys2Proof.Machine.execFlashReadfw s

end Sys2Proof.Machine
end

