-- ==== Sys2Proof/Machine/Fetch.lean ====
section
/-!
DEFINITION. What `step` fetches: the accepted request decodes to the running operation (30 R80), and an instruction of
the opcode table is placed where the next step fetches it (log 16, log 17).
-/

namespace Sys2Proof.Machine

open Sys2Proof (Byte Request Config Encoded DecodeError)

/-- The running operation: the accepted request, decoded. -/
def State.current (s : State) : Except DecodeError Instr := Sys2Proof.decodeRequest s.cfg s.req

/-- A request stands accepted and is about to start. -/
def State.withRequest (r : Request) (s : State) : State :=
  { s with busy := true, pc := 0, phase := .start, req := r, resetIn := .off }

/-- The bytes of one token stand as the text of a running `osd.write`, with the parser (40 R107) at the byte whose step
runs the token: for a marker its second byte, the backslash being held; for a lone backslash the end of the text, the
backslash being held; for any other byte that byte. -/
def State.withToken (bs : List Byte) (s : State) : State :=
  let held := bs.head? == some BACKSLASH
  { s with
    busy := true, phase := .parse, resetIn := .off, req := { Sys2Proof.requestOf 0x01 with data := bs },
    pc := if held then 1 else 0, work := { s.work with esc := held } }

/-- An encoded instruction stands where the next step fetches it. -/
def State.withEncoded (e : Encoded) (s : State) : State :=
  match e with
  | .token bs => s.withToken bs
  | .request r => s.withRequest r

/-- The instruction whose bits are `w`, as the opcode table numbers them. -/
def State.placeWord (s : State) (nbits w : Nat) : State :=
  match Sys2Proof.tableEncoded nbits w with
  | none => s
  | some e => s.withEncoded e

end Sys2Proof.Machine
end

