-- ==== Sys2Proof/Machine/Step.lean ====
section
/-!
DEFINITION. One step of the machine (00 R6: "Each transaction is an atomic step of the model").
-/

namespace Sys2Proof.Machine

/-- A step with the reset input off: a busy block takes the next step of the operation its request decodes to, or
answers InvalidOpcode; an idle one accepts the next request offered. -/
def cycle (s : State) : Host.Outcome State Fault Refusal :=
  if s.busy then
    match s.current with
    | .ok i => exec i s
    | .error _ => .next s.rejectWord
  else .next s.accept

/-- One step, with the reset input of 70 R175 and R176. -/
def step (s : State) : Host.Outcome State Fault Refusal :=
  match s.resetIn with
  | .off => cycle s
  | .between => .next s.blockReset
  | .during => .next (s.resetInFlight (cycle s.failing))

/-- The state `s` with one instruction of the opcode table placed where `step` fetches next. -/
def State.withFetchWord (s : State) (nbits w : Nat) : State := s.placeWord nbits w

end Sys2Proof.Machine
end

