-- ==== Sys2Proof/Machine/OsdFrame.lean ====
section
/-!
DEFINITION. The whole-text form of `osd.write` (40 R99, normative): the frame a text renders to, written from R95 to
R110 without the parser's registers. The machine runs the streaming form of R107 (Machine/Osd.lean); that the two give
one frame is a statement of Certificates/Slice0/Obligations.lean.
-/

namespace Sys2Proof.Machine

open Sys2Proof (Byte)

/-- The first byte 0x80..0xFF of a text with its index, the text's first byte having index `j` (40 R95). -/
def firstInvalid (j : Nat) : List Byte → Option (Nat × Byte)
  | [] => none
  | b :: rest => if b.msb then some (j, b) else firstInvalid (j + 1) rest

/-- The rows of a text: it is split at every LF (40 R96). -/
def splitRows : List Byte → List (List Byte)
  | [] => [[]]
  | b :: rest =>
    if b = LF then [] :: splitRows rest
    else match splitRows rest with
      | [] => [[b]]
      | r :: rs => (b :: r) :: rs

/-- The cells of a row from a point where the inverse flag is `inv` (40 R99 `render_row`). -/
def renderRow (inv : Bool) : List Byte → List Byte
  | [] => []
  | [b] => [cellOf inv b]
  | b :: b' :: rest =>
    if b = BACKSLASH ∧ b' = LETTER_I then renderRow true rest
    else if b = BACKSLASH ∧ b' = LETTER_U then renderRow false rest
    else cellOf inv b :: renderRow inv (b' :: rest)

/-- The cell of row `r` and column `c`: 0x00 past the row's cells and past the text's rows (40 R97, R98, R109, R110). -/
def frameCell (text : List Byte) (r c : Nat) : Byte :=
  match (splitRows text)[r]? with
  | none => 0x00
  | some row => (renderRow false row).getD c 0x00

/-- The frame a text renders to: cell (r, c) at byte `40*r + c` (10 R30). -/
def frameOf (text : List Byte) : List Byte :=
  (List.range FRAME_BYTES).map (fun k => frameCell text (k / COLS) (k % COLS))

end Sys2Proof.Machine
end

