-- ==== Sys2Proof/Safety.lean ====
section
/-!
DEFINITION. What claims are stated in: the invariant of the machine, which frames may stand on the bus, how a
transaction ends, and what a step leaves alone.
-/

namespace Sys2Proof.Machine

open Sys2Proof (Byte Instr Config Geometry Request)

/-! ## How the next transaction ends -/

/-- The device and the transport end the transaction `x` with success, returning `bs` (20 R54). -/
def State.answers (s : State) (x : Xact) (bs : List Byte) : Prop :=
  ∃ t, route s.cfg x = some t ∧ answerOf x (ownAnswer s t) s.nextReply = .ok bs

/-- The transaction `x` fails with the error `e` (20 R54, 60 R162). -/
def State.fails (s : State) (x : Xact) (e : TransportErr) : Prop :=
  ∃ t, route s.cfg x = some t ∧ answerOf x (ownAnswer s t) s.nextReply = .error e

/-- The meaning or step answers the state `t` with an operation ended in it. What `pc` holds once no operation runs is
left open here: 10 R24 defines it "while an operation runs" (log 26). -/
def EndsAs (o : Out) (t : State) : Prop := ∃ p, o = .next { t with pc := p }

/-! ## The frames of the flash commands (41 R119, 30 R87) -/

/-- WREN. -/
def wrenXact (c : Config) : Xact := .write (be16 c.geo.flashTunnel ++ [c.opWren])

/-- RDSR for one byte. -/
def rdsrXact (c : Config) : Xact := .exchange (be16 c.geo.flashTunnel ++ [c.opRdsr]) 1

/-- READ of `n` bytes at `a`. -/
def readXact (c : Config) (a n : Nat) : Xact := .exchange (be16 c.geo.flashTunnel ++ [c.opRead] ++ be24 a) n

/-- PP of `p` at `a`. -/
def ppXact (c : Config) (a : Nat) (p : List Byte) : Xact := .write (be16 c.geo.flashTunnel ++ [c.opPp] ++ be24 a ++ p)

/-- SE of the sector of `a`. -/
def seXact (c : Config) (a : Nat) : Xact := .write (be16 c.geo.flashTunnel ++ [c.opSe] ++ be24 a)

/-! ## The request fields an operation reads -/

/-- The two requests agree on the operation and on every field the operation reads: the table of 30 R82, row by row.
`c` says which SPI opcodes are `flash.read`, `flash.pp` and `flash.se`. -/
structure SameOperands (c : Config) (q r : Request) : Prop where
  sel : q.sel = r.sel
  spiop : q.spiop = r.spiop
  addr : (r.sel = 0x10 ∧ r.spiop ∈ [c.opRead, c.opPp, c.opSe]) ∨ r.sel ∈ ([0x20, 0x21] : List Byte) → q.addr = r.addr
  stop : r.sel = 0x20 → q.stop = r.stop
  n : r.sel = 0x10 ∧ r.spiop = c.opRead → q.n = r.n
  data : (r.sel = 0x10 ∧ r.spiop = c.opPp) ∨ r.sel ∈ ([0x01, 0x02, 0x21, 0x22] : List Byte) → q.data = r.data

/-! ## The invariant -/

/-- The device's two memories are in canonical form and within their address spaces (20 R43, R46). -/
def State.memWf (s : State) : Prop :=
  Memory.wf s.devMem ∧ Memory.below 0x10000 s.devMem ∧ Memory.wf s.flash ∧ Memory.below s.cfg.geo.flashSize s.flash

/-- The registers of a running `osd.write` (10 R25, R27; 40 R107: "`ESC` = 1 implies `ROW` < 16"). -/
def OsdInv (text : List Byte) (s : State) : Prop :=
  match s.phase with
  | .start => s.pc = 0
  | .parse =>
    s.pc ≤ text.length ∧ s.work.row.toNat ≤ ROWS ∧ s.work.col.toNat ≤ COLS ∧
      (s.work.esc = true → s.work.row.toNat < ROWS)
  | .send r => r < ROWS
  | .checked _ | .eraseWren | .eraseSector | .erasePoll | .progWren | .progPage | .progPoll | .readChunk => False

/-- A flash command has passed the checks before the one that is next. -/
def ChecksInv (checks : List Check) (p : Phase) : Prop :=
  p = .start ∨ ∃ k, p = .checked k ∧ k ≤ checks.length ∧ ∀ c ∈ checks.take k, c.1 = false

/-- The registers inside an erase step: FADDR is a sector of the upgrade region before the end of the range. -/
def EraseInv (g : Geometry) (w : Work) : Prop :=
  g.upgStart ≤ w.faddr.toNat ∧ w.faddr.toNat % g.sector = 0 ∧ w.faddr.toNat < w.fend.toNat ∧
    w.fend.toNat ≤ g.upgLast + 1

/-- The registers inside a program step of `len` bytes of data: what is left to program lies between FADDR and FEND,
in the upgrade region. -/
def ProgInv (g : Geometry) (len : Nat) (w : Work) : Prop :=
  g.upgStart ≤ w.faddr.toNat ∧ w.foff.toNat < len ∧ w.faddr.toNat + (len - w.foff.toNat) = w.fend.toNat ∧
    w.fend.toNat ≤ g.upgLast + 1 ∧ len ≤ g.upgSize

/-- The registers of a read-back: FADDR is the next chunk of the upgrade region and RBUF holds the bytes before it. -/
def ReadInv (g : Geometry) (w : Work) : Prop :=
  g.upgStart ≤ w.faddr.toNat ∧ w.faddr.toNat ≤ g.upgLast ∧ (w.faddr.toNat - g.upgStart) % g.readChunk = 0 ∧
    w.rbuf.length = w.faddr.toNat - g.upgStart

/-- A phase of the erase loop. -/
def Phase.erasing : Phase → Bool
  | .eraseWren | .eraseSector | .erasePoll => true
  | .start | .checked _ | .parse | .send _ | .progWren | .progPage | .progPoll | .readChunk => false

/-- A phase of the program loop. -/
def Phase.programming : Phase → Bool
  | .progWren | .progPage | .progPoll => true
  | .start | .checked _ | .parse | .send _ | .eraseWren | .eraseSector | .erasePoll | .readChunk => false

/-- The state of a running operation. -/
def RunInv (i : Instr) (s : State) : Prop :=
  match i with
  | .osdWrite text => OsdInv text s
  | .flashRead a n => ChecksInv (readChecks s.cfg.geo a n) s.phase
  | .flashPp a p => ChecksInv (ppChecks s.cfg.geo a p.length) s.phase
  | .flashSe a => ChecksInv (seChecks s.cfg.geo a) s.phase
  | .flashErase _ _ => s.phase = .start ∨ (s.phase.erasing = true ∧ EraseInv s.cfg.geo s.work)
  | .flashWrite _ data =>
    s.phase = .start ∨ (s.phase.programming = true ∧ ProgInv s.cfg.geo data.length s.work)
  | .flashFw image =>
    s.phase = .start ∨
      (s.cfg.geo.minFw < image.length ∧ image.length < s.cfg.geo.maxFwExcl ∧
        ((s.phase.erasing = true ∧ EraseInv s.cfg.geo s.work) ∨
          (s.phase.programming = true ∧ ProgInv s.cfg.geo image.length s.work)))
  | .flashReadfw => s.phase = .start ∨ (s.phase = .readChunk ∧ ReadInv s.cfg.geo s.work)
  | .invOn | .invOff | .newline | .pad | .bslash | .char _ | .invalid _ | .osdRead _ | .osdDump | .flashWren
  | .flashRdsr | .flashBe | .flashCmd _ | .flashWait => True

/-- The invariant of the machine. -/
def Inv (s : State) : Prop :=
  s.cfg.wf = true ∧ s.memWf ∧ (s.busy = true → ∀ i, s.current = .ok i → RunInv i s)

/-! ## The frames the block may send -/

/-- The frames of 20 R58 and 30 R84, R90, with the addresses the guards allow (20 R65, 41 R121, R122, R123): a Display
row or the whole frame, the Display read, WREN, RDSR, a READ inside the flash, a page program and a sector erase inside
the upgrade region. No bulk erase is among them. -/
inductive FrameAllowed (c : Config) : Xact → Prop where
  | displayRow (r : Nat) (v : List Byte) (hr : r < ROWS) (hv : v.length = COLS) :
      FrameAllowed c (.write (be16 (c.geo.displayBase + COLS * r) ++ v))
  | displayFrame (v : List Byte) (hv : v.length = FRAME_BYTES) : FrameAllowed c (.write (be16 c.geo.displayBase ++ v))
  | displayRead : FrameAllowed c (.exchange (be16 c.geo.displayBase) FRAME_BYTES)
  | wren : FrameAllowed c (wrenXact c)
  | rdsr : FrameAllowed c (rdsrXact c)
  | read (a n : Nat) (hn : 1 ≤ n) (ha : a + n ≤ c.geo.flashSize) : FrameAllowed c (readXact c a n)
  | program (a : Nat) (p : List Byte) (h1 : 1 ≤ p.length) (hp : a % c.geo.page + p.length ≤ c.geo.page)
      (lo : c.geo.upgStart ≤ a) (hi : a + p.length ≤ c.geo.upgLast + 1) : FrameAllowed c (ppXact c a p)
  | erase (a : Nat) (lo : c.geo.upgStart ≤ a) (hi : a ≤ c.geo.upgLast) : FrameAllowed c (seXact c a)

/-! ## The traces of the sequences (42) -/

/-- The page chunks of `data` at `start` (42 R145), given enough fuel: each chunk's address and bytes. -/
def chunksOf (g : Geometry) : Nat → Nat → List Byte → List (Nat × List Byte)
  | 0, _, _ => []
  | fuel + 1, a, data =>
    if data.length = 0 then []
    else
      let m := chunkLen g a data.length
      (a, data.take m) :: chunksOf g fuel (a + m) (data.drop m)

/-- How a `Write` can succeed: by any reply but a transport error (20 R54). -/
def Reply.noError (r : Reply) : Prop := ∀ code, r ≠ .error code

/-- The device's replies to the frames of one erase or program step (42 R142, R146): to the write-enable, to the command,
to each poll before the last, and to the last. -/
structure StepReplies where
  wren : Reply
  command : Reply
  busy : List Byte
  last : Byte

/-- The step succeeds: the writes do, WIP is set in every poll but the last, and clear in the last. -/
structure StepReplies.Succeeds (c : Config) (x : StepReplies) : Prop where
  wren : x.wren.noError
  command : x.command.noError
  busy : ∀ b ∈ x.busy, b &&& c.wipMask ≠ 0
  last : x.last &&& c.wipMask = 0

/-- The replies in the order they are given. -/
def StepReplies.list (x : StepReplies) : List Reply :=
  [x.wren, x.command] ++ x.busy.map (fun b => .bytes [b]) ++ [.bytes [x.last]]

/-- The number `p` of polls of the step, at least 1 (42 R154). -/
def StepReplies.polls (x : StepReplies) : Nat := x.busy.length + 1

/-- The frames of an erase step that polls `p` times (42 R142). -/
def eraseFrames (c : Config) (a p : Nat) : List Xact := [wrenXact c, seXact c a] ++ List.replicate p (rdsrXact c)

/-- The frames of a program step that polls `p` times (42 R146). -/
def programFrames (c : Config) (chunk : Nat × List Byte) (p : Nat) : List Xact :=
  [wrenXact c, ppXact c chunk.1 chunk.2] ++ List.replicate p (rdsrXact c)

/-- The frames of the erase steps of consecutive sectors from `a` on, step by step. -/
def eraseTrace (c : Config) (a : Nat) (xs : List StepReplies) : List Xact :=
  xs.zipIdx.flatMap (fun x => eraseFrames c (a + c.geo.sector * x.2) x.1.polls)

/-- The frames of the program steps of the chunks, step by step. -/
def programTrace (c : Config) (chunks : List (Nat × List Byte)) (xs : List StepReplies) : List Xact :=
  (chunks.zip xs).flatMap (fun x => programFrames c x.1 x.2.polls)

/-! ## Runs -/

/-- `k` steps of the machine. -/
def runSteps : Nat → State → Out
  | 0, s => .next s
  | k + 1, s => match step s with
    | .next t => runSteps k t
    | .fault f => .fault f
    | .refused r => .refused r

/-- The phase of a flash command that has passed `k` checks. -/
def checkPhase : Nat → Phase
  | 0 => .start
  | k + 1 => .checked (k + 1)

/-- The request stands accepted, decoded as `i`, and nothing of it has run. -/
def State.accepted (s : State) (i : Instr) : Prop :=
  s.resetIn = .off ∧ s.busy = true ∧ s.pc = 0 ∧ s.phase = .start ∧ s.current = .ok i

/-! ## What a step leaves alone -/

/-- Everything of the device is as before. -/
def SameDevice (s t : State) : Prop := t.devMem = s.devMem ∧ t.flash = s.flash ∧ t.sr = s.sr

/-- No frame was sent and no reply taken. -/
def NoTraffic (s t : State) : Prop := t.bus = s.bus ∧ t.replies = s.replies

/-- The configuration, the accepted request and the inputs from outside but the device's replies are as before. -/
def SameInterface (s t : State) : Prop :=
  t.cfg = s.cfg ∧ t.req = s.req ∧ t.requests = s.requests ∧ t.resetIn = s.resetIn

/-- What a caller and the device can see of two states is the same (10 R33: "the caller reads only the result and
`BUSY` and `ERR`"); the registers of the block are left out. -/
def SameOutside (s t : State) : Prop :=
  t.busy = s.busy ∧ t.results = s.results ∧ t.events = s.events ∧ t.bus = s.bus ∧ SameDevice s t

end Sys2Proof.Machine
end

