-- ==== Sys2Proof/Certificates/Slice0/Obligations.lean ====
section
/-!
DEFINITION. The statements for the provers. Each docstring names the rules of spec/ it formalises, and the log entry
where a clause is the model's own. Where a statement writes a next state as a record update, every field not named in
it is unchanged: that is the frame. A `t.field` inside such an update leaves the field to the clauses after it. `EndsAs`
leaves `pc` after the step that ends an operation open (log 26). Addresses, sizes and bounds are those of the
configuration's geometry (93 I1; log 11), `g` being the state's.
-/

open Sys2Proof Sys2Proof.Machine

/-! ## Encodings -/

/-- 30 R69, R80: a few words of the opcode table, one of every family, decode to their instructions. -/
def Obligations.WordsOfTheTableDecode : Prop :=
  decodeTableWord 16 0x5C69 = some .invOn ∧ decodeTableWord 8 0x0A = some .newline ∧
  decodeTableWord 8 0x41 = some (.char 0x41) ∧ decodeTableWord 8 0xC3 = some (.invalid 0x43) ∧
  decodeTableWord 16 0x0100 = some (.osdWrite []) ∧ decodeTableWord 16 0x10D8 = some (.flashSe 0) ∧
  decodeTableWord 16 0x109F = some (.flashCmd 0x9F) ∧ decodeTableWord 16 0x2300 = some .flashReadfw ∧
  decodeTableWord 16 0x0101 = none ∧ decodeTableWord 16 0x0400 = none ∧ decodeTableWord 16 0x1105 = none

/-- 30 R69 to R82: decoding the encoding of a well-formed instruction gives it back, every operand at every value. -/
def Obligations.DecodeOfEncodeIsTheInstruction : Prop :=
  ∀ (c : Config) (i : Instr), c.wf = true → i.wf c = true → decode c (encode c i) = .ok i

/-- 30 R80, R82, R93, 10 R20, 41 R139: two requests of one operation that agree on the fields 30 R82 marks for it decode
alike, to the same instruction or the same error, whatever stands in the fields the operation does not read; and the
instruction a request decodes to is well formed and encodes to a request with the same request word that decodes to it
too, with no operand but the request's own. -/
def Obligations.DecodedRequestHasItsOwnWord : Prop :=
  (∀ (c : Config) (q r : Request), SameOperands c q r → decodeRequest c q = decodeRequest c r) ∧
  ∀ (c : Config) (r : Request) (i : Instr), decodeRequest c r = .ok i →
    i.wf c = true ∧ i.isToken = false ∧
    ∃ q, encode c i = .request q ∧ q.word = r.word ∧ decodeRequest c q = .ok i ∧
      (q.addr = r.addr ∨ q.addr = 0) ∧ (q.stop = r.stop ∨ q.stop = 0) ∧ (q.n = r.n ∨ q.n = 0) ∧
      (q.data = r.data ∨ q.data = [])

/-- 30 R77, R69: the tokens of a text, each encoded, are the text again: the decoder drops and invents no byte. -/
def Obligations.TokensOfATextSpellTheText : Prop :=
  ∀ (c : Config) (text : List Byte),
    (decodeText text).flatMap (fun i => match encode c i with | .token bs => bs | .request _ => []) = text ∧
    ∀ i ∈ decodeText text, i.isToken = true ∧ i.wf c = true

/-- 30 R80, R81, R89: which request words are no request, and by which error each is rejected. -/
def Obligations.RequestWordsRejectedExactly : Prop :=
  ∀ (c : Config) (r : Request),
    (decodeRequest c r = .error (.reservedSelector r.sel r.spiop) ↔
      r.sel ∉ ([0x01, 0x02, 0x03, 0x10, 0x11, 0x20, 0x21, 0x22, 0x23] : List Byte)) ∧
    (decodeRequest c r = .error (.nonzeroSpiop r.sel r.spiop) ↔
      r.sel ∈ ([0x01, 0x02, 0x03, 0x11, 0x20, 0x21, 0x22, 0x23] : List Byte) ∧ r.spiop ≠ 0)

/-! ## The step -/

/-- 10 R20, R24, 30 R80, R89, 41 R125, 60 R160: with the reset input off, a busy block's step is the next step of the
operation its request decodes to; a request word that decodes to nothing ends with InvalidOpcode and nothing is sent. A
`flash.wait` word changes no register but ERR (41 R125 (1)); after any other the working registers are free (log 9). -/
def Obligations.StepRunsTheDecodedRequest : Prop :=
  ∀ s : State, s.resetIn = .off → s.busy = true →
    (∀ i, decodeRequest s.cfg s.req = .ok i → step s = exec i s) ∧
    (∀ e, decodeRequest s.cfg s.req = .error e →
      (s.req.sel = 0x11 → EndsAs (step s) { s with
        busy := false, err := 1, results := s.results ++ [⟨1, [], .invalidOpcode 0x11 s.req.spiop⟩] }) ∧
      (s.req.sel ≠ 0x11 → EndsAs (step s) { s with
        busy := false, err := 1, results := s.results ++ [⟨1, [], .invalidOpcode s.req.sel s.req.spiop⟩],
        work := Config.freeWork s.draws, draws := s.draws + 1 }))

/-- 40 R107, R77: a parser step on a byte that ends a token runs that token and then counts the byte. A byte that
follows a held backslash and makes no marker runs BSLASH first. -/
def Obligations.ParserStepRunsItsToken : Prop :=
  ∀ (text : List Byte) (s : State) (b : Byte),
    s.resetIn = .off → s.busy = true → s.phase = .parse → decodeRequest s.cfg s.req = .ok (.osdWrite text) →
    text[s.pc]? = some b → b.toNat < 0x80 →
    (s.work.esc = true → b = 0x69 →
      ∃ t, exec .invOn s = .next t ∧ step s = .next { t with pc := s.pc + 1 }) ∧
    (s.work.esc = true → b = 0x75 →
      ∃ t, exec .invOff s = .next t ∧ step s = .next { t with pc := s.pc + 1 }) ∧
    (s.work.esc = false → b ≠ 0x5C → ∃ t, exec (byteToken b) s = .next t ∧ step s = .next { t with pc := s.pc + 1 }) ∧
    (s.work.esc = true → s.work.row.toNat < 16 → b ≠ 0x69 → b ≠ 0x75 → b ≠ 0x5C →
      ∃ t u, exec .bslash s = .next t ∧ exec (byteToken b) t = .next u ∧ step s = .next { u with pc := s.pc + 1 })

/-- 40 R107: what the parser does with a backslash, with the end of the text, with a byte 0x80..0xFF, and with a byte of
a discarded row, which it skips (R97). That the end of the text is a step of its own, which counts one in `pc`, is the
model's choice (log 1): R107 gives its `end` no change of `pc`. -/
def Obligations.ParserHoldsAndReleasesBackslashes : Prop :=
  ∀ (text : List Byte) (s : State),
    s.resetIn = .off → s.busy = true → s.phase = .parse → decodeRequest s.cfg s.req = .ok (.osdWrite text) →
    (text[s.pc]? = some 0x5C → s.work.esc = false → s.work.row.toNat < 16 →
      step s = .next { s with pc := s.pc + 1, work := { s.work with esc := true } }) ∧
    (text[s.pc]? = some 0x5C → s.work.esc = true → s.work.row.toNat < 16 →
      ∃ t, exec .bslash s = .next t ∧ step s = .next { t with pc := s.pc + 1, work := { t.work with esc := true } }) ∧
    (∀ b, text[s.pc]? = some b → b.toNat < 0x80 → 16 ≤ s.work.row.toNat → step s = .next { s with pc := s.pc + 1 }) ∧
    (text[s.pc]? = none → s.work.esc = false → step s = .next { s with pc := s.pc + 1, phase := .send 0 }) ∧
    (text[s.pc]? = none → s.work.esc = true →
      ∃ t, exec .bslash s = .next t ∧ step s = .next { t with pc := s.pc + 1, phase := .send 0 }) ∧
    (∀ b, text[s.pc]? = some b → 0x80 ≤ b.toNat → step s = exec (.invalid (b.setWidth 7)) s)

/-- 10 R22, R23, R24, 70 R177: an idle block accepts the next request offered, with BUSY = 1 and `pc` = 0, and with none
offered stays as it is; a busy one takes none. -/
def Obligations.RequestsAreAcceptedOnlyWhileIdle : Prop :=
  ∀ s : State, s.resetIn = .off →
    (s.busy = false → s.requests = [] → step s = .next s) ∧
    (∀ r rest, s.busy = false → s.requests = r :: rest →
      step s = .next { s with busy := true, pc := 0, phase := .start, req := r, requests := rest }) ∧
    (∀ t, s.busy = true → step s = .next t → t.requests = s.requests ∧ t.req = s.req)

/-- 70 R175, R178, 10 R40: a reset of the block puts every block register in its reset value and leaves the device
alone, from any state; and the state after reset has those values. That the requests offered stay offered and that the
reset input is off afterwards is the model's choice (log 14). -/
def Obligations.ResetPutsEveryRegisterInItsResetValue : Prop :=
  (∀ s : State, s.resetIn = .between → ∃ t, step s = .next t ∧
    t = { s with busy := false, err := 0, pc := 0, resetIn := .off, req := t.req, phase := t.phase, work := t.work } ∧
    t.work = { row := 0, col := 0, inv := false, esc := false, fb := Vector.replicate 640 0,
               grid := Vector.replicate 640 0, faddr := 0, fend := 0, foff := 0, doneBytes := 0, lastsr := 0,
               rbuf := [] }) ∧
  (State.reset.busy = false ∧ State.reset.err = 0 ∧ State.reset.pc = 0 ∧
    State.reset.work = { row := 0, col := 0, inv := false, esc := false, fb := Vector.replicate 640 0,
                         grid := Vector.replicate 640 0, faddr := 0, fend := 0, foff := 0, doneBytes := 0, lastsr := 0,
                         rbuf := [] })

/-- 70 R176: a reset while a transaction is in flight ends the operation without a result, sends nothing after that
transaction, and leaves the block reset; at most one frame has gone out. -/
def Obligations.ResetInFlightEndsWithoutAResult : Prop :=
  ∀ s : State, s.resetIn = .during → ∃ t, step s = .next t ∧ t.busy = false ∧ t.err = 0 ∧ t.pc = 0 ∧
    t.work = Work.zero ∧ t.resetIn = .off ∧ t.results = s.results ∧ t.events = s.events ∧
    ∃ l : List Xact, l.length ≤ 1 ∧ t.bus = s.bus ++ l

/-! ## OSD tokens -/

/-- 40 R100, R101, R102, R106: the markers set and clear INV, produce no cell and take no column; NEWLINE starts the
next row with COL and INV zero. -/
def Obligations.MarkersAndNewlineProduceNoCell : Prop :=
  ∀ s : State, s.work.row.toNat < 16 →
    exec .invOn s = .next { s with work := { s.work with esc := false, inv := true } } ∧
    exec .invOff s = .next { s with work := { s.work with esc := false, inv := false } } ∧
    ∃ t, exec .newline s = .next t ∧
      t = { s with work := { s.work with row := t.work.row, col := 0, inv := false } } ∧
      t.work.row.toNat = s.work.row.toNat + 1

/-- 40 R103, R104, R108, R105: CHAR, PAD and BSLASH put one cell at (ROW, COL) and take one column; every other cell is
unchanged. -/
def Obligations.CharacterTokensPutOneCell : Prop :=
  ∀ (s : State), s.work.row.toNat < 16 → s.work.col.toNat < 40 →
    ∀ (i : Instr) (b : Byte) (esc : Bool),
      ((∃ x : BitVec 7, i = .char x ∧ b.toNat = x.toNat ∧ esc = s.work.esc) ∨ (i = .pad ∧ b = 0 ∧ esc = s.work.esc) ∨
        (i = .bslash ∧ b = 0x5C ∧ esc = false)) →
      ∃ t, exec i s = .next t ∧
        t = { s with work := { s.work with esc := esc, fb := t.work.fb, col := t.work.col } } ∧
        t.work.col.toNat = s.work.col.toNat + 1 ∧
        t.work.fb.toList[40 * s.work.row.toNat + s.work.col.toNat]? = some (if s.work.inv then b + 0x80 else b) ∧
        ∀ k, k ≠ 40 * s.work.row.toNat + s.work.col.toNat → t.work.fb.toList[k]? = s.work.fb.toList[k]?

/-- 40 R109, R97: past column 40 a cell is dropped, and in a discarded row no token has any effect. -/
def Obligations.ClippedAndDiscardedTokensChangeNoCell : Prop :=
  (∀ (s : State) (x : BitVec 7), s.work.row.toNat < 16 → 40 ≤ s.work.col.toNat →
    exec (.char x) s = .next s ∧ exec .pad s = .next s ∧
    exec .bslash s = .next { s with work := { s.work with esc := false } }) ∧
  (∀ (s : State) (i : Instr), 16 ≤ s.work.row.toNat →
    ((∃ x, i = .char x) ∨ i ∈ ([.invOn, .invOff, .newline, .pad, .bslash] : List Instr)) → exec i s = .next s)

/-- 40 R95, 60 R157, R160: a byte 0x80..0xFF ends the operation with InvalidCharacter and no transaction. The working
registers are free (60 R160; log 9). -/
def Obligations.InvalidByteEndsTheWrite : Prop :=
  ∀ (s : State) (x : BitVec 7) (b : Byte), b.toNat = 0x80 + x.toNat →
    EndsAs (exec (.invalid x) s) { s with
      busy := false, err := 4, results := s.results ++ [⟨4, [], .invalidCharacter s.pc b⟩],
      work := Config.freeWork s.draws, draws := s.draws + 1 }

/-- 40 R105: the inverse addition, which fits a byte and equals the bitwise or on the input alphabet. -/
def Obligations.InverseAdditionFitsAByte : Prop :=
  ∀ b : Byte, b.toNat < 0x80 →
    (cellOf true b).toNat = b.toNat + 0x80 ∧ cellOf true b = b ||| 0x80 ∧ cellOf false b = b

/-! ## osd.write -/

/-- 40 R107, R99, R95 to R110: on a text without a byte 0x80..0xFF the streaming parser ends with the frame the
whole-text form gives, nothing having been sent. -/
def Obligations.StreamingParserRendersTheWholeText : Prop :=
  ∀ (text : List Byte) (s : State), s.accepted (.osdWrite text) → (∀ b ∈ text, b.toNat < 0x80) →
    ∃ t, runSteps (text.length + 1) s = .next t ∧ t.work.fb.toList = frameOf text ∧ t.phase = .send 0 ∧
      t.busy = true ∧ t.results = s.results ∧ t.events = s.events ∧ NoTraffic s t ∧ SameDevice s t ∧ SameInterface s t

/-- 40 R95: a text with a byte 0x80..0xFF ends with InvalidCharacter at the least such index, wherever that byte stands,
nothing having been sent. -/
def Obligations.LeastInvalidIndexIsReported : Prop :=
  ∀ (text : List Byte) (s : State) (j : Nat) (b : Byte), s.accepted (.osdWrite text) →
    text[j]? = some b → 0x80 ≤ b.toNat → (∀ k c, k < j → text[k]? = some c → c.toNat < 0x80) →
    ∃ t, runSteps (j + 1) s = .next t ∧ t.busy = false ∧ t.err = 4 ∧
      t.results = s.results ++ [⟨4, [], .invalidCharacter j b⟩] ∧ t.events = s.events ∧ NoTraffic s t ∧
      SameDevice s t ∧ SameInterface s t

/-- 40 R111, R112, 10 R34: in row mode row `r` goes to device address `DISPLAY_BASE + 40*r`, in frame mode all 640 bytes
go to DISPLAY_BASE, 0 by default (30 R90); on success the device holds them there, no other address changes, and the next
row or the return follows. -/
def Obligations.SendStepWritesTheFrame : Prop :=
  Config.defaults.geo.displayBase = 0 ∧
  ∀ (text : List Byte) (s : State) (r : Nat) (bs : List Byte) (base : Nat), s.cfg.wf = true →
    s.cfg.geo.displayBase = base → s.phase = .send r →
    (∀ x, x = .write (be16 (base + 40 * r) ++ (s.work.fb.toList.drop (40 * r)).take 40) →
      s.cfg.osdWriteMode = .rows → r < 16 → s.answers x bs →
      ∃ t, exec (.osdWrite text) s = .next t ∧
        t = { s with bus := s.bus ++ [x], replies := s.replies.tail, draws := s.draws + 1, devMem := t.devMem,
                     busy := t.busy, err := t.err, results := t.results, phase := t.phase, pc := t.pc } ∧
        (r < 15 → t.busy = s.busy ∧ t.err = s.err ∧ t.results = s.results ∧ t.phase = .send (r + 1) ∧
          t.pc = s.pc + 1) ∧
        (r = 15 → t.busy = false ∧ t.err = 0 ∧ t.results = s.results ++ [⟨0, [], .success⟩]) ∧
        (∀ k, k < 40 → t.devMem.lookup (base + 40 * r + k) = s.work.fb.toList[40 * r + k]?) ∧
        (∀ a, a < base + 40 * r ∨ base + 40 * r + 40 ≤ a → t.devMem.lookup a = s.devMem.lookup a)) ∧
    (∀ x, x = .write (be16 base ++ s.work.fb.toList) → s.cfg.osdWriteMode = .frame → s.answers x bs →
      ∃ t, exec (.osdWrite text) s = .next t ∧
        t = { s with bus := s.bus ++ [x], replies := s.replies.tail, draws := s.draws + 1, devMem := t.devMem,
                     busy := false, err := 0, results := s.results ++ [⟨0, [], .success⟩], pc := t.pc } ∧
        (∀ k, k < 640 → t.devMem.lookup (base + k) = s.work.fb.toList[k]?) ∧
        (∀ a, a < base ∨ base + 640 ≤ a → t.devMem.lookup a = s.devMem.lookup a))

/-- 40 R116, R111, R112: with every transaction succeeding, by whatever replies, both modes end with success and leave
the frame in DISP, which stands at DISPLAY_BASE. -/
def Obligations.BothModesLeaveTheFrameInDisplay : Prop :=
  ∀ (text : List Byte) (s : State) (rs rest : List Reply) (base : Nat), s.cfg.wf = true → s.cfg.geo.displayBase = base →
    s.resetIn = .off → s.busy = true → s.phase = .send 0 → s.current = .ok (.osdWrite text) →
    (s.cfg.osdWriteMode = .rows ∧ rs.length = 16 ∨ s.cfg.osdWriteMode = .frame ∧ rs.length = 1) →
    s.replies = rs ++ rest → (∀ r ∈ rs, r.noError) →
    ∃ t, runSteps rs.length s = .next t ∧ t.busy = false ∧ t.err = 0 ∧ t.results = s.results ++ [⟨0, [], .success⟩] ∧
      (∃ l : List Xact, l.length = rs.length ∧ t.bus = s.bus ++ l) ∧ t.replies = rest ∧
      (∀ a, a < 640 → t.devMem.lookup (base + a) = s.work.fb.toList[a]?) ∧
      (∀ a, a < base ∨ base + 640 ≤ a → t.devMem.lookup a = s.devMem.lookup a) ∧ t.flash = s.flash ∧ t.sr = s.sr

/-! ## osd.read and osd.dump -/

/-- 40 R113, R114: a frame of 640 bytes is returned as its printable grid; another length is a LayoutError. Nothing is
sent. After the error the working registers are free (60 R160; log 9). -/
def Obligations.OsdReadReturnsThePrintableGrid : Prop :=
  ∀ (frame : List Byte) (s : State),
    (frame.length = 640 → ∃ t, exec (.osdRead frame) s = .next t ∧
      t = { s with busy := false, err := 0, work := { s.work with grid := t.work.grid }, pc := t.pc,
                   results := s.results ++ [⟨0, frame.map (printable s.cfg), .success⟩] } ∧
      t.work.grid.toList = frame.map (printable s.cfg)) ∧
    (frame.length ≠ 640 → EndsAs (exec (.osdRead frame) s) { s with
      busy := false, err := 3, results := s.results ++ [⟨3, [], .layoutError 640 frame.length⟩],
      work := Config.freeWork s.draws, draws := s.draws + 1 })

/-- 40 R114: the printable map; the grid of a frame holds each cell's printable byte at the cell's own place. -/
def Obligations.PrintableMapsOtherBytesToThePlaceholder : Prop :=
  (∀ (c : Config) (b : Byte),
    (0x20 ≤ b.toNat → b.toNat ≤ 0x7E → printable c b = b) ∧
    (b.toNat < 0x20 ∨ 0x7E < b.toNat → printable c b = c.placeholder)) ∧
  Config.defaults.placeholder = 0x2E ∧
  ∀ (c : Config) (frame : List Byte), frame.length = 640 →
    ∀ k : Nat, (gridOf c frame).toList[k]? = frame[k]?.map (printable c)

/-- 40 R115: the Display is read with one exchange, of `00 00` by default, and the answer's grid is returned; the Display
is unchanged (20 R59). -/
def Obligations.OsdDumpReturnsTheGridOfTheAnswer : Prop :=
  be16 Config.defaults.geo.displayBase = [0x00, 0x00] ∧
  ∀ (s : State) (x : Xact) (bs : List Byte), s.cfg.wf = true → x = .exchange (be16 s.cfg.geo.displayBase) 640 →
    s.answers x bs →
    ∃ t, exec .osdDump s = .next t ∧ bs.length = 640 ∧
      t = { s with busy := false, err := 0, bus := s.bus ++ [x], replies := s.replies.tail, pc := t.pc,
                   draws := s.draws + 1, results := s.results ++ [⟨0, bs.map (printable s.cfg), .success⟩],
                   work := { s.work with grid := t.work.grid } } ∧
      t.work.grid.toList = bs.map (printable s.cfg)

/-- 20 R60, 10 R34: when the device answers out of its own state (log 4), a dump returns the grid of the bytes the
Display writes left. -/
def Obligations.DumpAfterWriteReturnsTheFrame : Prop :=
  ∀ (s : State) (frame : List Byte), s.cfg.wf = true → frame.length = 640 →
    (∀ k, k < 640 → s.devMem.lookup (s.cfg.geo.displayBase + k) = frame[k]?) → s.nextReply = .own →
    ∃ t, exec .osdDump s = .next t ∧ t.busy = false ∧ t.err = 0 ∧
      t.results = s.results ++ [⟨0, frame.map (printable s.cfg), .success⟩] ∧ SameDevice s t

/-! ## Flash primitives -/

/-- 41 R126: `flash.wren` sends `70 00 06` and returns. The status register afterwards is free (log 8). -/
def Obligations.WrenSendsItsFrame : Prop :=
  wrenXact Config.defaults = .write [0x70, 0x00, 0x06] ∧
  ∀ (s : State) (bs : List Byte), s.cfg.wf = true → s.answers (wrenXact s.cfg) bs →
    EndsAs (exec .flashWren s) { s with
      busy := false, err := 0, results := s.results ++ [⟨0, [], .success⟩],
      bus := s.bus ++ [wrenXact s.cfg], replies := s.replies.tail, draws := s.draws + 1, sr := Config.freeSr s.draws }

/-- 41 R127: `flash.rdsr` sends `70 00 05`, keeps the byte answered in LASTSR and returns it (log 8 as above). -/
def Obligations.RdsrKeepsAndReturnsTheStatus : Prop :=
  rdsrXact Config.defaults = .exchange [0x70, 0x00, 0x05] 1 ∧
  ∀ (s : State) (b : Byte), s.cfg.wf = true → s.answers (rdsrXact s.cfg) [b] →
    EndsAs (exec .flashRdsr s) { s with
      busy := false, err := 0, results := s.results ++ [⟨0, [b], .success⟩], work := { s.work with lastsr := b },
      bus := s.bus ++ [rdsrXact s.cfg], replies := s.replies.tail, draws := s.draws + 1, sr := Config.freeSr s.draws }

/-- 41 R128, R125, 10 R24: inside the flash `flash.read` passes its two checks, one a step, then sends its frame and
returns the bytes answered, exactly `n` of them (20 R54; log 8 as above). -/
def Obligations.FlashReadReturnsTheAnswer : Prop :=
  readXact Config.defaults 0x0ABCDE 4 = .exchange [0x70, 0x00, 0x03, 0x0A, 0xBC, 0xDE] 4 ∧
  ∀ (s : State) (a n : Nat), s.cfg.wf = true → 1 ≤ n → a + n ≤ s.cfg.geo.flashSize →
    (∀ k, k < 2 → s.phase = checkPhase k →
      exec (.flashRead a n) s = .next { s with phase := .checked (k + 1), pc := s.pc + 1 }) ∧
    (∀ bs, s.phase = .checked 2 → s.answers (readXact s.cfg a n) bs →
      bs.length = n ∧ EndsAs (exec (.flashRead a n) s) { s with
        busy := false, err := 0, results := s.results ++ [⟨0, bs, .success⟩], bus := s.bus ++ [readXact s.cfg a n],
        replies := s.replies.tail, draws := s.draws + 1, sr := Config.freeSr s.draws })

/-- 41 R124: an empty read is refused before any byte, at any address; no register but ERR changes (R125). -/
def Obligations.EmptyReadIsRefused : Prop :=
  ∀ (s : State) (a : Nat), s.phase = .start → EndsAs (exec (.flashRead a 0) s) { s with
    busy := false, err := 6, results := s.results ++ [⟨6, [], .invalidRegion (.emptyRead a 0)⟩] }

/-- 41 R129, R125, R138, 10 R24: an allowed `flash.pp` passes its three checks, one a step, then sends exactly its one
frame and returns. The flash outside its page is unchanged (log 6); what the device makes of the page (log 6) and of SR
(log 8) is free. -/
def Obligations.PageProgramSendsOneFrame : Prop :=
  ppXact Config.defaults 0x080000 [0x11, 0x22] = .write [0x70, 0x00, 0x02, 0x08, 0x00, 0x00, 0x11, 0x22] ∧
  ∀ (s : State) (g : Geometry) (a : Nat) (p : List Byte), s.cfg.wf = true → s.cfg.geo = g → 1 ≤ p.length →
    a % g.page + p.length ≤ g.page → g.upgStart ≤ a → a + p.length ≤ g.upgLast + 1 →
    (∀ k, k < 3 → s.phase = checkPhase k →
      exec (.flashPp a p) s = .next { s with phase := .checked (k + 1), pc := s.pc + 1 }) ∧
    (∀ bs, s.phase = .checked 3 → s.answers (ppXact s.cfg a p) bs →
      ∃ t, exec (.flashPp a p) s = .next t ∧
        t = { s with busy := false, err := 0, results := s.results ++ [⟨0, [], .success⟩], pc := t.pc,
                     bus := s.bus ++ [ppXact s.cfg a p], replies := s.replies.tail, draws := s.draws + 1,
                     sr := t.sr, flash := t.flash } ∧
        (∀ x, x < pageBase g a ∨ pageBase g a + g.page ≤ x → t.flash.lookup x = s.flash.lookup x))

/-- 41 R121, R122, R123, R125, R130, 10 R24: which accepted `flash.read`, `flash.pp` and `flash.se` is refused, and by
which check first, whatever the size of the address: the checks before it pass, one a step, nothing is sent and no
register but ERR changes. -/
def Obligations.FlashCommandRefusals : Prop :=
  ∀ (s : State) (g : Geometry) (i : Instr) (a k : Nat) (e : RegionErr), s.cfg.wf = true → s.cfg.geo = g →
    s.accepted i →
    ((∃ n, i = .flashRead a n ∧
        ((n = 0 ∧ k = 1 ∧ e = .emptyRead a 0) ∨
          (1 ≤ n ∧ g.flashSize < a + n ∧ k = 2 ∧ e = .size a (some n) g.flashSize))) ∨
      (∃ p : List Byte, i = .flashPp a p ∧
        (((p.length < 1 ∨ g.page < a % g.page + p.length) ∧ k = 1 ∧ e = .page a p.length g.page) ∨
          (1 ≤ p.length ∧ a % g.page + p.length ≤ g.page ∧ g.flashSize < a + p.length ∧ k = 2 ∧
            e = .size a (some p.length) g.flashSize) ∨
          (1 ≤ p.length ∧ a % g.page + p.length ≤ g.page ∧ a + p.length ≤ g.flashSize ∧
            (a < g.upgStart ∨ g.upgLast < a + p.length - 1) ∧ k = 3 ∧
            e = .upgrade a (some p.length) g.upgStart g.upgLast))) ∨
      (i = .flashSe a ∧
        ((g.flashSize ≤ a ∧ k = 1 ∧ e = .size a none g.flashSize) ∨
          (a < g.flashSize ∧ (a < g.upgStart ∨ g.upgLast < a) ∧ k = 2 ∧
            e = .upgrade a none g.upgStart g.upgLast)))) →
    ∃ t, runSteps k s = .next t ∧
      t = { s with busy := false, err := 6, results := s.results ++ [⟨6, [], .invalidRegion e⟩], pc := t.pc,
                   phase := t.phase }

/-- 41 R130, R125, R138, 10 R24: an allowed `flash.se` passes its two checks, one a step, then sends exactly its one
frame and returns. The flash outside the sector that holds the address is unchanged (log 6); the sector (log 6) and SR
(log 8) are free. -/
def Obligations.SectorEraseSendsOneFrame : Prop :=
  seXact Config.defaults 0x090000 = .write [0x70, 0x00, 0xD8, 0x09, 0x00, 0x00] ∧
  ∀ (s : State) (g : Geometry) (a : Nat), s.cfg.wf = true → s.cfg.geo = g → g.upgStart ≤ a → a ≤ g.upgLast →
    (∀ k, k < 2 → s.phase = checkPhase k →
      exec (.flashSe a) s = .next { s with phase := .checked (k + 1), pc := s.pc + 1 }) ∧
    (∀ bs, s.phase = .checked 2 → s.answers (seXact s.cfg a) bs →
      ∃ t, exec (.flashSe a) s = .next t ∧
        t = { s with busy := false, err := 0, results := s.results ++ [⟨0, [], .success⟩], pc := t.pc,
                     bus := s.bus ++ [seXact s.cfg a], replies := s.replies.tail, draws := s.draws + 1,
                     sr := t.sr, flash := t.flash } ∧
        (∀ x, x < sectorBase g a ∨ sectorBase g a + g.sector ≤ x → t.flash.lookup x = s.flash.lookup x))

/-- 41 R131: a request with the bulk-erase opcode is `flash.be` under every configuration, those that give another
command the same opcode included (log 23), and `flash.be` always ends with ForbiddenOpcode, before any byte; no register
but ERR changes (R125). -/
def Obligations.BulkEraseIsAlwaysForbidden : Prop :=
  (∀ (c : Config) (r : Request), r.sel = 0x10 → r.spiop = c.opBe → decodeRequest c r = .ok .flashBe) ∧
  ∀ s : State, EndsAs (exec .flashBe s) { s with
    busy := false, err := 2, results := s.results ++ [⟨2, [], .forbiddenOpcode s.cfg.opBe⟩] }

/-- 41 R132: a request of selector 0x10 with any other SPI opcode is `flash.cmd`, which always ends with InvalidOpcode,
before any byte; no register but ERR changes (R125). -/
def Obligations.OtherSpiOpcodesAreRefused : Prop :=
  (∀ (c : Config) (r : Request), r.sel = 0x10 →
    r.spiop ∉ [c.opWren, c.opRdsr, c.opRead, c.opPp, c.opSe, c.opBe] → decodeRequest c r = .ok (.flashCmd r.spiop)) ∧
  ∀ (s : State) (op : Byte), EndsAs (exec (.flashCmd op) s) { s with
    busy := false, err := 1, results := s.results ++ [⟨1, [], .invalidOpcode 0x10 op⟩] }

/-- 41 R133: one poll of `flash.wait`; with WIP clear it returns the status byte, with WIP set it polls again (SR: log 8). -/
def Obligations.WaitPollsUntilWipIsClear : Prop :=
  ∀ (s : State) (b : Byte), s.cfg.wf = true → s.answers (rdsrXact s.cfg) [b] →
    (b &&& s.cfg.wipMask = 0 → EndsAs (exec .flashWait s) { s with
      busy := false, err := 0, results := s.results ++ [⟨0, [b], .success⟩], work := { s.work with lastsr := b },
      bus := s.bus ++ [rdsrXact s.cfg], replies := s.replies.tail, draws := s.draws + 1,
      sr := Config.freeSr s.draws }) ∧
    (b &&& s.cfg.wipMask ≠ 0 → exec .flashWait s = .next { s with
      pc := s.pc + 1, work := { s.work with lastsr := b }, bus := s.bus ++ [rdsrXact s.cfg],
      replies := s.replies.tail, draws := s.draws + 1, sr := Config.freeSr s.draws })

/-- 41 R133, 60 R165: while every answer has WIP = 1, `flash.wait` polls and never returns a result. -/
def Obligations.WaitHasNoResultWhileWipIsSet : Prop :=
  ∀ (k : Nat) (s : State) (bs : List Byte) (rest : List Reply), s.cfg.wf = true → s.resetIn = .off → s.busy = true →
    s.current = .ok .flashWait → (∀ b ∈ bs, b &&& s.cfg.wipMask ≠ 0) → bs.length = k →
    s.replies = bs.map (fun b => .bytes [b]) ++ rest →
    ∃ t, runSteps k s = .next t ∧ t.busy = true ∧ t.results = s.results ∧ t.pc = s.pc + k ∧ t.replies = rest ∧
      t.bus = s.bus ++ List.replicate k (rdsrXact s.cfg)

/-! ## Flash sequences -/

/-- 42 R140, R141, 10 R24: the check of `flash.erase`, a step of its own that sends nothing. An erase outside the region
or from an unaligned start is refused; an empty range succeeds; any other sets FADDR, FEND and DONE and goes on to the
first write-enable. FADDR in the empty case is log 12 where the start does not fit it; after the error the working
registers are free (60 R160; log 9). That a check that passes sets the registers in its own step is log 1. -/
def Obligations.EraseChecksItsRangeFirst : Prop :=
  ∀ (s : State) (g : Geometry) (start stop : Nat), s.cfg.geo = g → s.phase = .start →
    (start % g.sector ≠ 0 ∨ start < g.upgStart ∨ g.upgLast + 1 < stop →
      EndsAs (exec (.flashErase start stop) s) { s with
        busy := false, err := 6, results := s.results ++ [⟨6, [], .invalidRegion (.eraseRange start stop)⟩],
        work := Config.freeWork s.draws, draws := s.draws + 1 }) ∧
    (start % g.sector = 0 → g.upgStart ≤ start → stop ≤ g.upgLast + 1 → stop ≤ start →
      EndsAs (exec (.flashErase start stop) s) { s with
        busy := false, err := 0, results := s.results ++ [⟨0, [], .success⟩],
        work := { s.work with faddr := startReg start, fend := BitVec.ofNat 25 stop, doneBytes := 0 } }) ∧
    (s.cfg.wf = true → start % g.sector = 0 → g.upgStart ≤ start → start < stop → stop ≤ g.upgLast + 1 →
      exec (.flashErase start stop) s = .next { s with
        phase := .eraseWren, pc := s.pc + 1,
        work := { s.work with faddr := BitVec.ofNat 24 start, fend := BitVec.ofNat 25 stop, doneBytes := 0 } })

/-- 42 R142: an erase step sends the write-enable, then the sector erase of the sector at FADDR, then polls (SR is free:
log 8; the bytes of the sector are free and the others unchanged: log 6). -/
def Obligations.EraseStepSendsItsFrames : Prop :=
  ∀ (s : State) (start stop : Nat) (bs : List Byte), s.cfg.wf = true →
    (s.phase = .eraseWren → s.answers (wrenXact s.cfg) bs →
      exec (.flashErase start stop) s = .next { s with
        phase := .eraseSector, pc := s.pc + 1, bus := s.bus ++ [wrenXact s.cfg], replies := s.replies.tail,
        draws := s.draws + 1, sr := Config.freeSr s.draws }) ∧
    (∀ a, a = s.work.faddr.toNat → s.phase = .eraseSector → a < s.cfg.geo.flashSize → s.answers (seXact s.cfg a) bs →
      ∃ t, exec (.flashErase start stop) s = .next t ∧
        t = { s with phase := .erasePoll, pc := s.pc + 1, bus := s.bus ++ [seXact s.cfg a],
                     replies := s.replies.tail, draws := s.draws + 1, sr := t.sr, flash := t.flash } ∧
        (∀ x, x < sectorBase s.cfg.geo a ∨ sectorBase s.cfg.geo a + s.cfg.geo.sector ≤ x →
          t.flash.lookup x = s.flash.lookup x))

/-- 42 R141, R142, R151: a poll of an erase step. With WIP set it polls again; with WIP clear DONE and FADDR move on by
one sector and the loop goes on while FADDR < FEND, else the operation returns (SR: log 8). -/
def Obligations.ErasePollMovesToTheNextSector : Prop :=
  ∀ (s : State) (g : Geometry) (start stop : Nat) (b : Byte), s.cfg.wf = true → s.cfg.geo = g → s.phase = .erasePoll →
    s.work.faddr.toNat + g.sector < 0x1000000 → s.work.doneBytes.toNat + g.sector < 0x100000 →
    s.answers (rdsrXact s.cfg) [b] →
    ∃ t, exec (.flashErase start stop) s = .next t ∧
      t = { s with bus := s.bus ++ [rdsrXact s.cfg], replies := s.replies.tail,
                   draws := s.draws + 1, sr := Config.freeSr s.draws, pc := t.pc, phase := t.phase, busy := t.busy,
                   err := t.err, results := t.results, events := t.events,
                   work := { s.work with lastsr := b, faddr := t.work.faddr, doneBytes := t.work.doneBytes } } ∧
      (b &&& s.cfg.wipMask ≠ 0 → t.phase = .erasePoll ∧ t.pc = s.pc + 1 ∧ t.busy = s.busy ∧ t.err = s.err ∧
        t.results = s.results ∧ t.events = s.events ∧ t.work.faddr = s.work.faddr ∧
        t.work.doneBytes = s.work.doneBytes) ∧
      (b &&& s.cfg.wipMask = 0 → t.work.faddr.toNat = s.work.faddr.toNat + g.sector ∧
        t.work.doneBytes.toNat = s.work.doneBytes.toNat + g.sector ∧
        t.events = s.events ++ (if s.work.doneBytes.toNat / g.eraseProgress <
            (s.work.doneBytes.toNat + g.sector) / g.eraseProgress then
          [⟨.erase, s.work.doneBytes.toNat + g.sector⟩] else []) ∧
        (s.work.faddr.toNat + g.sector < s.work.fend.toNat →
          t.phase = .eraseWren ∧ t.pc = s.pc + 1 ∧ t.busy = s.busy ∧ t.err = s.err ∧ t.results = s.results) ∧
        (s.work.fend.toNat ≤ s.work.faddr.toNat + g.sector →
          t.busy = false ∧ t.err = 0 ∧ t.results = s.results ++ [⟨0, [], .success⟩]))

/-- 42 R141, R142, R143, R154: an accepted erase of a non-empty range, every step of which succeeds after any number of
polls with WIP = 1, sends exactly the frames of its `ceil((E - S) / SECTOR)` sectors in order, `2k + sum p_i` of them,
with their events, and succeeds. The one step before the first frame is the check (log 1). The flash outside those
sectors is unchanged (log 6). -/
def Obligations.EraseSendsExactlyItsTrace : Prop :=
  ∀ (s : State) (g : Geometry) (start stop : Nat) (xs : List StepReplies) (rest : List Reply), s.cfg.wf = true →
    s.cfg.geo = g → s.accepted (.flashErase start stop) → start % g.sector = 0 → g.upgStart ≤ start → start < stop →
    stop ≤ g.upgLast + 1 → xs.length = (stop - start + (g.sector - 1)) / g.sector → (∀ x ∈ xs, x.Succeeds s.cfg) →
    s.replies = xs.flatMap StepReplies.list ++ rest →
    ∃ t, runSteps (1 + (xs.flatMap StepReplies.list).length) s = .next t ∧ t.busy = false ∧ t.err = 0 ∧
      t.results = s.results ++ [⟨0, [], .success⟩] ∧ t.bus = s.bus ++ eraseTrace s.cfg start xs ∧
      (eraseTrace s.cfg start xs).length = 2 * xs.length + (xs.map StepReplies.polls).sum ∧
      t.events = s.events ++ (List.range xs.length).flatMap (fun j =>
        if g.sector * j / g.eraseProgress < g.sector * (j + 1) / g.eraseProgress then
          [⟨.erase, g.sector * (j + 1)⟩] else []) ∧
      t.replies = rest ∧ t.devMem = s.devMem ∧
      (∀ x, x < start ∨ start + g.sector * xs.length ≤ x → t.flash.lookup x = s.flash.lookup x)

/-- 42 R140, R144, 10 R24: the check of `flash.write`, a step of its own that sends nothing. Data outside the region is
refused; empty data succeeds; any other sets FADDR, FEND, FOFF and DONE and goes on to the first write-enable. After the
error the working registers are free (60 R160; log 9). That a check that passes sets the registers in its own step is
log 1. -/
def Obligations.WriteChecksItsRangeFirst : Prop :=
  ∀ (s : State) (g : Geometry) (start : Nat) (data : List Byte), s.cfg.geo = g → s.phase = .start →
    ∀ w : Work, w = { s.work with
      faddr := BitVec.ofNat 24 start, fend := BitVec.ofNat 25 (start + data.length), foff := 0, doneBytes := 0 } →
    (start < g.upgStart ∨ g.upgLast + 1 < start + data.length → EndsAs (exec (.flashWrite start data) s) { s with
      busy := false, err := 6, results := s.results ++ [⟨6, [], .invalidRegion (.writeRange start data.length)⟩],
      work := Config.freeWork s.draws, draws := s.draws + 1 }) ∧
    (g.upgStart ≤ start → start ≤ g.upgLast + 1 → data = [] → EndsAs (exec (.flashWrite start data) s) { s with
      busy := false, err := 0, results := s.results ++ [⟨0, [], .success⟩], work := w }) ∧
    (g.upgStart ≤ start → start + data.length ≤ g.upgLast + 1 → data ≠ [] →
      exec (.flashWrite start data) s = .next { s with phase := .progWren, pc := s.pc + 1, work := w })

/-- 42 R145, R146: a program step sends the write-enable, then the page program of the chunk at FADDR, then polls (SR is
free: log 8; the bytes of the page are free and the others unchanged: log 6). -/
def Obligations.ProgramStepSendsItsFrames : Prop :=
  ∀ (s : State) (g : Geometry) (start : Nat) (data bs : List Byte), s.cfg.wf = true → s.cfg.geo = g →
    (s.phase = .progWren → s.answers (wrenXact s.cfg) bs →
      exec (.flashWrite start data) s = .next { s with
        phase := .progPage, pc := s.pc + 1, bus := s.bus ++ [wrenXact s.cfg], replies := s.replies.tail,
        draws := s.draws + 1, sr := Config.freeSr s.draws }) ∧
    (s.phase = .progPage → ∀ a m x, a = s.work.faddr.toNat →
      m = min (g.page - a % g.page) (data.length - s.work.foff.toNat) →
      x = ppXact s.cfg a ((data.drop s.work.foff.toNat).take m) →
      a + m ≤ g.flashSize → s.work.foff.toNat < data.length → s.answers x bs →
      ∃ t, exec (.flashWrite start data) s = .next t ∧
        t = { s with phase := .progPoll, pc := s.pc + 1, bus := s.bus ++ [x], replies := s.replies.tail,
                     draws := s.draws + 1, sr := t.sr, flash := t.flash } ∧
        (∀ y, y < pageBase g a ∨ pageBase g a + g.page ≤ y → t.flash.lookup y = s.flash.lookup y))

/-- 42 R144, R145, R146, R151: a poll of a program step. With WIP clear DONE, FADDR and FOFF move on by the chunk and the
loop goes on while FOFF < len(D), else the operation returns (SR: log 8). -/
def Obligations.ProgramPollMovesToTheNextChunk : Prop :=
  ∀ (s : State) (g : Geometry) (start : Nat) (data : List Byte) (b : Byte) (m : Nat), s.cfg.wf = true →
    s.cfg.geo = g → s.phase = .progPoll → ProgInv g data.length s.work → s.work.doneBytes = s.work.foff →
    m = min (g.page - s.work.faddr.toNat % g.page) (data.length - s.work.foff.toNat) →
    s.answers (rdsrXact s.cfg) [b] →
    ∃ t, exec (.flashWrite start data) s = .next t ∧
      t = { s with bus := s.bus ++ [rdsrXact s.cfg], replies := s.replies.tail,
                   draws := s.draws + 1, sr := Config.freeSr s.draws, pc := t.pc, phase := t.phase, busy := t.busy,
                   err := t.err, results := t.results, events := t.events,
                   work := { s.work with lastsr := b, faddr := t.work.faddr, foff := t.work.foff,
                                         doneBytes := t.work.doneBytes } } ∧
      (b &&& s.cfg.wipMask ≠ 0 → t.phase = .progPoll ∧ t.pc = s.pc + 1 ∧ t.busy = s.busy ∧ t.err = s.err ∧
        t.results = s.results ∧ t.events = s.events ∧ t.work.faddr = s.work.faddr ∧ t.work.foff = s.work.foff ∧
        t.work.doneBytes = s.work.doneBytes) ∧
      (b &&& s.cfg.wipMask = 0 → t.work.faddr.toNat = s.work.faddr.toNat + m ∧
        t.work.foff.toNat = s.work.foff.toNat + m ∧ t.work.doneBytes = t.work.foff ∧
        t.events = s.events ++ (if s.work.foff.toNat / g.progProgress < (s.work.foff.toNat + m) / g.progProgress then
          [⟨.program, s.work.foff.toNat + m⟩] else []) ∧
        (s.work.foff.toNat + m < data.length →
          t.phase = .progWren ∧ t.pc = s.pc + 1 ∧ t.busy = s.busy ∧ t.err = s.err ∧ t.results = s.results) ∧
        (data.length ≤ s.work.foff.toNat + m →
          t.busy = false ∧ t.err = 0 ∧ t.results = s.results ++ [⟨0, [], .success⟩]))

/-- 42 R144, R145, R146, R154: an accepted write of non-empty data, every step of which succeeds after any number of
polls with WIP = 1, sends exactly the frames of its page chunks in order, `2c + sum p_i` of them, and succeeds. The one
step before the first frame is the check (log 1). The flash below the upgrade region is unchanged (log 6). -/
def Obligations.WriteSendsExactlyItsTrace : Prop :=
  ∀ (s : State) (g : Geometry) (start : Nat) (data : List Byte) (chunks : List (Nat × List Byte))
    (xs : List StepReplies) (rest : List Reply), s.cfg.wf = true → s.cfg.geo = g →
    s.accepted (.flashWrite start data) → g.upgStart ≤ start → start + data.length ≤ g.upgLast + 1 → data ≠ [] →
    chunks = chunksOf g data.length start data → xs.length = chunks.length → (∀ x ∈ xs, x.Succeeds s.cfg) →
    s.replies = xs.flatMap StepReplies.list ++ rest →
    ∃ t, runSteps (1 + (xs.flatMap StepReplies.list).length) s = .next t ∧ t.busy = false ∧ t.err = 0 ∧
      t.results = s.results ++ [⟨0, [], .success⟩] ∧ t.bus = s.bus ++ programTrace s.cfg chunks xs ∧
      (programTrace s.cfg chunks xs).length = 2 * chunks.length + (xs.map StepReplies.polls).sum ∧
      t.replies = rest ∧ t.devMem = s.devMem ∧ (∀ x, x < g.upgStart → t.flash.lookup x = s.flash.lookup x)

/-- 42 R145: the chunks of data at an address are consecutive, stay in one page each, and together are the data. -/
def Obligations.ChunksCutTheDataAtPageBoundaries : Prop :=
  ∀ (g : Geometry) (start : Nat) (data : List Byte) (chunks : List (Nat × List Byte)), 0 < g.page →
    chunks = chunksOf g data.length start data →
    chunks.flatMap (fun c => c.2) = data ∧
    (∀ c ∈ chunks, 1 ≤ c.2.length ∧ c.1 % g.page + c.2.length ≤ g.page) ∧
    (∀ (j : Nat) c, chunks[j]? = some c →
      c.1 = start + ((chunks.take j).map (fun d => d.2.length)).sum ∧ (0 < j → c.1 % g.page = 0)) ∧
    (start % g.page = 0 → chunks.length = (data.length + (g.page - 1)) / g.page)

/-- 42 R147, R148, 10 R24: the size check of `flash.fw`, a step of its own that sends nothing: an image is accepted only
when MIN_FW < len < MAX_FW_EXCL, by default 400000 < len < 0x7FFFF; any other length ends `flash.fw` with
InvalidImageSize before any byte. An accepted image sets the registers of the erase of the whole upgrade region and goes
on to its first write-enable, its erase running no check of its own (30 R92). After the error the working registers are
free (60 R160; log 9). That a check that passes sets the registers in its own step is log 1. -/
def Obligations.FirmwareSizeGuard : Prop :=
  (Config.defaults.geo.minFw = 400000 ∧ Config.defaults.geo.maxFwExcl = 0x7FFFF) ∧
  ∀ (s : State) (g : Geometry) (image : List Byte), s.phase = .start → s.cfg.wf = true → s.cfg.geo = g →
    (image.length ≤ g.minFw ∨ g.maxFwExcl ≤ image.length → EndsAs (exec (.flashFw image) s) { s with
      busy := false, err := 5, results := s.results ++ [⟨5, [], .invalidImageSize image.length g.minFw g.maxFwExcl⟩],
      work := Config.freeWork s.draws, draws := s.draws + 1 }) ∧
    (g.minFw < image.length → image.length < g.maxFwExcl →
      exec (.flashFw image) s = .next { s with
        phase := .eraseWren, pc := s.pc + 1,
        work := { s.work with faddr := BitVec.ofNat 24 g.upgStart, fend := BitVec.ofNat 25 (g.upgLast + 1),
                              doneBytes := 0 } })

/-- 42 R147: after its check `flash.fw` takes the steps of the erase of the upgrade region and then those of the write of
the image at its start: the poll that ends the erase sets the registers of the write (R140), the write running no check of
its own (30 R92), and every other step is the erase's or the write's own. -/
def Obligations.FirmwareStepsAreEraseAndWriteSteps : Prop :=
  ∀ (s : State) (g : Geometry) (image : List Byte) (b : Byte), s.cfg.wf = true → s.cfg.geo = g →
    ((s.phase = .eraseWren ∨ s.phase = .eraseSector ∨
        (s.phase = .erasePoll ∧ EraseInv g s.work ∧ s.work.faddr.toNat + g.sector < s.work.fend.toNat)) →
      exec (.flashFw image) s = exec (.flashErase g.upgStart (g.upgLast + 1)) s) ∧
    (s.phase.programming = true → exec (.flashFw image) s = exec (.flashWrite g.upgStart image) s) ∧
    (s.phase = .erasePoll → EraseInv g s.work → s.work.fend.toNat ≤ s.work.faddr.toNat + g.sector →
      s.work.doneBytes.toNat + g.sector < 0x100000 → image.length < g.maxFwExcl → b &&& s.cfg.wipMask = 0 →
      s.answers (rdsrXact s.cfg) [b] →
      exec (.flashFw image) s = .next { s with
        phase := .progWren, pc := s.pc + 1, bus := s.bus ++ [rdsrXact s.cfg],
        replies := s.replies.tail, draws := s.draws + 1, sr := Config.freeSr s.draws,
        events := s.events ++ (if s.work.doneBytes.toNat / g.eraseProgress <
            (s.work.doneBytes.toNat + g.sector) / g.eraseProgress then
          [⟨.erase, s.work.doneBytes.toNat + g.sector⟩] else []),
        work := { s.work with lastsr := b, faddr := BitVec.ofNat 24 g.upgStart,
                              fend := BitVec.ofNat 25 (g.upgStart + image.length), foff := 0, doneBytes := 0 } })

/-- 42 R147, R154, R141, R144: an accepted `flash.fw` of an image of allowed length, every step of which succeeds after
any number of polls with WIP = 1, sends the frames of the erase steps over the whole upgrade region, 8 by default, then
those of the page chunks of the image at its start, `ceil(len / PAGE)` of them, and succeeds. The one step before the
first frame is the size check (log 1). -/
def Obligations.FirmwareSendsExactlyItsTrace : Prop :=
  Config.defaults.geo.upgSize / Config.defaults.geo.sector = 8 ∧
  ∀ (s : State) (g : Geometry) (image : List Byte) (chunks : List (Nat × List Byte)) (es ps : List StepReplies)
    (rest : List Reply), s.cfg.wf = true → s.cfg.geo = g → s.accepted (.flashFw image) →
    g.minFw < image.length → image.length < g.maxFwExcl → chunks = chunksOf g image.length g.upgStart image →
    es.length = g.upgSize / g.sector → ps.length = chunks.length → (∀ x ∈ es ++ ps, x.Succeeds s.cfg) →
    s.replies = (es ++ ps).flatMap StepReplies.list ++ rest →
    ∃ t, runSteps (1 + ((es ++ ps).flatMap StepReplies.list).length) s = .next t ∧ t.busy = false ∧ t.err = 0 ∧
      t.results = s.results ++ [⟨0, [], .success⟩] ∧
      t.bus = s.bus ++ eraseTrace s.cfg g.upgStart es ++ programTrace s.cfg chunks ps ∧
      chunks.length = (image.length + (g.page - 1)) / g.page ∧ t.replies = rest

/-- 42 R149, R150, R154: with every read succeeding, `flash.readfw` sends exactly `UPG_SIZE / READ_CHUNK` READ frames
over the upgrade region, 512 by default, and returns the UPG_SIZE bytes answered, 524288 by default, in order. -/
def Obligations.ReadfwSendsExactlyItsTrace : Prop :=
  (Config.defaults.geo.upgSize = 524288 ∧ Config.defaults.geo.upgSize / Config.defaults.geo.readChunk = 512) ∧
  ∀ (s : State) (g : Geometry) (m : Nat) (answers : List (List Byte)) (rest : List Reply), s.cfg.wf = true →
    s.cfg.geo = g → g.readChunk = m → s.accepted .flashReadfw → answers.length = g.upgSize / m →
    (∀ bs ∈ answers, bs.length = m) → s.replies = answers.map Reply.bytes ++ rest →
    ∃ t, runSteps answers.length s = .next t ∧ t.busy = false ∧ t.err = 0 ∧
      t.results = s.results ++ [⟨0, answers.flatten, .success⟩] ∧ answers.flatten.length = g.upgSize ∧
      t.bus = s.bus ++ (List.range answers.length).map (fun k => readXact s.cfg (g.upgStart + m * k) m) ∧
      t.events = s.events ++ (List.range answers.length).flatMap (fun j =>
        if m * j / g.readProgress < m * (j + 1) / g.readProgress then [⟨.read, m * (j + 1)⟩] else []) ∧
      t.replies = rest ∧ t.devMem = s.devMem ∧ t.flash = s.flash

/-- 42 R140, R149, R151: one READ of a read-back. The first step sets the registers, `w` being the registers after
that; the chunk at FADDR is asked for, RBUF takes the answer, FADDR and DONE move on, and after the last chunk RBUF is
returned (SR: log 8). -/
def Obligations.ReadbackReadsTheNextChunk : Prop :=
  ∀ (s : State) (g : Geometry) (m : Nat) (w : Work) (x : Xact) (bs : List Byte), s.cfg.wf = true → s.cfg.geo = g →
    g.readChunk = m →
    (s.phase = .start ∧ w = { s.work with faddr := BitVec.ofNat 24 g.upgStart, doneBytes := 0, rbuf := [] }) ∨
      (s.phase = .readChunk ∧ w = s.work ∧ ReadInv g w ∧ w.doneBytes.toNat = w.faddr.toNat - g.upgStart) →
    x = readXact s.cfg w.faddr.toNat m → s.answers x bs →
    ∃ t, exec .flashReadfw s = .next t ∧
      t = { s with bus := s.bus ++ [x], replies := s.replies.tail, draws := s.draws + 1, sr := Config.freeSr s.draws,
                   pc := t.pc, phase := t.phase, busy := t.busy, err := t.err, results := t.results,
                   events := t.events,
                   work := { w with rbuf := w.rbuf ++ bs, faddr := t.work.faddr, doneBytes := t.work.doneBytes } } ∧
      bs.length = m ∧ t.work.faddr.toNat = w.faddr.toNat + m ∧ t.work.doneBytes.toNat = w.doneBytes.toNat + m ∧
      t.events = s.events ++ (if w.doneBytes.toNat / g.readProgress < (w.doneBytes.toNat + m) / g.readProgress then
        [⟨.read, w.doneBytes.toNat + m⟩] else []) ∧
      (w.faddr.toNat + m ≤ g.upgLast →
        t.phase = .readChunk ∧ t.pc = s.pc + 1 ∧ t.busy = s.busy ∧ t.err = s.err ∧ t.results = s.results) ∧
      (w.faddr.toNat + m = g.upgLast + 1 → t.busy = false ∧ t.err = 0 ∧
        t.results = s.results ++ [⟨0, w.rbuf ++ bs, .success⟩] ∧ (w.rbuf ++ bs).length = g.upgSize)

/-- 42 R151: a progress event is emitted exactly when a multiple of the granularity is crossed, and changes no
register; the granularities by default. -/
def Obligations.ProgressEventsAtTheirGranularity : Prop :=
  (Config.defaults.geo.progProgress = 16384 ∧ Config.defaults.geo.eraseProgress = 65536 ∧
    Config.defaults.geo.readProgress = 65536) ∧
  ∀ (kind : ProgressKind) (before after m : Nat) (s : State),
    m = (match kind with
      | .program => s.cfg.geo.progProgress | .erase => s.cfg.geo.eraseProgress | .read => s.cfg.geo.readProgress) →
    (before / m < after / m → s.progress kind before after = { s with events := s.events ++ [⟨kind, after⟩] }) ∧
    (¬ before / m < after / m → s.progress kind before after = s)

/-! ## Errors and rules of the whole machine -/

/-- 60 R162, R160, 20 R54, 40 R117: whatever instruction sends a transaction that fails, the operation ends with
TransportError carrying the transport's error, and that frame is the last one sent. The working registers (log 9) and
what the frame addresses on the device (log 7) are free. That a Display write that fails leaves the flash, SR and every
byte outside the bytes it writes as they were is the model's choice (log 7). -/
def Obligations.TransportErrorEndsTheOperation : Prop :=
  ∀ (i : Instr) (x : Xact) (s t : State) (e : TransportErr), exec i s = .next t → t.bus = s.bus ++ [x] → s.fails x e →
    t = { s with busy := false, err := 7, results := s.results ++ [⟨7, [], .transportError e⟩], bus := s.bus ++ [x],
                 replies := s.replies.tail, draws := t.draws, work := t.work, devMem := t.devMem, flash := t.flash,
                 sr := t.sr, pc := t.pc } ∧
    (∀ code, s.nextReply = .error code → e = .reported code) ∧
    (∀ bs ys n, s.nextReply = .bytes bs → x = .exchange ys n → bs.length ≠ n ∧ e = .wrongLength n bs.length) ∧
    (∀ a v, s.cfg.wf = true → x = .write (be16 a ++ v) → inDisplay s.cfg.geo a v.length → v ≠ [] →
      t.flash = s.flash ∧ t.sr = s.sr ∧ ∀ y, y < a ∨ a + v.length ≤ y → t.devMem.lookup y = s.devMem.lookup y)

/-- 60 R159, R161: a result with an error of classes 1 to 4 leaves the device untouched by its step and sends
nothing. -/
def Obligations.ErrorsBeforeTrafficArePrecise : Prop :=
  ∀ (s t : State) (r : Result), step s = .next t → t.results = s.results ++ [r] → r.status ≠ 0 → r.status ≠ 7 →
    NoTraffic s t ∧ SameDevice s t ∧ r.value = []

/-- 00 R6, 20 R56: one step sends at most one frame and adds at most one result and one event; nothing sent or returned
is taken back. -/
def Obligations.StepSendsAtMostOneFrame : Prop :=
  ∀ s t : State, step s = .next t →
    (∃ l, l.length ≤ 1 ∧ t.bus = s.bus ++ l) ∧ (∃ l, l.length ≤ 1 ∧ t.results = s.results ++ l) ∧
    (∃ l, l.length ≤ 1 ∧ t.events = s.events ++ l) ∧ t.cfg = s.cfg

/-- 10 R21, R22, R24, 60 R160: every step of a busy block adds one to `pc`; it goes on with BUSY = 1 and ERR kept, or
returns one result, and then BUSY = 0 and ERR is its status, which is its error's code; an error returns no value. That
`pc` keeps the count of the step that ended the operation is the model's choice (log 26), as is what the steps are
(log 1). -/
def Obligations.StepGoesOnOrReturnsOneResult : Prop :=
  ∀ s t : State, Inv s → s.resetIn = .off → s.busy = true → step s = .next t → t.pc = s.pc + 1 ∧
    ((t.busy = true ∧ t.err = s.err ∧ t.results = s.results) ∨
      (∃ r, t.busy = false ∧ t.results = s.results ++ [r] ∧ t.err = r.status ∧ r.status = r.info.code ∧
        (r.status ≠ 0 → r.value = [])))

/-- The invariant holds at reset. -/
def Obligations.InvariantHoldsAtReset : Prop := Inv State.reset

/-- Every step keeps the invariant: both memories stay in canonical form, a flash command has passed the checks before
its next one, a running sequence's registers stay inside the range it was checked for (42 R140), and the parser's
registers stay in their ranges (10 R25, 40 R107). -/
def Obligations.StepKeepsTheInvariant : Prop :=
  ∀ s t : State, Inv s → step s = .next t → Inv t

/-- From a state that meets the invariant the machine never stops: no step ends in a fault or a refusal, so no frame is
sent that the device has no behaviour for (20 R50). -/
def Obligations.MachineNeverStops : Prop :=
  ∀ s : State, Inv s → ∃ t, step s = .next t

/-- 42 R153, 20 R65, 10 R35: no step changes the flash below the upgrade region. That a program, an erase, a frame that
fails and a frame in flight at a reset change no flash byte outside their page or sector is the model's choice (log 6,
log 7, log 14); the rules leave the effect of the last two a draw (42 R152, 70 R176). -/
def Obligations.BootImageIsNeverTouched : Prop :=
  ∀ s t : State, Inv s → step s = .next t → ∀ a, a < s.cfg.geo.upgStart → t.flash.lookup a = s.flash.lookup a

/-- 42 R153, 20 R45, R58, R65, 40 R111, R112, R115, 41 R119, R121, R122, R123: every frame a step sends, of a sequence, a
raw command or the OSD unit, is one of the block's frames; sector erases and page programs address the upgrade region
only, and no bulk erase is among them. -/
def Obligations.EveryFrameSentIsAllowed : Prop :=
  ∀ s t : State, Inv s → step s = .next t → ∀ l, t.bus = s.bus ++ l → ∀ x ∈ l, FrameAllowed s.cfg x

/-- 10 R41, 70 R180: no carried state. What an accepted request and the device's answers lead to does not depend on the
registers earlier operations left; nor does ERR once a result has been returned. -/
def Obligations.EarlierOperationsDoNotMatter : Prop :=
  ∀ (s : State) (i : Instr) (w : Work) (e : Byte) (k : Nat), s.accepted i →
    ∀ t, runSteps k s = .next t →
      ∃ u, runSteps k { s with work := w, err := e } = .next u ∧ SameOutside t u ∧ (t.busy = false → u.err = t.err)
end

