-- ==== Sys2Proof/Laws/Memory.lean ====
section
/-!
SUPPORT. The laws of memory: a write keeps the canonical form, a read after a write gives the bytes written, and a
write leaves every other address alone.
-/

namespace Sys2Proof.Machine

open Sys2Proof (Byte)

@[simp] theorem cellsFrom_nil (a : Nat) : cellsFrom a [] = [] := rfl

@[simp] theorem cellsFrom_cons (a : Nat) (b : Byte) (bs : List Byte) :
    cellsFrom a (b :: bs) = (a, b) :: cellsFrom (a + 1) bs := rfl

theorem mem_cellsFrom_bounds {c : Host.Cell} :
    ∀ {bs : List Byte} {a : Nat}, c ∈ cellsFrom a bs → a ≤ c.1 ∧ c.1 < a + bs.length
  | [], _, h => by simp at h
  | b :: bs, a, h => by
    rcases List.mem_cons.mp h with rfl | h
    · simp
    · have := mem_cellsFrom_bounds h
      simp only [List.length_cons]
      omega

theorem cellsFrom_wf : ∀ (bs : List Byte) (a : Nat), Memory.wf (cellsFrom a bs)
  | [], _ => List.Pairwise.nil
  | _ :: bs, a => List.Pairwise.cons (fun _ h => by have := mem_cellsFrom_bounds h; simpa using by omega)
      (cellsFrom_wf bs (a + 1))

/-- Every write keeps the canonical form. -/
theorem write_wf {m : Memory} (h : Memory.wf m) (a : Nat) (bs : List Byte) : Memory.wf (m.write a bs) := by
  unfold Memory.write
  refine List.pairwise_append.mpr ⟨List.pairwise_append.mpr ⟨h.filter _, cellsFrom_wf bs a, ?_⟩, h.filter _, ?_⟩
  · intro x hx y hy
    have := mem_cellsFrom_bounds hy
    simp only [List.mem_filter, decide_eq_true_eq] at hx
    omega
  · intro x hx y hy
    simp only [List.mem_filter, decide_eq_true_eq] at hy
    rcases List.mem_append.mp hx with hx | hx
    · simp only [List.mem_filter, decide_eq_true_eq] at hx
      omega
    · have := mem_cellsFrom_bounds hx
      omega

/-- A write below a limit keeps every listed address below it. -/
theorem write_below {m : Memory} {limit : Nat} (h : Memory.below limit m) (a : Nat) (bs : List Byte)
    (ha : bs = [] ∨ a + bs.length ≤ limit) : Memory.below limit (m.write a bs) := by
  intro c hc
  unfold Memory.write at hc
  simp only [List.mem_append, List.mem_filter, decide_eq_true_eq] at hc
  rcases hc with (hc | hc) | hc
  · exact h c hc.1
  · rcases ha with rfl | ha
    · simp at hc
    · have := mem_cellsFrom_bounds hc
      omega
  · exact h c hc.1

theorem lookup_nil (a : Nat) : Memory.lookup [] a = none := rfl

theorem lookup_cons (c : Host.Cell) (m : Memory) (a : Nat) :
    Memory.lookup (c :: m) a = if c.1 = a then some c.2 else Memory.lookup m a := by
  by_cases h : c.1 = a <;> simp [Memory.lookup, h]

theorem lookup_append (m m' : Memory) (a : Nat) :
    Memory.lookup (m ++ m') a = (Memory.lookup m a).or (Memory.lookup m' a) := by
  induction m with
  | nil => simp [lookup_nil]
  | cons c m ih => by_cases h : c.1 = a <;> simp [lookup_cons, h, ih]

theorem lookup_eq_none {m : Memory} {a : Nat} (h : ∀ c ∈ m, c.1 ≠ a) : Memory.lookup m a = none := by
  simp only [Memory.lookup, Option.map_eq_none_iff, List.find?_eq_none, beq_iff_eq]
  exact h

theorem lookup_filter_of_keep {p : Nat → Bool} {a : Nat} (hp : p a = true) :
    ∀ m : Memory, Memory.lookup (m.filter (fun c => p c.1)) a = Memory.lookup m a
  | [] => rfl
  | c :: m => by
    by_cases hc : p c.1 = true
    · rw [List.filter_cons, if_pos hc, lookup_cons, lookup_cons, lookup_filter_of_keep hp m]
    · rw [List.filter_cons, if_neg hc, lookup_cons, lookup_filter_of_keep hp m, if_neg]
      rintro rfl
      exact hc hp

theorem lookup_filter_of_drop {p : Nat → Bool} {a : Nat} (hp : p a = false) (m : Memory) :
    Memory.lookup (m.filter (fun c => p c.1)) a = none :=
  lookup_eq_none (fun c hc h => by
    have := (List.mem_filter.mp hc).2
    rw [h, hp] at this
    exact Bool.false_ne_true this)

theorem lookup_cellsFrom : ∀ (bs : List Byte) (a x : Nat), a ≤ x → Memory.lookup (cellsFrom a bs) x = bs[x - a]?
  | [], a, x, _ => by simp [lookup_nil]
  | b :: bs, a, x, h => by
    rw [cellsFrom_cons, lookup_cons]
    by_cases hx : a = x
    · subst hx; simp
    · rw [if_neg (by simpa using hx), lookup_cellsFrom bs (a + 1) x (by omega)]
      have : x - a = (x - (a + 1)) + 1 := by omega
      rw [this, List.getElem?_cons_succ]

/-- A write leaves every address outside it alone. -/
theorem lookup_write_outside (m : Memory) {a x : Nat} {bs : List Byte} (h : x < a ∨ a + bs.length ≤ x) :
    (m.write a bs).lookup x = m.lookup x := by
  unfold Memory.write
  rw [lookup_append, lookup_append]
  have hc : Memory.lookup (cellsFrom a bs) x = none :=
    lookup_eq_none (fun c hc hx => by have := mem_cellsFrom_bounds hc; omega)
  rw [hc, Option.or_none]
  rcases h with h | h
  · rw [lookup_filter_of_keep (p := fun k => decide (k < a)) (by simpa using h),
      lookup_filter_of_drop (p := fun k => decide (a + bs.length ≤ k)) (by simp; omega), Option.or_none]
  · rw [lookup_filter_of_drop (p := fun k => decide (k < a)) (by simp; omega),
      lookup_filter_of_keep (p := fun k => decide (a + bs.length ≤ k)) (by simpa using h), Option.none_or]

/-- Byte `j` of a write at `a` is the byte at `a + j` (20 R52). -/
theorem lookup_write_inside (m : Memory) {a x : Nat} {bs : List Byte} (h : a ≤ x) (h' : x < a + bs.length) :
    (m.write a bs).lookup x = bs[x - a]? := by
  unfold Memory.write
  rw [lookup_append, lookup_append, lookup_filter_of_drop (p := fun k => decide (k < a)) (by simp; omega),
    Option.none_or, lookup_cellsFrom bs a x h]
  have : (bs[x - a]?).isSome := by simp; omega
  obtain ⟨b, hb⟩ := Option.isSome_iff_exists.mp this
  rw [hb, Option.some_or]

@[simp] theorem length_freeBytes (k a n : Nat) : (freeBytes k a n).length = n := by simp [freeBytes]

@[simp] theorem length_read (free : Nat → Byte) (m : Memory) (a n : Nat) : (Memory.read free m a n).length = n := by
  simp [Memory.read]

/-- Two memories in canonical form that list the same bytes are the same list. -/
theorem memory_ext : ∀ {m m' : Memory}, Memory.wf m → Memory.wf m' → (∀ a, m.lookup a = m'.lookup a) → m = m'
  | [], [], _, _, _ => rfl
  | [], c :: m', _, _, h => by have := h c.1; simp [lookup_nil, lookup_cons] at this
  | c :: m, [], _, _, h => by have := h c.1; simp [lookup_nil, lookup_cons] at this
  | c :: m, c' :: m', hm, hm', h => by
    have hmc := List.pairwise_cons.mp hm
    have hmc' := List.pairwise_cons.mp hm'
    have tail_none : ∀ {d : Host.Cell} {l : Memory} {a : Nat}, (∀ x ∈ l, d.1 < x.1) → a ≤ d.1 →
        Memory.lookup l a = none := fun hl ha =>
      lookup_eq_none (fun x hx e => by have := hl x hx; omega)
    have hkey : c.1 = c'.1 := by
      rcases Nat.lt_trichotomy c.1 c'.1 with hlt | heq | hgt
      · have := h c.1
        rw [lookup_cons, if_pos rfl, lookup_cons, if_neg (by omega), tail_none hmc'.1 (by omega)] at this
        simp at this
      · exact heq
      · have := h c'.1
        rw [lookup_cons, if_neg (by omega), tail_none hmc.1 (by omega), lookup_cons, if_pos rfl] at this
        simp at this
    have hval : c.2 = c'.2 := by
      have := h c.1
      rw [lookup_cons, if_pos rfl, lookup_cons, if_pos hkey.symm] at this
      exact Option.some.inj this
    have hc : c = c' := Prod.ext hkey hval
    subst hc
    refine congrArg (c :: ·) (memory_ext hmc.2 hmc'.2 (fun a => ?_))
    by_cases ha : c.1 = a
    · rw [tail_none hmc.1 (by omega), tail_none hmc'.1 (by omega)]
    · simpa [lookup_cons, ha] using h a

end Sys2Proof.Machine
end

