-- ==== Sys2Proof/Laws/State.lean ====
section
/-!
SUPPORT. One lemma for each field of State under each update, true by rfl, so that no later proof unfolds a record
update; and what the updates that branch leave alone.
-/

namespace Sys2Proof.Machine

open Sys2Proof (Byte Config)

/-! ## advance -/

@[simp] theorem advance_cfg (s : State) : s.advance.cfg = s.cfg := rfl
@[simp] theorem advance_busy (s : State) : s.advance.busy = s.busy := rfl
@[simp] theorem advance_err (s : State) : s.advance.err = s.err := rfl
@[simp] theorem advance_pc (s : State) : s.advance.pc = s.pc + 1 := rfl
@[simp] theorem advance_req (s : State) : s.advance.req = s.req := rfl
@[simp] theorem advance_phase (s : State) : s.advance.phase = s.phase := rfl
@[simp] theorem advance_work (s : State) : s.advance.work = s.work := rfl
@[simp] theorem advance_results (s : State) : s.advance.results = s.results := rfl
@[simp] theorem advance_events (s : State) : s.advance.events = s.events := rfl
@[simp] theorem advance_bus (s : State) : s.advance.bus = s.bus := rfl
@[simp] theorem advance_requests (s : State) : s.advance.requests = s.requests := rfl
@[simp] theorem advance_replies (s : State) : s.advance.replies = s.replies := rfl
@[simp] theorem advance_resetIn (s : State) : s.advance.resetIn = s.resetIn := rfl
@[simp] theorem advance_devMem (s : State) : s.advance.devMem = s.devMem := rfl
@[simp] theorem advance_flash (s : State) : s.advance.flash = s.flash := rfl
@[simp] theorem advance_sr (s : State) : s.advance.sr = s.sr := rfl
@[simp] theorem advance_draws (s : State) : s.advance.draws = s.draws := rfl

/-! ## finish -/

@[simp] theorem finish_cfg (v : List Byte) (s : State) : (s.finish v).cfg = s.cfg := rfl
@[simp] theorem finish_busy (v : List Byte) (s : State) : (s.finish v).busy = false := rfl
@[simp] theorem finish_err (v : List Byte) (s : State) : (s.finish v).err = 0 := rfl
@[simp] theorem finish_pc (v : List Byte) (s : State) : (s.finish v).pc = s.pc + 1 := rfl
@[simp] theorem finish_req (v : List Byte) (s : State) : (s.finish v).req = s.req := rfl
@[simp] theorem finish_phase (v : List Byte) (s : State) : (s.finish v).phase = s.phase := rfl
@[simp] theorem finish_work (v : List Byte) (s : State) : (s.finish v).work = s.work := rfl
@[simp] theorem finish_results (v : List Byte) (s : State) : (s.finish v).results = s.results ++ [⟨0, v, .success⟩] := rfl
@[simp] theorem finish_events (v : List Byte) (s : State) : (s.finish v).events = s.events := rfl
@[simp] theorem finish_bus (v : List Byte) (s : State) : (s.finish v).bus = s.bus := rfl
@[simp] theorem finish_requests (v : List Byte) (s : State) : (s.finish v).requests = s.requests := rfl
@[simp] theorem finish_replies (v : List Byte) (s : State) : (s.finish v).replies = s.replies := rfl
@[simp] theorem finish_resetIn (v : List Byte) (s : State) : (s.finish v).resetIn = s.resetIn := rfl
@[simp] theorem finish_devMem (v : List Byte) (s : State) : (s.finish v).devMem = s.devMem := rfl
@[simp] theorem finish_flash (v : List Byte) (s : State) : (s.finish v).flash = s.flash := rfl
@[simp] theorem finish_sr (v : List Byte) (s : State) : (s.finish v).sr = s.sr := rfl
@[simp] theorem finish_draws (v : List Byte) (s : State) : (s.finish v).draws = s.draws := rfl

/-! ## refuse -/

@[simp] theorem refuse_cfg (e : Info) (s : State) : (s.refuse e).cfg = s.cfg := rfl
@[simp] theorem refuse_busy (e : Info) (s : State) : (s.refuse e).busy = false := rfl
@[simp] theorem refuse_err (e : Info) (s : State) : (s.refuse e).err = e.code := rfl
@[simp] theorem refuse_pc (e : Info) (s : State) : (s.refuse e).pc = s.pc + 1 := rfl
@[simp] theorem refuse_req (e : Info) (s : State) : (s.refuse e).req = s.req := rfl
@[simp] theorem refuse_phase (e : Info) (s : State) : (s.refuse e).phase = s.phase := rfl
@[simp] theorem refuse_work (e : Info) (s : State) : (s.refuse e).work = s.work := rfl
@[simp] theorem refuse_results (e : Info) (s : State) : (s.refuse e).results = s.results ++ [⟨e.code, [], e⟩] := rfl
@[simp] theorem refuse_events (e : Info) (s : State) : (s.refuse e).events = s.events := rfl
@[simp] theorem refuse_bus (e : Info) (s : State) : (s.refuse e).bus = s.bus := rfl
@[simp] theorem refuse_requests (e : Info) (s : State) : (s.refuse e).requests = s.requests := rfl
@[simp] theorem refuse_replies (e : Info) (s : State) : (s.refuse e).replies = s.replies := rfl
@[simp] theorem refuse_resetIn (e : Info) (s : State) : (s.refuse e).resetIn = s.resetIn := rfl
@[simp] theorem refuse_devMem (e : Info) (s : State) : (s.refuse e).devMem = s.devMem := rfl
@[simp] theorem refuse_flash (e : Info) (s : State) : (s.refuse e).flash = s.flash := rfl
@[simp] theorem refuse_sr (e : Info) (s : State) : (s.refuse e).sr = s.sr := rfl
@[simp] theorem refuse_draws (e : Info) (s : State) : (s.refuse e).draws = s.draws := rfl

/-! ## raise -/

@[simp] theorem raise_cfg (e : Info) (s : State) : (s.raise e).cfg = s.cfg := rfl
@[simp] theorem raise_busy (e : Info) (s : State) : (s.raise e).busy = false := rfl
@[simp] theorem raise_err (e : Info) (s : State) : (s.raise e).err = e.code := rfl
@[simp] theorem raise_pc (e : Info) (s : State) : (s.raise e).pc = s.pc + 1 := rfl
@[simp] theorem raise_req (e : Info) (s : State) : (s.raise e).req = s.req := rfl
@[simp] theorem raise_phase (e : Info) (s : State) : (s.raise e).phase = s.phase := rfl
@[simp] theorem raise_work (e : Info) (s : State) : (s.raise e).work = Config.freeWork s.draws := rfl
@[simp] theorem raise_results (e : Info) (s : State) : (s.raise e).results = s.results ++ [⟨e.code, [], e⟩] := rfl
@[simp] theorem raise_events (e : Info) (s : State) : (s.raise e).events = s.events := rfl
@[simp] theorem raise_bus (e : Info) (s : State) : (s.raise e).bus = s.bus := rfl
@[simp] theorem raise_requests (e : Info) (s : State) : (s.raise e).requests = s.requests := rfl
@[simp] theorem raise_replies (e : Info) (s : State) : (s.raise e).replies = s.replies := rfl
@[simp] theorem raise_resetIn (e : Info) (s : State) : (s.raise e).resetIn = s.resetIn := rfl
@[simp] theorem raise_devMem (e : Info) (s : State) : (s.raise e).devMem = s.devMem := rfl
@[simp] theorem raise_flash (e : Info) (s : State) : (s.raise e).flash = s.flash := rfl
@[simp] theorem raise_sr (e : Info) (s : State) : (s.raise e).sr = s.sr := rfl
@[simp] theorem raise_draws (e : Info) (s : State) : (s.raise e).draws = s.draws + 1 := rfl

/-! ## sent -/

@[simp] theorem sent_cfg (x : Xact) (s : State) : (s.sent x).cfg = s.cfg := rfl
@[simp] theorem sent_busy (x : Xact) (s : State) : (s.sent x).busy = s.busy := rfl
@[simp] theorem sent_err (x : Xact) (s : State) : (s.sent x).err = s.err := rfl
@[simp] theorem sent_pc (x : Xact) (s : State) : (s.sent x).pc = s.pc := rfl
@[simp] theorem sent_req (x : Xact) (s : State) : (s.sent x).req = s.req := rfl
@[simp] theorem sent_phase (x : Xact) (s : State) : (s.sent x).phase = s.phase := rfl
@[simp] theorem sent_work (x : Xact) (s : State) : (s.sent x).work = s.work := rfl
@[simp] theorem sent_results (x : Xact) (s : State) : (s.sent x).results = s.results := rfl
@[simp] theorem sent_events (x : Xact) (s : State) : (s.sent x).events = s.events := rfl
@[simp] theorem sent_bus (x : Xact) (s : State) : (s.sent x).bus = s.bus ++ [x] := rfl
@[simp] theorem sent_requests (x : Xact) (s : State) : (s.sent x).requests = s.requests := rfl
@[simp] theorem sent_replies (x : Xact) (s : State) : (s.sent x).replies = s.replies.tail := rfl
@[simp] theorem sent_resetIn (x : Xact) (s : State) : (s.sent x).resetIn = s.resetIn := rfl
@[simp] theorem sent_devMem (x : Xact) (s : State) : (s.sent x).devMem = s.devMem := rfl
@[simp] theorem sent_flash (x : Xact) (s : State) : (s.sent x).flash = s.flash := rfl
@[simp] theorem sent_sr (x : Xact) (s : State) : (s.sent x).sr = s.sr := rfl
@[simp] theorem sent_draws (x : Xact) (s : State) : (s.sent x).draws = s.draws + 1 := rfl

/-! ## goto -/

@[simp] theorem goto_cfg (p : Phase) (s : State) : (s.goto p).cfg = s.cfg := rfl
@[simp] theorem goto_busy (p : Phase) (s : State) : (s.goto p).busy = s.busy := rfl
@[simp] theorem goto_err (p : Phase) (s : State) : (s.goto p).err = s.err := rfl
@[simp] theorem goto_pc (p : Phase) (s : State) : (s.goto p).pc = s.pc := rfl
@[simp] theorem goto_req (p : Phase) (s : State) : (s.goto p).req = s.req := rfl
@[simp] theorem goto_phase (p : Phase) (s : State) : (s.goto p).phase = p := rfl
@[simp] theorem goto_work (p : Phase) (s : State) : (s.goto p).work = s.work := rfl
@[simp] theorem goto_results (p : Phase) (s : State) : (s.goto p).results = s.results := rfl
@[simp] theorem goto_events (p : Phase) (s : State) : (s.goto p).events = s.events := rfl
@[simp] theorem goto_bus (p : Phase) (s : State) : (s.goto p).bus = s.bus := rfl
@[simp] theorem goto_requests (p : Phase) (s : State) : (s.goto p).requests = s.requests := rfl
@[simp] theorem goto_replies (p : Phase) (s : State) : (s.goto p).replies = s.replies := rfl
@[simp] theorem goto_resetIn (p : Phase) (s : State) : (s.goto p).resetIn = s.resetIn := rfl
@[simp] theorem goto_devMem (p : Phase) (s : State) : (s.goto p).devMem = s.devMem := rfl
@[simp] theorem goto_flash (p : Phase) (s : State) : (s.goto p).flash = s.flash := rfl
@[simp] theorem goto_sr (p : Phase) (s : State) : (s.goto p).sr = s.sr := rfl
@[simp] theorem goto_draws (p : Phase) (s : State) : (s.goto p).draws = s.draws := rfl

/-! ## moveAddr -/

@[simp] theorem moveAddr_cfg (m : Nat) (s : State) : (s.moveAddr m).cfg = s.cfg := rfl
@[simp] theorem moveAddr_busy (m : Nat) (s : State) : (s.moveAddr m).busy = s.busy := rfl
@[simp] theorem moveAddr_err (m : Nat) (s : State) : (s.moveAddr m).err = s.err := rfl
@[simp] theorem moveAddr_pc (m : Nat) (s : State) : (s.moveAddr m).pc = s.pc := rfl
@[simp] theorem moveAddr_req (m : Nat) (s : State) : (s.moveAddr m).req = s.req := rfl
@[simp] theorem moveAddr_phase (m : Nat) (s : State) : (s.moveAddr m).phase = s.phase := rfl
@[simp] theorem moveAddr_work (m : Nat) (s : State) : (s.moveAddr m).work = { s.work with faddr := s.work.faddr + BitVec.ofNat 24 m } := rfl
@[simp] theorem moveAddr_results (m : Nat) (s : State) : (s.moveAddr m).results = s.results := rfl
@[simp] theorem moveAddr_events (m : Nat) (s : State) : (s.moveAddr m).events = s.events := rfl
@[simp] theorem moveAddr_bus (m : Nat) (s : State) : (s.moveAddr m).bus = s.bus := rfl
@[simp] theorem moveAddr_requests (m : Nat) (s : State) : (s.moveAddr m).requests = s.requests := rfl
@[simp] theorem moveAddr_replies (m : Nat) (s : State) : (s.moveAddr m).replies = s.replies := rfl
@[simp] theorem moveAddr_resetIn (m : Nat) (s : State) : (s.moveAddr m).resetIn = s.resetIn := rfl
@[simp] theorem moveAddr_devMem (m : Nat) (s : State) : (s.moveAddr m).devMem = s.devMem := rfl
@[simp] theorem moveAddr_flash (m : Nat) (s : State) : (s.moveAddr m).flash = s.flash := rfl
@[simp] theorem moveAddr_sr (m : Nat) (s : State) : (s.moveAddr m).sr = s.sr := rfl
@[simp] theorem moveAddr_draws (m : Nat) (s : State) : (s.moveAddr m).draws = s.draws := rfl

/-! ## moveOff -/

@[simp] theorem moveOff_cfg (m : Nat) (s : State) : (s.moveOff m).cfg = s.cfg := rfl
@[simp] theorem moveOff_busy (m : Nat) (s : State) : (s.moveOff m).busy = s.busy := rfl
@[simp] theorem moveOff_err (m : Nat) (s : State) : (s.moveOff m).err = s.err := rfl
@[simp] theorem moveOff_pc (m : Nat) (s : State) : (s.moveOff m).pc = s.pc := rfl
@[simp] theorem moveOff_req (m : Nat) (s : State) : (s.moveOff m).req = s.req := rfl
@[simp] theorem moveOff_phase (m : Nat) (s : State) : (s.moveOff m).phase = s.phase := rfl
@[simp] theorem moveOff_work (m : Nat) (s : State) : (s.moveOff m).work = { s.work with foff := s.work.foff + BitVec.ofNat 20 m } := rfl
@[simp] theorem moveOff_results (m : Nat) (s : State) : (s.moveOff m).results = s.results := rfl
@[simp] theorem moveOff_events (m : Nat) (s : State) : (s.moveOff m).events = s.events := rfl
@[simp] theorem moveOff_bus (m : Nat) (s : State) : (s.moveOff m).bus = s.bus := rfl
@[simp] theorem moveOff_requests (m : Nat) (s : State) : (s.moveOff m).requests = s.requests := rfl
@[simp] theorem moveOff_replies (m : Nat) (s : State) : (s.moveOff m).replies = s.replies := rfl
@[simp] theorem moveOff_resetIn (m : Nat) (s : State) : (s.moveOff m).resetIn = s.resetIn := rfl
@[simp] theorem moveOff_devMem (m : Nat) (s : State) : (s.moveOff m).devMem = s.devMem := rfl
@[simp] theorem moveOff_flash (m : Nat) (s : State) : (s.moveOff m).flash = s.flash := rfl
@[simp] theorem moveOff_sr (m : Nat) (s : State) : (s.moveOff m).sr = s.sr := rfl
@[simp] theorem moveOff_draws (m : Nat) (s : State) : (s.moveOff m).draws = s.draws := rfl

/-! ## failing -/

@[simp] theorem failing_cfg (s : State) : s.failing.cfg = s.cfg := rfl
@[simp] theorem failing_busy (s : State) : s.failing.busy = s.busy := rfl
@[simp] theorem failing_err (s : State) : s.failing.err = s.err := rfl
@[simp] theorem failing_pc (s : State) : s.failing.pc = s.pc := rfl
@[simp] theorem failing_req (s : State) : s.failing.req = s.req := rfl
@[simp] theorem failing_phase (s : State) : s.failing.phase = s.phase := rfl
@[simp] theorem failing_work (s : State) : s.failing.work = s.work := rfl
@[simp] theorem failing_results (s : State) : s.failing.results = s.results := rfl
@[simp] theorem failing_events (s : State) : s.failing.events = s.events := rfl
@[simp] theorem failing_bus (s : State) : s.failing.bus = s.bus := rfl
@[simp] theorem failing_requests (s : State) : s.failing.requests = s.requests := rfl
@[simp] theorem failing_replies (s : State) : s.failing.replies = .error 0 :: s.replies := rfl
@[simp] theorem failing_resetIn (s : State) : s.failing.resetIn = s.resetIn := rfl
@[simp] theorem failing_devMem (s : State) : s.failing.devMem = s.devMem := rfl
@[simp] theorem failing_flash (s : State) : s.failing.flash = s.flash := rfl
@[simp] theorem failing_sr (s : State) : s.failing.sr = s.sr := rfl
@[simp] theorem failing_draws (s : State) : s.failing.draws = s.draws := rfl

/-! ## progress, countDone and put: what they leave alone -/

@[simp] theorem progress_cfg (k : ProgressKind) (b a : Nat) (s : State) : (s.progress k b a).cfg = s.cfg := by
  unfold State.progress; split <;> rfl
@[simp] theorem progress_busy (k : ProgressKind) (b a : Nat) (s : State) : (s.progress k b a).busy = s.busy := by
  unfold State.progress; split <;> rfl
@[simp] theorem progress_err (k : ProgressKind) (b a : Nat) (s : State) : (s.progress k b a).err = s.err := by
  unfold State.progress; split <;> rfl
@[simp] theorem progress_pc (k : ProgressKind) (b a : Nat) (s : State) : (s.progress k b a).pc = s.pc := by
  unfold State.progress; split <;> rfl
@[simp] theorem progress_req (k : ProgressKind) (b a : Nat) (s : State) : (s.progress k b a).req = s.req := by
  unfold State.progress; split <;> rfl
@[simp] theorem progress_phase (k : ProgressKind) (b a : Nat) (s : State) : (s.progress k b a).phase = s.phase := by
  unfold State.progress; split <;> rfl
@[simp] theorem progress_work (k : ProgressKind) (b a : Nat) (s : State) : (s.progress k b a).work = s.work := by
  unfold State.progress; split <;> rfl
@[simp] theorem progress_results (k : ProgressKind) (b a : Nat) (s : State) : (s.progress k b a).results = s.results := by
  unfold State.progress; split <;> rfl
@[simp] theorem progress_bus (k : ProgressKind) (b a : Nat) (s : State) : (s.progress k b a).bus = s.bus := by
  unfold State.progress; split <;> rfl
@[simp] theorem progress_requests (k : ProgressKind) (b a : Nat) (s : State) : (s.progress k b a).requests = s.requests := by
  unfold State.progress; split <;> rfl
@[simp] theorem progress_replies (k : ProgressKind) (b a : Nat) (s : State) : (s.progress k b a).replies = s.replies := by
  unfold State.progress; split <;> rfl
@[simp] theorem progress_resetIn (k : ProgressKind) (b a : Nat) (s : State) : (s.progress k b a).resetIn = s.resetIn := by
  unfold State.progress; split <;> rfl
@[simp] theorem progress_devMem (k : ProgressKind) (b a : Nat) (s : State) : (s.progress k b a).devMem = s.devMem := by
  unfold State.progress; split <;> rfl
@[simp] theorem progress_flash (k : ProgressKind) (b a : Nat) (s : State) : (s.progress k b a).flash = s.flash := by
  unfold State.progress; split <;> rfl
@[simp] theorem progress_sr (k : ProgressKind) (b a : Nat) (s : State) : (s.progress k b a).sr = s.sr := by
  unfold State.progress; split <;> rfl
@[simp] theorem progress_draws (k : ProgressKind) (b a : Nat) (s : State) : (s.progress k b a).draws = s.draws := by
  unfold State.progress; split <;> rfl
@[simp] theorem countDone_cfg (k : ProgressKind) (m : Nat) (s : State) : (s.countDone k m).cfg = s.cfg := by
  simp [State.countDone]
@[simp] theorem countDone_busy (k : ProgressKind) (m : Nat) (s : State) : (s.countDone k m).busy = s.busy := by
  simp [State.countDone]
@[simp] theorem countDone_err (k : ProgressKind) (m : Nat) (s : State) : (s.countDone k m).err = s.err := by
  simp [State.countDone]
@[simp] theorem countDone_pc (k : ProgressKind) (m : Nat) (s : State) : (s.countDone k m).pc = s.pc := by
  simp [State.countDone]
@[simp] theorem countDone_req (k : ProgressKind) (m : Nat) (s : State) : (s.countDone k m).req = s.req := by
  simp [State.countDone]
@[simp] theorem countDone_phase (k : ProgressKind) (m : Nat) (s : State) : (s.countDone k m).phase = s.phase := by
  simp [State.countDone]
@[simp] theorem countDone_results (k : ProgressKind) (m : Nat) (s : State) : (s.countDone k m).results = s.results := by
  simp [State.countDone]
@[simp] theorem countDone_bus (k : ProgressKind) (m : Nat) (s : State) : (s.countDone k m).bus = s.bus := by
  simp [State.countDone]
@[simp] theorem countDone_requests (k : ProgressKind) (m : Nat) (s : State) : (s.countDone k m).requests = s.requests := by
  simp [State.countDone]
@[simp] theorem countDone_replies (k : ProgressKind) (m : Nat) (s : State) : (s.countDone k m).replies = s.replies := by
  simp [State.countDone]
@[simp] theorem countDone_resetIn (k : ProgressKind) (m : Nat) (s : State) : (s.countDone k m).resetIn = s.resetIn := by
  simp [State.countDone]
@[simp] theorem countDone_devMem (k : ProgressKind) (m : Nat) (s : State) : (s.countDone k m).devMem = s.devMem := by
  simp [State.countDone]
@[simp] theorem countDone_flash (k : ProgressKind) (m : Nat) (s : State) : (s.countDone k m).flash = s.flash := by
  simp [State.countDone]
@[simp] theorem countDone_sr (k : ProgressKind) (m : Nat) (s : State) : (s.countDone k m).sr = s.sr := by
  simp [State.countDone]
@[simp] theorem countDone_draws (k : ProgressKind) (m : Nat) (s : State) : (s.countDone k m).draws = s.draws := by
  simp [State.countDone]
@[simp] theorem countDone_work (k : ProgressKind) (m : Nat) (s : State) :
    (s.countDone k m).work = { s.work with doneBytes := s.work.doneBytes + BitVec.ofNat 20 m } := by
  simp [State.countDone]
@[simp] theorem put_cfg (v : Byte) (s : State) : (s.put v).cfg = s.cfg := by
  unfold State.put; split <;> rfl
@[simp] theorem put_busy (v : Byte) (s : State) : (s.put v).busy = s.busy := by
  unfold State.put; split <;> rfl
@[simp] theorem put_err (v : Byte) (s : State) : (s.put v).err = s.err := by
  unfold State.put; split <;> rfl
@[simp] theorem put_pc (v : Byte) (s : State) : (s.put v).pc = s.pc := by
  unfold State.put; split <;> rfl
@[simp] theorem put_req (v : Byte) (s : State) : (s.put v).req = s.req := by
  unfold State.put; split <;> rfl
@[simp] theorem put_phase (v : Byte) (s : State) : (s.put v).phase = s.phase := by
  unfold State.put; split <;> rfl
@[simp] theorem put_results (v : Byte) (s : State) : (s.put v).results = s.results := by
  unfold State.put; split <;> rfl
@[simp] theorem put_events (v : Byte) (s : State) : (s.put v).events = s.events := by
  unfold State.put; split <;> rfl
@[simp] theorem put_bus (v : Byte) (s : State) : (s.put v).bus = s.bus := by
  unfold State.put; split <;> rfl
@[simp] theorem put_requests (v : Byte) (s : State) : (s.put v).requests = s.requests := by
  unfold State.put; split <;> rfl
@[simp] theorem put_replies (v : Byte) (s : State) : (s.put v).replies = s.replies := by
  unfold State.put; split <;> rfl
@[simp] theorem put_resetIn (v : Byte) (s : State) : (s.put v).resetIn = s.resetIn := by
  unfold State.put; split <;> rfl
@[simp] theorem put_devMem (v : Byte) (s : State) : (s.put v).devMem = s.devMem := by
  unfold State.put; split <;> rfl
@[simp] theorem put_flash (v : Byte) (s : State) : (s.put v).flash = s.flash := by
  unfold State.put; split <;> rfl
@[simp] theorem put_sr (v : Byte) (s : State) : (s.put v).sr = s.sr := by
  unfold State.put; split <;> rfl
@[simp] theorem put_draws (v : Byte) (s : State) : (s.put v).draws = s.draws := by
  unfold State.put; split <;> rfl

/-! ## The device's effects: what they leave alone -/

@[simp] theorem flashEffect_cfg (k : Nat) (t : Target) (s : State) : (flashEffect k t s).cfg = s.cfg := by
  cases t <;> rfl
@[simp] theorem flashEffect_busy (k : Nat) (t : Target) (s : State) : (flashEffect k t s).busy = s.busy := by
  cases t <;> rfl
@[simp] theorem flashEffect_err (k : Nat) (t : Target) (s : State) : (flashEffect k t s).err = s.err := by
  cases t <;> rfl
@[simp] theorem flashEffect_pc (k : Nat) (t : Target) (s : State) : (flashEffect k t s).pc = s.pc := by
  cases t <;> rfl
@[simp] theorem flashEffect_req (k : Nat) (t : Target) (s : State) : (flashEffect k t s).req = s.req := by
  cases t <;> rfl
@[simp] theorem flashEffect_phase (k : Nat) (t : Target) (s : State) : (flashEffect k t s).phase = s.phase := by
  cases t <;> rfl
@[simp] theorem flashEffect_work (k : Nat) (t : Target) (s : State) : (flashEffect k t s).work = s.work := by
  cases t <;> rfl
@[simp] theorem flashEffect_results (k : Nat) (t : Target) (s : State) : (flashEffect k t s).results = s.results := by
  cases t <;> rfl
@[simp] theorem flashEffect_events (k : Nat) (t : Target) (s : State) : (flashEffect k t s).events = s.events := by
  cases t <;> rfl
@[simp] theorem flashEffect_bus (k : Nat) (t : Target) (s : State) : (flashEffect k t s).bus = s.bus := by
  cases t <;> rfl
@[simp] theorem flashEffect_requests (k : Nat) (t : Target) (s : State) : (flashEffect k t s).requests = s.requests := by
  cases t <;> rfl
@[simp] theorem flashEffect_replies (k : Nat) (t : Target) (s : State) : (flashEffect k t s).replies = s.replies := by
  cases t <;> rfl
@[simp] theorem flashEffect_resetIn (k : Nat) (t : Target) (s : State) : (flashEffect k t s).resetIn = s.resetIn := by
  cases t <;> rfl
@[simp] theorem flashEffect_draws (k : Nat) (t : Target) (s : State) : (flashEffect k t s).draws = s.draws := by
  cases t <;> rfl
@[simp] theorem doneEffect_cfg (k : Nat) (t : Target) (s : State) : (doneEffect k t s).cfg = s.cfg := by
  cases t <;> rfl
@[simp] theorem doneEffect_busy (k : Nat) (t : Target) (s : State) : (doneEffect k t s).busy = s.busy := by
  cases t <;> rfl
@[simp] theorem doneEffect_err (k : Nat) (t : Target) (s : State) : (doneEffect k t s).err = s.err := by
  cases t <;> rfl
@[simp] theorem doneEffect_pc (k : Nat) (t : Target) (s : State) : (doneEffect k t s).pc = s.pc := by
  cases t <;> rfl
@[simp] theorem doneEffect_req (k : Nat) (t : Target) (s : State) : (doneEffect k t s).req = s.req := by
  cases t <;> rfl
@[simp] theorem doneEffect_phase (k : Nat) (t : Target) (s : State) : (doneEffect k t s).phase = s.phase := by
  cases t <;> rfl
@[simp] theorem doneEffect_work (k : Nat) (t : Target) (s : State) : (doneEffect k t s).work = s.work := by
  cases t <;> rfl
@[simp] theorem doneEffect_results (k : Nat) (t : Target) (s : State) : (doneEffect k t s).results = s.results := by
  cases t <;> rfl
@[simp] theorem doneEffect_events (k : Nat) (t : Target) (s : State) : (doneEffect k t s).events = s.events := by
  cases t <;> rfl
@[simp] theorem doneEffect_bus (k : Nat) (t : Target) (s : State) : (doneEffect k t s).bus = s.bus := by
  cases t <;> rfl
@[simp] theorem doneEffect_requests (k : Nat) (t : Target) (s : State) : (doneEffect k t s).requests = s.requests := by
  cases t <;> rfl
@[simp] theorem doneEffect_replies (k : Nat) (t : Target) (s : State) : (doneEffect k t s).replies = s.replies := by
  cases t <;> rfl
@[simp] theorem doneEffect_resetIn (k : Nat) (t : Target) (s : State) : (doneEffect k t s).resetIn = s.resetIn := by
  cases t <;> rfl
@[simp] theorem doneEffect_draws (k : Nat) (t : Target) (s : State) : (doneEffect k t s).draws = s.draws := by
  cases t <;> rfl
@[simp] theorem failedEffect_cfg (k : Nat) (t : Target) (s : State) : (failedEffect k t s).cfg = s.cfg := by
  cases t <;> rfl
@[simp] theorem failedEffect_busy (k : Nat) (t : Target) (s : State) : (failedEffect k t s).busy = s.busy := by
  cases t <;> rfl
@[simp] theorem failedEffect_err (k : Nat) (t : Target) (s : State) : (failedEffect k t s).err = s.err := by
  cases t <;> rfl
@[simp] theorem failedEffect_pc (k : Nat) (t : Target) (s : State) : (failedEffect k t s).pc = s.pc := by
  cases t <;> rfl
@[simp] theorem failedEffect_req (k : Nat) (t : Target) (s : State) : (failedEffect k t s).req = s.req := by
  cases t <;> rfl
@[simp] theorem failedEffect_phase (k : Nat) (t : Target) (s : State) : (failedEffect k t s).phase = s.phase := by
  cases t <;> rfl
@[simp] theorem failedEffect_work (k : Nat) (t : Target) (s : State) : (failedEffect k t s).work = s.work := by
  cases t <;> rfl
@[simp] theorem failedEffect_results (k : Nat) (t : Target) (s : State) : (failedEffect k t s).results = s.results := by
  cases t <;> rfl
@[simp] theorem failedEffect_events (k : Nat) (t : Target) (s : State) : (failedEffect k t s).events = s.events := by
  cases t <;> rfl
@[simp] theorem failedEffect_bus (k : Nat) (t : Target) (s : State) : (failedEffect k t s).bus = s.bus := by
  cases t <;> rfl
@[simp] theorem failedEffect_requests (k : Nat) (t : Target) (s : State) : (failedEffect k t s).requests = s.requests := by
  cases t <;> rfl
@[simp] theorem failedEffect_replies (k : Nat) (t : Target) (s : State) : (failedEffect k t s).replies = s.replies := by
  cases t <;> rfl
@[simp] theorem failedEffect_resetIn (k : Nat) (t : Target) (s : State) : (failedEffect k t s).resetIn = s.resetIn := by
  cases t <;> rfl
@[simp] theorem failedEffect_draws (k : Nat) (t : Target) (s : State) : (failedEffect k t s).draws = s.draws := by
  cases t <;> rfl

end Sys2Proof.Machine
end

