-- ==== Sys2Proof/Laws/Ops.lean ====
section
/-!
SUPPORT. What each shared operation does, said once: how a transaction ends, what the frames the block builds are and
what they address on the device's side, and what every device effect keeps.
-/

namespace Sys2Proof.Machine

open Sys2Proof (Byte Config Geometry)

/-! ## Address bytes -/

theorem fromBe16_be16 {a : Nat} (h : a < 0x10000) :
    fromBe16 (BitVec.ofNat 8 (a / 0x100)) (BitVec.ofNat 8 a) = a := by
  simp only [fromBe16, BitVec.toNat_ofNat]
  omega

theorem fromBe24_be24 {a : Nat} (h : a < 0x1000000) :
    fromBe24 (BitVec.ofNat 8 (a / 0x10000)) (BitVec.ofNat 8 (a / 0x100)) (BitVec.ofNat 8 a) = a := by
  simp only [fromBe24, BitVec.toNat_ofNat]
  omega

/-! ## What a well-formed configuration gives -/

theorem wf_cases {c : Config} (h : c.wf = true) : c.maskWf = true ∧ c.opsWf = true ∧ c.geo.Wf := by
  simp only [Config.wf, Bool.and_eq_true, Geometry.wf, decide_eq_true_eq] at h
  exact ⟨h.1.1, h.1.2, h.2⟩

theorem geo_wf {c : Config} (h : c.wf = true) : c.geo.Wf := (wf_cases h).2.2

/-- The opcodes are pairwise different. -/
theorem opsWf_ne {c : Config} (h : c.wf = true) :
    (c.opWren ≠ c.opRdsr ∧ c.opWren ≠ c.opRead ∧ c.opWren ≠ c.opPp ∧ c.opWren ≠ c.opSe ∧ c.opWren ≠ c.opBe) ∧
    (c.opRdsr ≠ c.opRead ∧ c.opRdsr ≠ c.opPp ∧ c.opRdsr ≠ c.opSe ∧ c.opRdsr ≠ c.opBe) ∧
    (c.opRead ≠ c.opPp ∧ c.opRead ≠ c.opSe ∧ c.opRead ≠ c.opBe) ∧ (c.opPp ≠ c.opSe ∧ c.opPp ≠ c.opBe) ∧
    c.opSe ≠ c.opBe := by
  have h := (wf_cases h).2.1
  simpa [Config.opsWf, Config.spiOps] using h

/-! ## Pages and sectors: the blocks `m * (a / m)` of a length `m` -/

theorem block_le (m a : Nat) : m * (a / m) ≤ a := Nat.mul_div_le a m

theorem lt_block_add {m : Nat} (hm : 0 < m) (a : Nat) : a < m * (a / m) + m := Nat.lt_mul_div_succ a hm

/-- A block that starts below a multiple of its length ends by it. -/
theorem block_add_le {m a b : Nat} (hm : 0 < m) (hb : b % m = 0) (h : a < b) : m * (a / m) + m ≤ b := by
  obtain ⟨k, rfl⟩ := Nat.dvd_of_mod_eq_zero hb
  have : a / m < k := by rwa [Nat.div_lt_iff_lt_mul hm, Nat.mul_comm]
  calc m * (a / m) + m = m * (a / m + 1) := by ring
    _ ≤ m * k := Nat.mul_le_mul_left m this

/-- A block that holds an address from a multiple of its length on starts from it on. -/
theorem le_block {m a b : Nat} (hb : b % m = 0) (h : b ≤ a) : b ≤ m * (a / m) := by
  obtain ⟨k, rfl⟩ := Nat.dvd_of_mod_eq_zero hb
  rcases Nat.eq_zero_or_pos m with rfl | hm
  · simp
  · exact Nat.mul_le_mul_left m ((Nat.le_div_iff_mul_le hm).mpr (by rwa [Nat.mul_comm]))

/-- Two multiples of a length are that length apart. -/
theorem add_le_of_mod {m a b : Nat} (hm : 0 < m) (ha : a % m = 0) (hb : b % m = 0) (h : a < b) : a + m ≤ b := by
  have := block_add_le hm hb h
  rwa [Nat.mul_div_cancel' (Nat.dvd_of_mod_eq_zero ha)] at this

/-- Sectors are whole pages, so a multiple of SECTOR is one of PAGE. -/
theorem page_of_sector {g : Geometry} (h : g.Wf) {b : Nat} (hb : b % g.sector = 0) : b % g.page = 0 :=
  Nat.mod_eq_zero_of_dvd ((Nat.dvd_of_mod_eq_zero h.1.2.2.1).trans (Nat.dvd_of_mod_eq_zero hb))

theorem pageBase_fits {g : Geometry} (h : g.Wf) {a : Nat} (ha : a < g.flashSize) : pageBase g a + g.page ≤ g.flashSize :=
  block_add_le h.1.1 (page_of_sector h h.1.2.2.2.1) ha

theorem sectorBase_fits {g : Geometry} (h : g.Wf) {a : Nat} (ha : a < g.flashSize) :
    sectorBase g a + g.sector ≤ g.flashSize := block_add_le h.1.2.1 h.1.2.2.2.1 ha

theorem le_pageBase {g : Geometry} (h : g.Wf) {a : Nat} (ha : g.upgStart ≤ a) : g.upgStart ≤ pageBase g a :=
  le_block (page_of_sector h h.1.2.2.2.2.1) ha

theorem le_sectorBase {g : Geometry} (h : g.Wf) {a : Nat} (ha : g.upgStart ≤ a) : g.upgStart ≤ sectorBase g a :=
  le_block h.1.2.2.2.2.1 ha

/-! ## The frames the block builds (41 R119) -/

theorem flashXact_wren {c : Config} (h : c.wf = true) : flashXact c c.opWren 0 [] 0 = wrenXact c := by
  obtain ⟨⟨-, h1, h2, h3, -⟩, -⟩ := opsWf_ne h
  simp [flashXact, flashFrame, addressed, wrenXact, h1, h2, h3]

theorem flashXact_rdsr {c : Config} (h : c.wf = true) : flashXact c c.opRdsr 0 [] 1 = rdsrXact c := by
  obtain ⟨-, ⟨h1, h2, h3, -⟩, -⟩ := opsWf_ne h
  simp [flashXact, flashFrame, addressed, rdsrXact, h1, h2, h3]

theorem flashXact_read (c : Config) (a : Nat) {n : Nat} (hn : 1 ≤ n) :
    flashXact c c.opRead a [] n = readXact c a n := by
  have : n ≠ 0 := by omega
  simp [flashXact, flashFrame, addressed, readXact, this]

theorem flashXact_pp (c : Config) (a : Nat) (p : List Byte) : flashXact c c.opPp a p 0 = ppXact c a p := by
  simp [flashXact, flashFrame, addressed, ppXact]

theorem flashXact_se (c : Config) (a : Nat) : flashXact c c.opSe a [] 0 = seXact c a := by
  simp [flashXact, flashFrame, addressed, seXact]

/-! ## What the frames address on the device's side -/

theorem route_tunnel_write {c : Config} (h : c.wf = true) (v : List Byte) :
    route c (.write (be16 c.geo.flashTunnel ++ v)) = routeSpi c 0 v := by
  have ht : c.geo.flashTunnel < 0x10000 := (geo_wf h).2.2.2.2.1
  simp only [be16, List.cons_append, List.nil_append, route, fromBe16_be16 ht, if_true]

theorem route_tunnel_exchange {c : Config} (h : c.wf = true) (v : List Byte) (n : Nat) :
    route c (.exchange (be16 c.geo.flashTunnel ++ v) n) = routeSpi c n v := by
  have ht : c.geo.flashTunnel < 0x10000 := (geo_wf h).2.2.2.2.1
  simp only [be16, List.cons_append, List.nil_append, route, fromBe16_be16 ht, if_true]

theorem route_wren {c : Config} (h : c.wf = true) : route c (wrenXact c) = some .wren := by
  rw [wrenXact, route_tunnel_write h]
  simp [routeSpi]

theorem route_rdsr {c : Config} (h : c.wf = true) : route c (rdsrXact c) = some (.rdsr 1) := by
  obtain ⟨⟨h1, -⟩, -⟩ := opsWf_ne h
  rw [rdsrXact, route_tunnel_exchange h]
  simp [routeSpi, h1.symm]

theorem route_read {c : Config} (h : c.wf = true) {a n : Nat} (ha : a + n ≤ c.geo.flashSize) :
    route c (readXact c a n) = some (.read a n) := by
  have hf : c.geo.flashSize < 0x1000000 := (geo_wf h).2.1.1
  have : a < 0x1000000 := by omega
  rw [readXact, List.append_assoc, route_tunnel_exchange h]
  simp only [be24, List.cons_append, List.nil_append, routeSpi, routeAddressed, fromBe24_be24 this, if_true, ha, and_self]

theorem route_pp {c : Config} (h : c.wf = true) {a : Nat} {p : List Byte} (ha : a + p.length ≤ c.geo.flashSize)
    (ha' : a < c.geo.flashSize) : route c (ppXact c a p) = some (.program a p) := by
  obtain ⟨-, -, ⟨h1, -⟩, -⟩ := opsWf_ne h
  have hf : c.geo.flashSize < 0x1000000 := (geo_wf h).2.1.1
  have : a < 0x1000000 := by omega
  rw [ppXact, List.append_assoc, List.append_assoc, route_tunnel_write h]
  simp only [be24, List.cons_append, List.nil_append, routeSpi, routeAddressed, fromBe24_be24 this, if_neg h1.symm,
    if_true, ha, ha', and_self]

theorem route_se {c : Config} (h : c.wf = true) {a : Nat} (ha : a < c.geo.flashSize) :
    route c (seXact c a) = some (.erase a) := by
  obtain ⟨-, -, ⟨-, h1, -⟩, ⟨h2, -⟩, -⟩ := opsWf_ne h
  have hf : c.geo.flashSize < 0x1000000 := (geo_wf h).2.1.1
  have : a < 0x1000000 := by omega
  rw [seXact, List.append_assoc, route_tunnel_write h]
  simp only [be24, List.cons_append, List.nil_append, routeSpi, routeAddressed, fromBe24_be24 this, if_neg h1.symm,
    if_neg h2.symm, if_true, ha, and_self]

/-- A byte range of the Display region is not the flash tunnel. -/
theorem inDisplay_ne {c : Config} (h : c.wf = true) {a n : Nat} (hn : 1 ≤ n) (ha : inDisplay c.geo a n) :
    a < 0x10000 ∧ a ≠ c.geo.flashTunnel := by
  obtain ⟨h1, h2, h3⟩ := (geo_wf h).2.2.2
  obtain ⟨ha1, ha2⟩ := ha
  constructor <;> omega

theorem route_memWrite {c : Config} (h : c.wf = true) {a : Nat} {v : List Byte} (hv : 1 ≤ v.length)
    (ha : inDisplay c.geo a v.length) : route c (memWriteXact a v) = some (.displayWrite a v) := by
  obtain ⟨h1, h2⟩ := inDisplay_ne h hv ha
  simp only [memWriteXact, be16, List.cons_append, List.nil_append, route, fromBe16_be16 h1, if_neg h2, if_pos ha]

theorem route_memRead {c : Config} (h : c.wf = true) {a n : Nat} (hn : 1 ≤ n) (ha : inDisplay c.geo a n) :
    route c (memReadXact a n) = some (.displayRead a n) := by
  obtain ⟨h1, h2⟩ := inDisplay_ne h hn ha
  simp only [memReadXact, be16, route, fromBe16_be16 h1, if_neg h2, true_and, if_pos ha]

/-! ## One transaction -/

/-- A transaction to a frame the device has a behaviour for always answers a next state, in one of two ways. -/
theorem transact_next_cases {x : Xact} {k : List Byte → State → State} {s t : State}
    (h : transact x k s = .next t) :
    ∃ tg, route s.cfg x = some tg ∧
      ((∃ bs, answerOf x (ownAnswer s tg) s.nextReply = .ok bs ∧ t = k bs (doneEffect s.draws tg (s.sent x))) ∨
       (∃ e, answerOf x (ownAnswer s tg) s.nextReply = .error e ∧
          t = (failedEffect s.draws tg (s.sent x)).raise (.transportError e))) := by
  unfold transact at h
  cases hr : route s.cfg x with
  | none => simp [hr] at h
  | some tg =>
    simp only [hr] at h
    refine ⟨tg, rfl, ?_⟩
    injection h with h
    cases ha : answerOf x (ownAnswer s tg) s.nextReply with
    | ok bs => exact .inl ⟨bs, rfl, by rw [← h, ha]⟩
    | error e => exact .inr ⟨e, rfl, by rw [← h, ha]⟩

/-- A transaction the device answers. -/
theorem transact_of_ok {x : Xact} {tg : Target} {s : State} {bs : List Byte} (k : List Byte → State → State)
    (hr : route s.cfg x = some tg) (ha : answerOf x (ownAnswer s tg) s.nextReply = .ok bs) :
    transact x k s = .next (k bs (doneEffect s.draws tg (s.sent x))) := by
  simp [transact, hr, ha]

/-- A transaction that fails. -/
theorem transact_of_error {x : Xact} {tg : Target} {s : State} {e : TransportErr} (k : List Byte → State → State)
    (hr : route s.cfg x = some tg) (ha : answerOf x (ownAnswer s tg) s.nextReply = .error e) :
    transact x k s = .next ((failedEffect s.draws tg (s.sent x)).raise (.transportError e)) := by
  simp [transact, hr, ha]

/-- A transaction to a frame the device has a behaviour for answers a next state. -/
theorem transact_isNext {x : Xact} {tg : Target} {s : State} (k : List Byte → State → State)
    (hr : route s.cfg x = some tg) : ∃ t, transact x k s = .next t := by
  cases ha : answerOf x (ownAnswer s tg) s.nextReply with
  | ok bs => exact ⟨_, transact_of_ok k hr ha⟩
  | error e => exact ⟨_, transact_of_error k hr ha⟩

/-- An answered `Write` returns nothing. -/
theorem answerOf_write {bs own r : List Byte} {rep : Reply} (h : answerOf (.write bs) own rep = .ok r) : r = [] := by
  cases rep <;> simp_all [answerOf]

/-- An answered `Exchange` returns exactly the bytes asked for (20 R54). -/
theorem length_of_answered {bs own r : List Byte} {n : Nat} {rep : Reply} (ho : own.length = n)
    (h : answerOf (.exchange bs n) own rep = .ok r) : r.length = n := by
  cases rep with
  | own => simp_all [answerOf]
  | bytes b =>
    simp only [answerOf] at h
    split at h <;> simp_all
  | error e => simp [answerOf] at h

@[simp] theorem length_ownAnswer_displayRead (s : State) (a n : Nat) :
    (ownAnswer s (.displayRead a n)).length = n := by simp [ownAnswer]

@[simp] theorem length_ownAnswer_rdsr (s : State) (n : Nat) : (ownAnswer s (.rdsr n)).length = n := by simp [ownAnswer]

@[simp] theorem length_ownAnswer_read (s : State) (a n : Nat) : (ownAnswer s (.read a n)).length = n := by
  simp [ownAnswer]

/-! ## Checks -/

/-- The next step of a command with checks, said once: a check that fails refuses, one that passes goes on to the next,
and after the last the transaction is sent. -/
theorem checkStep_cases (cs : List Check) (go : State → Out) (k : Nat) (s : State) :
    (∃ e, cs[k]? = some (true, e) ∧ checkStep cs go k s = .next (s.refuse (.invalidRegion e))) ∨
    (∃ e, cs[k]? = some (false, e) ∧ checkStep cs go k s = .next (s.goto (.checked (k + 1))).advance) ∨
    (cs[k]? = none ∧ checkStep cs go k s = go s) := by
  unfold checkStep
  split
  · exact .inr (.inr ⟨by assumption, rfl⟩)
  · rename_i fails e h
    cases fails
    · exact .inr (.inl ⟨e, h, rfl⟩)
    · exact .inl ⟨e, h, rfl⟩

/-- In the phase after `k` passed checks, a command takes the step of check `k`. -/
theorem afterChecks_eq {cs : List Check} {go : State → Out} {k : Nat} {s : State} (h : s.phase = checkPhase k) :
    afterChecks cs go s = checkStep cs go k s := by
  cases k with
  | zero => simp only [checkPhase] at h; simp only [afterChecks, h]
  | succ k => simp only [checkPhase] at h; simp only [afterChecks, h]

/-- The transaction of a command is run at the state it has then, so only its value there matters. -/
theorem afterChecks_congr {cs : List Check} {go go' : State → Out} {s : State} (h : go s = go' s) :
    afterChecks cs go s = afterChecks cs go' s := by
  unfold afterChecks checkStep
  split <;> try rfl
  all_goals split <;> first | rfl | exact h

/-- A command with checks stops only in a phase no command has, and otherwise takes the step of one of its checks. -/
theorem afterChecks_cases (cs : List Check) (go : State → Out) (s : State) :
    afterChecks cs go s = .fault .outOfSequence ∨ ∃ k, afterChecks cs go s = checkStep cs go k s := by
  unfold afterChecks
  split
  · exact .inr ⟨0, rfl⟩
  · exact .inr ⟨_, rfl⟩
  all_goals exact .inl rfl

/-! ## The device's effects on the flash array -/

/-- The flash addresses whose bytes a target may change (log 6). -/
def Target.touches (g : Geometry) (tg : Target) (x : Nat) : Prop :=
  match tg with
  | .program a _ => pageBase g a ≤ x ∧ x < pageBase g a + g.page
  | .erase a => sectorBase g a ≤ x ∧ x < sectorBase g a + g.sector
  | .displayWrite _ _ | .displayRead _ _ | .wren | .rdsr _ | .read _ _ => False

theorem flashEffect_flash_outside {k : Nat} {tg : Target} {s : State} {x : Nat} (h : ¬ tg.touches s.cfg.geo x) :
    (flashEffect k tg s).flash.lookup x = s.flash.lookup x := by
  cases tg with
  | program a p =>
    refine lookup_write_outside s.flash ?_
    simp only [Target.touches, not_and_or, Nat.not_le, Nat.not_lt] at h
    simpa using h
  | erase a =>
    refine lookup_write_outside s.flash ?_
    simp only [Target.touches, not_and_or, Nat.not_le, Nat.not_lt] at h
    simpa using h
  | _ => rfl

theorem doneEffect_flash_outside {k : Nat} {tg : Target} {s : State} {x : Nat} (h : ¬ tg.touches s.cfg.geo x) :
    (doneEffect k tg s).flash.lookup x = s.flash.lookup x := by
  cases tg <;> first | rfl | exact flashEffect_flash_outside h

theorem failedEffect_flash_outside {k : Nat} {tg : Target} {s : State} {x : Nat} (h : ¬ tg.touches s.cfg.geo x) :
    (failedEffect k tg s).flash.lookup x = s.flash.lookup x := by
  cases tg <;> first | rfl | exact flashEffect_flash_outside h

/-! ## The device's effects keep its memories in form -/

/-- A target the device's decoder gives lies inside the Display region or inside the flash. -/
def Target.inRange (g : Geometry) : Target → Prop
  | .displayWrite a v => inDisplay g a v.length
  | .displayRead a n => inDisplay g a n
  | .read a n => a + n ≤ g.flashSize
  | .program a _ => a < g.flashSize
  | .erase a => a < g.flashSize
  | .wren | .rdsr _ => True

theorem routeAddressed_inRange {c : Config} {op : Byte} {a n : Nat} {p : List Byte} {tg : Target}
    (h : routeAddressed c op a p n = some tg) : tg.inRange c.geo := by
  unfold routeAddressed at h
  split_ifs at h <;> cases h <;> simp_all [Target.inRange]

theorem routeSpi_inRange {c : Config} {n : Nat} {v : List Byte} {tg : Target} (h : routeSpi c n v = some tg) :
    tg.inRange c.geo := by
  unfold routeSpi at h
  split at h
  · split_ifs at h <;> cases h <;> trivial
  · exact routeAddressed_inRange h
  · cases h

/-- Whatever a frame addresses is inside the device (20 R45, R46). -/
theorem route_inRange {c : Config} {x : Xact} {tg : Target} (h : route c x = some tg) : tg.inRange c.geo := by
  unfold route at h
  split at h
  · split_ifs at h with h1 h2
    · exact routeSpi_inRange h
    · cases h; exact h2
  · split_ifs at h with h1 h2
    · exact routeSpi_inRange h
    · cases h; exact h2.2
  · cases h

theorem display_fits {g : Geometry} (h : g.Wf) {a n : Nat} (ha : inDisplay g a n) : a + n ≤ 0x10000 :=
  ha.2.trans h.2.2.2.1

theorem flashEffect_memWf {k : Nat} {tg : Target} {s : State} (hg : s.cfg.geo.Wf) (hr : tg.inRange s.cfg.geo)
    (h : s.memWf) :
    (flashEffect k tg s).memWf := by
  obtain ⟨h1, h2, h3, h4⟩ := h
  cases tg with
  | program a p =>
    exact ⟨h1, h2, write_wf h3 _ _, write_below h4 _ _ (.inr (by simpa using pageBase_fits hg hr))⟩
  | erase a =>
    exact ⟨h1, h2, write_wf h3 _ _, write_below h4 _ _ (.inr (by simpa using sectorBase_fits hg hr))⟩
  | _ => exact ⟨h1, h2, h3, h4⟩

theorem doneEffect_memWf {k : Nat} {tg : Target} {s : State} (hg : s.cfg.geo.Wf) (hr : tg.inRange s.cfg.geo)
    (h : s.memWf) :
    (doneEffect k tg s).memWf := by
  obtain ⟨h1, h2, h3, h4⟩ := h
  cases tg with
  | displayWrite a v =>
    exact ⟨write_wf h1 _ _, write_below h2 _ _ (.inr (display_fits hg hr)), h3, h4⟩
  | displayRead a n => exact ⟨h1, h2, h3, h4⟩
  | wren => exact ⟨h1, h2, h3, h4⟩
  | rdsr n => exact ⟨h1, h2, h3, h4⟩
  | read a n => exact ⟨h1, h2, h3, h4⟩
  | program a p => exact flashEffect_memWf hg hr ⟨h1, h2, h3, h4⟩
  | erase a => exact flashEffect_memWf hg hr ⟨h1, h2, h3, h4⟩

theorem failedEffect_memWf {k : Nat} {tg : Target} {s : State} (hg : s.cfg.geo.Wf) (hr : tg.inRange s.cfg.geo)
    (h : s.memWf) :
    (failedEffect k tg s).memWf := by
  obtain ⟨h1, h2, h3, h4⟩ := h
  cases tg with
  | displayWrite a v =>
    refine ⟨write_wf h1 _ _, write_below h2 _ _ (.inr ?_), h3, h4⟩
    rw [length_freeBytes]; exact display_fits hg hr
  | displayRead a n =>
    refine ⟨write_wf h1 _ _, write_below h2 _ _ (.inr ?_), h3, h4⟩
    rw [length_freeBytes]; exact display_fits hg hr
  | wren => exact ⟨h1, h2, h3, h4⟩
  | rdsr n => exact ⟨h1, h2, h3, h4⟩
  | read a n => exact ⟨h1, h2, h3, h4⟩
  | program a p => exact flashEffect_memWf hg hr ⟨h1, h2, h3, h4⟩
  | erase a => exact flashEffect_memWf hg hr ⟨h1, h2, h3, h4⟩

end Sys2Proof.Machine
end

