-- ==== Sys2Proof/Laws/PerInstr.lean ====
section
/-!
SUPPORT. The one statement made for every constructor of `Instr`: its encoding is what its row of spec/opcode_table.json
says (30 R69, R80, R93), under the default configuration, whose opcodes are those of the table.
-/

namespace Sys2Proof.Laws.TableRow

open Sys2Proof

/-- The instruction has a row in the table, and its encoding has that row's format and agrees with the row's pattern in
every bit of the row's mask. -/
def Statement (i : Instr) : Prop :=
  i.wf Config.defaults = true →
    ∃ r, i.row = some r ∧ (encode Config.defaults i).format = r.format ∧
      (encode Config.defaults i).tableNumber &&& r.mask = r.pattern

theorem invOn : Statement .invOn := fun _ => ⟨_, rfl, rfl, rfl⟩
theorem invOff : Statement .invOff := fun _ => ⟨_, rfl, rfl, rfl⟩
theorem newline : Statement .newline := fun _ => ⟨_, rfl, rfl, rfl⟩
theorem pad : Statement .pad := fun _ => ⟨_, rfl, rfl, rfl⟩
theorem bslash : Statement .bslash := fun _ => ⟨_, rfl, rfl, rfl⟩

theorem char (c : BitVec 7) : Statement (.char c) := fun _ =>
  ⟨⟨"char", .token1, 0x00, 0x80, none⟩, rfl, rfl, by revert c; decide⟩

theorem invalid (c : BitVec 7) : Statement (.invalid c) := fun _ =>
  ⟨⟨"invalid", .token1, 0x80, 0x80, none⟩, rfl, rfl, by revert c; decide⟩

theorem osdWrite (text : List Byte) : Statement (.osdWrite text) := fun _ =>
  ⟨_, rfl, rfl, (by decide : (0x01#8 ++ 0x00#8 : BitVec 16).toNat &&& 0xFFFF = 0x0100)⟩

theorem osdRead (frame : List Byte) : Statement (.osdRead frame) := fun _ =>
  ⟨_, rfl, rfl, (by decide : (0x02#8 ++ 0x00#8 : BitVec 16).toNat &&& 0xFFFF = 0x0200)⟩

theorem osdDump : Statement .osdDump := fun _ => ⟨_, rfl, rfl, rfl⟩
theorem flashWren : Statement .flashWren := fun _ => ⟨_, rfl, rfl, rfl⟩
theorem flashRdsr : Statement .flashRdsr := fun _ => ⟨_, rfl, rfl, rfl⟩
theorem flashRead (a n : Nat) : Statement (.flashRead a n) := fun _ =>
  ⟨_, rfl, rfl, (by decide : (0x10#8 ++ 0x03#8 : BitVec 16).toNat &&& 0xFFFF = 0x1003)⟩

theorem flashPp (a : Nat) (p : List Byte) : Statement (.flashPp a p) := fun _ =>
  ⟨_, rfl, rfl, (by decide : (0x10#8 ++ 0x02#8 : BitVec 16).toNat &&& 0xFFFF = 0x1002)⟩

theorem flashSe (a : Nat) : Statement (.flashSe a) := fun _ =>
  ⟨_, rfl, rfl, (by decide : (0x10#8 ++ 0xD8#8 : BitVec 16).toNat &&& 0xFFFF = 0x10D8)⟩

theorem flashBe : Statement .flashBe := fun _ => ⟨_, rfl, rfl, rfl⟩

theorem flashCmd (op : Byte) : Statement (.flashCmd op) := fun _ =>
  ⟨⟨"flash.cmd", .request, 0x1000, 0xFF00, none⟩, rfl, rfl, by revert op; decide⟩

theorem flashWait : Statement .flashWait := fun _ => ⟨_, rfl, rfl, rfl⟩
theorem flashErase (a e : Nat) : Statement (.flashErase a e) := fun _ =>
  ⟨_, rfl, rfl, (by decide : (0x20#8 ++ 0x00#8 : BitVec 16).toNat &&& 0xFFFF = 0x2000)⟩

theorem flashWrite (a : Nat) (d : List Byte) : Statement (.flashWrite a d) := fun _ =>
  ⟨_, rfl, rfl, (by decide : (0x21#8 ++ 0x00#8 : BitVec 16).toNat &&& 0xFFFF = 0x2100)⟩

theorem flashFw (d : List Byte) : Statement (.flashFw d) := fun _ =>
  ⟨_, rfl, rfl, (by decide : (0x22#8 ++ 0x00#8 : BitVec 16).toNat &&& 0xFFFF = 0x2200)⟩

theorem flashReadfw : Statement .flashReadfw := fun _ => ⟨_, rfl, rfl, rfl⟩

end Sys2Proof.Laws.TableRow
end

