-- ==== Sys2Proof/Laws/Steps.lean ====
section
/-!
SUPPORT. What one step of an operation can do, said once for all instructions: it stays inside the block, or it sends
one frame and then stays inside the block.
-/

namespace Sys2Proof.Machine

open Sys2Proof (Byte Config Instr)

/-- The operation goes on: only `pc`, `phase`, the working registers and the events change, with at most one event. -/
def GoesOn (u t : State) : Prop :=
  ∃ w ph ev, ev.length ≤ 1 ∧ t = { u with pc := u.pc + 1, phase := ph, work := w, events := u.events ++ ev }

/-- The operation returns a value, with at most one event; the step is counted. -/
def Returns (u t : State) : Prop :=
  ∃ w ph ev v, ev.length ≤ 1 ∧ t = { u with
    busy := false, err := 0, pc := u.pc + 1, phase := ph, work := w, events := u.events ++ ev,
    results := u.results ++ [⟨0, v, .success⟩] }

/-- The operation ends with an error; the step is counted. -/
def Errs (e : Info) (u t : State) : Prop :=
  ∃ w ph d, t = { u with
    busy := false, err := e.code, pc := u.pc + 1, results := u.results ++ [⟨e.code, [], e⟩], phase := ph, work := w,
    draws := d }

/-- A step that sends the frame `x`, with the registers `w` set before it. -/
def Sends (i : Instr) (s : State) (x : Xact) (w : Work) : Prop :=
  ∃ k, exec i s = transact x k { s with work := w } ∧ ∀ bs u, GoesOn u (k bs u) ∨ Returns u (k bs u)

theorem progress_shape (k : ProgressKind) (b a : Nat) (s : State) :
    ∃ ev, ev.length ≤ 1 ∧ s.progress k b a = { s with events := s.events ++ ev } := by
  unfold State.progress
  split
  · exact ⟨[⟨k, a⟩], by simp, rfl⟩
  · exact ⟨[], by simp, by simp⟩

theorem countDone_shape (k : ProgressKind) (m : Nat) (s : State) :
    ∃ ev, ev.length ≤ 1 ∧ s.countDone k m = { s with
      events := s.events ++ ev, work := { s.work with doneBytes := s.work.doneBytes + BitVec.ofNat 20 m } } := by
  obtain ⟨ev, h, e⟩ := progress_shape k s.work.doneBytes.toNat (s.work.doneBytes.toNat + m) s
  exact ⟨ev, h, by simp [State.countDone, e]⟩

theorem goesOn_of {u t : State} {ev : List Progress} (hl : ev.length ≤ 1)
    (h : t = { u with pc := u.pc + 1, phase := t.phase, work := t.work, events := u.events ++ ev }) : GoesOn u t :=
  ⟨t.work, t.phase, ev, hl, h⟩

theorem returns_of {u t : State} {ev : List Progress} {v : List Byte} (hl : ev.length ≤ 1)
    (h : t = { u with
      busy := false, err := 0, pc := u.pc + 1, phase := t.phase, work := t.work, events := u.events ++ ev,
      results := u.results ++ [⟨0, v, .success⟩] }) : Returns u t :=
  ⟨t.work, t.phase, ev, v, hl, h⟩

theorem goesOn_advance (p : Phase) (s : State) : GoesOn s (s.goto p).advance :=
  ⟨s.work, p, [], by simp, by simp [State.goto, State.advance]⟩

theorem goesOn_stay (s : State) : GoesOn s s.advance := ⟨s.work, s.phase, [], by simp, by simp [State.advance]⟩

theorem returns_finish (v : List Byte) (s : State) : Returns s (s.finish v) :=
  ⟨s.work, s.phase, [], v, by simp, by simp [State.finish]⟩

/-! ### The steps as transactions -/

theorem stepWren_eq (p : Phase) (s : State) :
    stepWren p s = transact (flashXact s.cfg s.cfg.opWren 0 [] 0) (fun _ t => (t.goto p).advance) s := rfl

theorem pollStatus_eq (k : Byte → State → State) (s : State) :
    pollStatus k s = transact (flashXact s.cfg s.cfg.opRdsr 0 [] 1)
      (fun bs t => k (bs.headD 0) { t with work := { t.work with lastsr := bs.headD 0 } }) s := rfl

theorem stepErasePoll_eq (fin : State → State) (s : State) :
    stepErasePoll fin s = pollStatus (fun sr t => if wipSet t.cfg sr then t.advance else t.sectorDone fin) s := rfl

theorem stepProgPoll_eq (len : Nat) (fin : State → State) (s : State) :
    stepProgPoll len fin s = pollStatus (fun sr t => if wipSet t.cfg sr then t.advance else t.pageDone len fin) s := rfl

theorem stepSector_eq (s : State) :
    stepSector s = transact (flashXact s.cfg s.cfg.opSe s.work.faddr.toNat [] 0)
      (fun _ t => (t.goto .erasePoll).advance) s := rfl

theorem stepPage_eq (data : List Byte) (s : State) :
    stepPage data s = transact (flashXact s.cfg s.cfg.opPp s.work.faddr.toNat
      ((data.drop s.work.foff.toNat).take (s.nextChunk data.length)) 0) (fun _ t => (t.goto .progPoll).advance) s := rfl

theorem stepChunk_eq (s : State) :
    stepChunk s = transact (flashXact s.cfg s.cfg.opRead s.work.faddr.toNat [] s.cfg.geo.readChunk)
      (fun bs t => t.chunkRead bs) s := rfl

theorem sendRow_eq (r : Nat) (s : State) :
    sendRow r s = transact (memWriteXact (s.cfg.geo.displayBase + COLS * r) (frameRow s.work.fb r))
      (fun _ t => if r + 1 < ROWS then (t.goto (.send (r + 1))).advance else t.finish []) s := rfl

theorem sendFrame_eq (s : State) :
    sendFrame s = transact (memWriteXact s.cfg.geo.displayBase s.work.fb.toList) (fun _ t => t.finish []) s := rfl

theorem exec_osdDump_eq (s : State) :
    exec .osdDump s = transact (memReadXact s.cfg.geo.displayBase FRAME_BYTES) (fun bs t => t.returnGrid bs) s := rfl

theorem exec_flashWren_eq (s : State) :
    exec .flashWren s = transact (flashXact s.cfg s.cfg.opWren 0 [] 0) (fun _ t => t.finish []) s := rfl

theorem exec_flashRdsr_eq (s : State) : exec .flashRdsr s = pollStatus (fun sr t => t.finish [sr]) s := rfl

theorem exec_flashWait_eq (s : State) :
    exec .flashWait s = pollStatus (fun sr t => if wipSet t.cfg sr then t.advance else t.finish [sr]) s := rfl

theorem exec_flashRead_eq (a n : Nat) (s : State) :
    exec (.flashRead a n) s = afterChecks (readChecks s.cfg.geo a n)
      (transact (flashXact s.cfg s.cfg.opRead a [] n) (fun bs t => t.finish bs)) s := afterChecks_congr rfl

theorem exec_flashPp_eq (a : Nat) (p : List Byte) (s : State) :
    exec (.flashPp a p) s = afterChecks (ppChecks s.cfg.geo a p.length)
      (transact (flashXact s.cfg s.cfg.opPp a p 0) (fun _ t => t.finish [])) s := afterChecks_congr rfl

theorem exec_flashSe_eq (a : Nat) (s : State) :
    exec (.flashSe a) s = afterChecks (seChecks s.cfg.geo a)
      (transact (flashXact s.cfg s.cfg.opSe a [] 0) (fun _ t => t.finish [])) s := afterChecks_congr rfl

theorem sends_now {i : Instr} {s : State} {x : Xact} (k : List Byte → State → State) (h : exec i s = transact x k s)
    (hk : ∀ bs u, GoesOn u (k bs u) ∨ Returns u (k bs u)) : Sends i s x s.work := ⟨k, h, hk⟩

theorem sends_wren_now (i : Instr) (s : State) (p : Phase) (h : exec i s = stepWren p s) :
    Sends i s (flashXact s.cfg s.cfg.opWren 0 [] 0) s.work := by
  rw [stepWren_eq] at h
  exact sends_now _ h (fun _ u => .inl (goesOn_advance p u))

theorem sends_poll (i : Instr) (s : State) (k : Byte → State → State) (h : exec i s = pollStatus k s)
    (hk : ∀ sr u, GoesOn u (k sr u) ∨ Returns u (k sr u)) : Sends i s (flashXact s.cfg s.cfg.opRdsr 0 [] 1) s.work := by
  rw [pollStatus_eq] at h
  refine sends_now _ h (fun bs u => ?_)
  have hk := hk (bs.headD 0) { u with work := { u.work with lastsr := bs.headD 0 } }
  exact hk

theorem sectorDone_shape (fin : State → State)
    (hf : ∀ u, GoesOn u (fin u) ∨ Returns u (fin u))
    (hev : ∀ u, (fin u).events = u.events) (u : State) :
    GoesOn u (u.sectorDone fin) ∨ Returns u (u.sectorDone fin) := by
  unfold State.sectorDone
  generalize u.cfg.geo.sector = m
  obtain ⟨ev, hl, e⟩ := countDone_shape .erase m u
  rw [e]
  simp only []
  split
  · exact .inl (goesOn_of hl (by simp only [State.moveAddr, State.goto, State.advance]))
  · generalize hu : State.moveAddr m _ = u'
    have hE : u'.events = u.events ++ ev := by rw [← hu]; rfl
    rcases hf u' with ⟨w, ph, ev', hl', e'⟩ | ⟨w, ph, ev', v, hl', e'⟩
    · have : ev' = [] := by
        have h := hev u'
        rw [e'] at h
        simpa using h
      subst this
      refine .inl ⟨w, ph, ev, hl, ?_⟩
      rw [e', ← hu]
      simp [State.moveAddr]
    · have : ev' = [] := by
        have h := hev u'
        rw [e'] at h
        simpa using h
      subst this
      refine .inr ⟨w, ph, ev, v, hl, ?_⟩
      rw [e', ← hu]
      simp [State.moveAddr]

theorem pageDone_shape (len : Nat) (u : State) :
    GoesOn u (u.pageDone len (State.finish [])) ∨ Returns u (u.pageDone len (State.finish [])) := by
  obtain ⟨ev, hl, e⟩ := countDone_shape .program (u.nextChunk len) u
  unfold State.pageDone
  simp only [e]
  split
  · exact .inl (goesOn_of hl (by simp only [State.moveOff, State.moveAddr, State.goto, State.advance]))
  · exact .inr (returns_of (v := []) hl (by simp only [State.moveOff, State.moveAddr, State.finish]))

theorem chunkRead_shape (bs : List Byte) (u : State) :
    GoesOn u (u.chunkRead bs) ∨ Returns u (u.chunkRead bs) := by
  obtain ⟨ev, hl, e⟩ :=
    countDone_shape .read u.cfg.geo.readChunk { u with work := { u.work with rbuf := u.work.rbuf ++ bs } }
  unfold State.chunkRead
  simp only [e]
  split
  · exact .inl (goesOn_of hl (by simp only [State.moveAddr, State.goto, State.advance]))
  · exact .inr (returns_of (v := u.work.rbuf ++ bs) hl (by simp only [State.moveAddr, State.finish]))

theorem fwErased_shape (len : Nat) (u : State) : GoesOn u (u.fwErased len) := by
  refine ⟨(u.progInit u.cfg.geo.upgStart len).work, .progWren, [], by simp, ?_⟩
  simp [State.fwErased, State.progInit, State.goto, State.advance]

theorem put_shape (v : Byte) (s : State) : ∃ w, s.put v = { s with work := w } := by
  unfold State.put
  split
  · exact ⟨_, rfl⟩
  · exact ⟨s.work, rfl⟩

theorem tokBslash_shape (s : State) : ∃ w, s.tokBslash = { s with work := w } := by
  unfold State.tokBslash
  obtain ⟨w, e⟩ := put_shape BACKSLASH s
  split
  · rw [e]; exact ⟨_, rfl⟩
  · exact ⟨s.work, rfl⟩

theorem plainByte_shape (b : Byte) (s : State) : ∃ w, s.plainByte b = { s with work := w } := by
  unfold State.plainByte State.tokNewline State.tokPad State.tokChar
  split_ifs
  · exact ⟨_, rfl⟩
  · exact ⟨s.work, rfl⟩
  · exact put_shape _ _
  · exact ⟨s.work, rfl⟩
  · exact put_shape _ _
  · exact ⟨s.work, rfl⟩

theorem frameByte_shape (b : Byte) (s : State) : ∃ w, s.frameByte b = { s with work := w } := by
  unfold State.frameByte State.tokInvOn State.tokInvOff State.unmarkedByte
  obtain ⟨w, e⟩ := tokBslash_shape s
  split_ifs
  · exact ⟨_, rfl⟩
  · exact ⟨s.work, rfl⟩
  · exact ⟨_, rfl⟩
  · exact ⟨s.work, rfl⟩
  · rw [e]; exact ⟨_, rfl⟩
  · rw [e]
    obtain ⟨w', e'⟩ := plainByte_shape b { s with work := w }
    exact ⟨w', e'⟩
  · exact ⟨_, rfl⟩
  · exact plainByte_shape b s

/-- One step of the parser goes on, or ends with InvalidCharacter. -/
theorem parseStep_shape (text : List Byte) (s : State) :
    GoesOn s (s.parseStep text) ∨ ∃ b, Errs (.invalidCharacter s.pc b) s (s.parseStep text) := by
  unfold State.parseStep
  split
  · left
    unfold State.parseEnd
    obtain ⟨w, e⟩ := tokBslash_shape s
    split
    · rw [e]; exact ⟨w, .send 0, [], by simp, by simp [State.goto, State.advance]⟩
    · exact goesOn_advance _ s
  · rename_i b _
    unfold State.parseByte
    split
    · exact .inr ⟨_, _, _, _, rfl⟩
    · left
      split
      · obtain ⟨w, e⟩ := frameByte_shape b s
        rw [e]; exact ⟨w, s.phase, [], by simp, by simp [State.advance]⟩
      · exact goesOn_stay s

theorem returnGrid_shape (f : List Byte) (u : State) : Returns u (u.returnGrid f) :=
  ⟨{ u.work with grid := gridOf u.cfg f }, u.phase, [], (gridOf u.cfg f).toList, by simp,
    by simp [State.returnGrid, State.finish]⟩

theorem refuse_shape (e : Info) (s : State) : Errs e s (s.refuse e) := ⟨s.work, s.phase, s.draws, rfl⟩

theorem raise_shape (e : Info) (s : State) : Errs e s (s.raise e) := ⟨_, s.phase, _, rfl⟩

/-- A request word that decodes to nothing ends with InvalidOpcode, whichever registers it leaves. -/
theorem rejectWord_shape (s : State) : Errs (.invalidOpcode s.req.sel s.req.spiop) s s.rejectWord := by
  unfold State.rejectWord
  split
  · exact refuse_shape _ s
  · exact raise_shape _ s

/-- A step that stays inside the block. -/
def Stays (i : Instr) (s : State) : Prop :=
  ∃ t, exec i s = .next t ∧ (GoesOn s t ∨ Returns s t ∨ ∃ e, Errs e s t ∧ e.code ≠ 0 ∧ e.code ≠ 7)

theorem stays_refuse {i : Instr} {s : State} {e : Info} (h : exec i s = .next (s.refuse e)) (h0 : e.code ≠ 0)
    (h7 : e.code ≠ 7) : Stays i s := ⟨_, h, .inr (.inr ⟨e, refuse_shape e s, h0, h7⟩)⟩

theorem stays_raise {i : Instr} {s : State} {e : Info} (h : exec i s = .next (s.raise e)) (h0 : e.code ≠ 0)
    (h7 : e.code ≠ 7) : Stays i s := ⟨_, h, .inr (.inr ⟨e, raise_shape e s, h0, h7⟩)⟩

/-- A check step, or the one after the last check, which sends a frame and then returns. -/
theorem afterChecks_shape {i : Instr} {s : State} {x : Xact} (cs : List Check) (k : List Byte → State → State)
    (h : exec i s = afterChecks cs (transact x k) s) (hk : ∀ bs u, Returns u (k bs u)) :
    exec i s = .fault .outOfSequence ∨ Stays i s ∨ ∃ x w, Sends i s x w := by
  rcases afterChecks_cases cs (transact x k) s with hf | ⟨n, hc⟩
  · exact .inl (h.trans hf)
  · rcases checkStep_cases cs (transact x k) n s with ⟨e, -, he⟩ | ⟨e, -, he⟩ | ⟨-, he⟩
    · exact .inr (.inl (stays_refuse (e := .invalidRegion e) ((h.trans hc).trans he) (by simp [Info.code]) (by simp [Info.code])))
    · exact .inr (.inl ⟨_, (h.trans hc).trans he, .inl (goesOn_advance _ s)⟩)
    · exact .inr (.inr ⟨x, s.work, sends_now k ((h.trans hc).trans he) (fun bs u => .inr (hk bs u))⟩)

/-- A check that passes sets the registers and goes on to a phase. -/
theorem stays_init {i : Instr} {s u : State} {p : Phase} (hu : u = { s with work := u.work })
    (h : exec i s = .next (u.goto p).advance) : Stays i s := by
  refine ⟨_, h, .inl ⟨u.work, p, [], by simp, ?_⟩⟩
  conv_lhs => rw [hu]
  simp [State.goto, State.advance]

/-- A check that passes sets the registers and returns. -/
theorem stays_done {i : Instr} {s u : State} (hu : u = { s with work := u.work })
    (h : exec i s = .next (u.finish [])) : Stays i s := by
  refine ⟨_, h, .inr (.inl ⟨u.work, s.phase, [], [], by simp, ?_⟩)⟩
  conv_lhs => rw [hu]
  simp [State.finish]

/-- A step that sends a frame and then returns. -/
theorem sends_then_returns {i : Instr} {s : State} {x : Xact} (k : List Byte → State → State)
    (h : exec i s = transact x k s) (hk : ∀ bs u, Returns u (k bs u)) : ∃ x w, Sends i s x w :=
  ⟨x, s.work, sends_now k h (fun bs u => .inr (hk bs u))⟩

theorem wait_shape (sr : Byte) (u : State) :
    GoesOn u (if wipSet u.cfg sr then u.advance else u.finish [sr]) ∨
      Returns u (if wipSet u.cfg sr then u.advance else u.finish [sr]) := by
  split
  · exact .inl (goesOn_stay u)
  · exact .inr (returns_finish _ u)

theorem ite_shape {u a b : State} (c : Bool) (ha : GoesOn u a) (hb : GoesOn u b ∨ Returns u b) :
    GoesOn u (if c then a else b) ∨ Returns u (if c then a else b) := by
  cases c
  · exact hb
  · exact .inl ha

theorem osdWrite_shape (text : List Byte) (s : State) (hp : s.phase = .start → s.pc = 0) :
    exec (.osdWrite text) s = .fault .outOfSequence ∨ Stays (.osdWrite text) s ∨
      ∃ x w, Sends (.osdWrite text) s x w := by
  have stays : ∀ u : State, exec (.osdWrite text) s = .next (u.parseStep text) →
      (∃ w ph, u = { s with work := w, phase := ph }) → Stays (.osdWrite text) s := by
    rintro u he ⟨w, ph, rfl⟩
    refine ⟨_, he, ?_⟩
    rcases parseStep_shape text { s with work := w, phase := ph } with ⟨w', ph', ev, hl, e⟩ | ⟨b, w', ph', d, e⟩
    · exact .inl ⟨w', ph', ev, hl, e⟩
    · exact .inr (.inr ⟨_, ⟨w', ph', d, e⟩, by simp [Info.code], by simp [Info.code]⟩)
  cases h : s.phase with
  | start =>
    refine .inr (.inl (stays ((s.osdInit).goto .parse) (by simp only [exec, execOsdWrite, h]) ⟨s.osdInit.work, .parse, ?_⟩))
    simp [State.osdInit, State.goto, hp h]
  | parse => exact .inr (.inl (stays s (by simp only [exec, execOsdWrite, h]) ⟨s.work, s.phase, rfl⟩))
  | send r =>
    cases hm : s.cfg.osdWriteMode with
    | rows =>
      by_cases hr : r < ROWS
      · have e : exec (.osdWrite text) s = sendRow r s := by
          simp only [exec, execOsdWrite, h, sendStep, hm, if_pos hr]
        rw [sendRow_eq] at e
        refine .inr (.inr ⟨_, _, sends_now _ e (fun _ u => ?_)⟩)
        split
        · exact .inl (goesOn_advance _ u)
        · exact .inr (returns_finish _ u)
      · exact .inl (by simp only [exec, execOsdWrite, h, sendStep, hm, if_neg hr])
    | frame =>
      have e : exec (.osdWrite text) s = sendFrame s := by simp only [exec, execOsdWrite, h, sendStep, hm]
      rw [sendFrame_eq] at e
      exact .inr (.inr (sends_then_returns _ e (fun _ u => returns_finish [] u)))
  | _ => exact .inl (by simp only [exec, execOsdWrite, h])

theorem sends_erasePoll {i : Instr} {s : State} {fin : State → State} (h : exec i s = stepErasePoll fin s)
    (hf : ∀ u, GoesOn u (fin u) ∨ Returns u (fin u)) (hev : ∀ u, (fin u).events = u.events) :
    ∃ x w, Sends i s x w := by
  rw [stepErasePoll_eq] at h
  exact ⟨_, _, sends_poll _ s _ h
    (fun sr u => ite_shape (wipSet u.cfg sr) (goesOn_stay u) (sectorDone_shape fin hf hev u))⟩

theorem sends_progPoll {i : Instr} {s : State} {len : Nat} (h : exec i s = stepProgPoll len (State.finish []) s) :
    ∃ x w, Sends i s x w := by
  rw [stepProgPoll_eq] at h
  exact ⟨_, _, sends_poll _ s _ h (fun sr u => ite_shape (wipSet u.cfg sr) (goesOn_stay u) (pageDone_shape len u))⟩

theorem sends_sector {i : Instr} {s : State} (h : exec i s = stepSector s) : ∃ x w, Sends i s x w := by
  rw [stepSector_eq] at h
  exact ⟨_, _, sends_now _ h (fun _ u => .inl (goesOn_advance _ u))⟩

theorem sends_page {i : Instr} {s : State} {d : List Byte} (h : exec i s = stepPage d s) : ∃ x w, Sends i s x w := by
  rw [stepPage_eq] at h
  exact ⟨_, _, sends_now _ h (fun _ u => .inl (goesOn_advance _ u))⟩

theorem sends_chunk_now {i : Instr} {s : State} (h : exec i s = stepChunk s) : ∃ x w, Sends i s x w := by
  rw [stepChunk_eq] at h
  exact ⟨_, _, sends_now _ h (fun bs u => chunkRead_shape bs u)⟩

theorem sends_chunk {i : Instr} {s : State} (w : Work) (h : exec i s = stepChunk { s with work := w }) :
    ∃ x w, Sends i s x w := by
  rw [stepChunk_eq] at h
  exact ⟨_, w, _, h, fun bs u => chunkRead_shape bs u⟩

/-- What one step of an operation can do. The premise is for `osd.write`, whose first step sets `pc` to 0. -/
theorem exec_shape (i : Instr) (s : State) (hi : i.isToken = false)
    (hp : ∀ text, i = .osdWrite text → s.phase = .start → s.pc = 0) :
    exec i s = .fault .outOfSequence ∨ Stays i s ∨ ∃ x w, Sends i s x w := by
  have fin : ∀ v u, GoesOn u (State.finish v u) ∨ Returns u (State.finish v u) := fun v u => .inr (returns_finish v u)
  cases i with
  | osdWrite text => exact osdWrite_shape text s (hp text rfl)
  | osdRead f =>
    by_cases h : f.length = FRAME_BYTES
    · exact .inr (.inl ⟨s.returnGrid f, by simp only [exec, execOsdRead, if_pos h], .inr (.inl (returnGrid_shape f s))⟩)
    · exact .inr (.inl (stays_raise (e := .layoutError FRAME_BYTES f.length) (by simp only [exec, execOsdRead, if_neg h])
        (by simp [Info.code]) (by simp [Info.code])))
  | osdDump => exact .inr (.inr (sends_then_returns _ (exec_osdDump_eq s) (fun bs u => returnGrid_shape bs u)))
  | flashWren => exact .inr (.inr (sends_then_returns _ (exec_flashWren_eq s) (fun _ u => returns_finish [] u)))
  | flashRdsr => exact .inr (.inr ⟨_, _, sends_poll _ s _ (exec_flashRdsr_eq s) (fun sr u => fin [sr] u)⟩)
  | flashWait => exact .inr (.inr ⟨_, _, sends_poll _ s _ (exec_flashWait_eq s) wait_shape⟩)
  | flashRead a n => exact afterChecks_shape _ _ (exec_flashRead_eq a n s) (fun bs u => returns_finish bs u)
  | flashPp a p => exact afterChecks_shape _ _ (exec_flashPp_eq a p s) (fun _ u => returns_finish [] u)
  | flashSe a => exact afterChecks_shape _ _ (exec_flashSe_eq a s) (fun _ u => returns_finish [] u)
  | flashBe =>
    exact .inr (.inl (stays_refuse (e := .forbiddenOpcode s.cfg.opBe) rfl (by simp [Info.code]) (by simp [Info.code])))
  | flashCmd op =>
    exact .inr (.inl (stays_refuse (e := .invalidOpcode 0x10 op) rfl (by simp [Info.code]) (by simp [Info.code])))
  | flashErase a b =>
    cases h : s.phase with
    | start =>
      by_cases h1 : a % s.cfg.geo.sector ≠ 0 ∨ a < s.cfg.geo.upgStart ∨ s.cfg.geo.upgLast + 1 < b
      · exact .inr (.inl (stays_raise (e := .invalidRegion (.eraseRange a b)) (by simp only [exec, execFlashErase, h, if_pos h1])
          (by simp [Info.code]) (by simp [Info.code])))
      · by_cases h2 : a < b
        · exact .inr (.inl (stays_init (u := s.eraseInit a b) (p := .eraseWren) rfl
            (by simp only [exec, execFlashErase, h, if_neg h1, if_pos h2])))
        · exact .inr (.inl (stays_done (u := s.eraseInit a b) rfl
            (by simp only [exec, execFlashErase, h, if_neg h1, if_neg h2])))
    | eraseWren => exact .inr (.inr ⟨_, _, sends_wren_now _ s .eraseSector (by simp only [exec, execFlashErase, h])⟩)
    | eraseSector => exact .inr (.inr (sends_sector (by simp only [exec, execFlashErase, h])))
    | erasePoll => exact .inr (.inr (sends_erasePoll (by simp only [exec, execFlashErase, h]) (fin []) (fun _ => rfl)))
    | _ => exact .inl (by simp only [exec, execFlashErase, h])
  | flashWrite a d =>
    cases h : s.phase with
    | start =>
      by_cases h1 : a < s.cfg.geo.upgStart ∨ s.cfg.geo.upgLast + 1 < a + d.length
      · exact .inr (.inl (stays_raise (e := .invalidRegion (.writeRange a d.length))
          (by simp only [exec, execFlashWrite, h, if_pos h1]) (by simp [Info.code]) (by simp [Info.code])))
      · by_cases h2 : d.length = 0
        · exact .inr (.inl (stays_done (u := s.progInit a d.length) rfl
            (by simp only [exec, execFlashWrite, h, if_neg h1, if_pos h2])))
        · exact .inr (.inl (stays_init (u := s.progInit a d.length) (p := .progWren) rfl
            (by simp only [exec, execFlashWrite, h, if_neg h1, if_neg h2])))
    | progWren => exact .inr (.inr ⟨_, _, sends_wren_now _ s .progPage (by simp only [exec, execFlashWrite, h])⟩)
    | progPage => exact .inr (.inr (sends_page (d := d) (by simp only [exec, execFlashWrite, h])))
    | progPoll => exact .inr (.inr (sends_progPoll (len := d.length) (by simp only [exec, execFlashWrite, h])))
    | _ => exact .inl (by simp only [exec, execFlashWrite, h])
  | flashFw d =>
    cases h : s.phase with
    | start =>
      by_cases h1 : s.cfg.geo.minFw < d.length ∧ d.length < s.cfg.geo.maxFwExcl
      · exact .inr (.inl (stays_init (u := s.eraseInit s.cfg.geo.upgStart (s.cfg.geo.upgLast + 1)) (p := .eraseWren) rfl
          (by simp only [exec, execFlashFw, h, if_pos h1])))
      · exact .inr (.inl (stays_raise (e := .invalidImageSize d.length s.cfg.geo.minFw s.cfg.geo.maxFwExcl)
          (by simp only [exec, execFlashFw, h, if_neg h1]) (by simp [Info.code]) (by simp [Info.code])))
    | eraseWren => exact .inr (.inr ⟨_, _, sends_wren_now _ s .eraseSector (by simp only [exec, execFlashFw, h])⟩)
    | eraseSector => exact .inr (.inr (sends_sector (by simp only [exec, execFlashFw, h])))
    | erasePoll =>
      exact .inr (.inr (sends_erasePoll (by simp only [exec, execFlashFw, h]) (fun u => .inl (fwErased_shape d.length u))
        (fun _ => rfl)))
    | progWren => exact .inr (.inr ⟨_, _, sends_wren_now _ s .progPage (by simp only [exec, execFlashFw, h])⟩)
    | progPage => exact .inr (.inr (sends_page (d := d) (by simp only [exec, execFlashFw, h])))
    | progPoll => exact .inr (.inr (sends_progPoll (len := d.length) (by simp only [exec, execFlashFw, h])))
    | _ => exact .inl (by simp only [exec, execFlashFw, h])
  | flashReadfw =>
    cases h : s.phase with
    | start => exact .inr (.inr (sends_chunk s.readInit.work (show _ = stepChunk s.readInit by simp only [exec, execFlashReadfw, h])))
    | readChunk => exact .inr (.inr (sends_chunk_now (by simp only [exec, execFlashReadfw, h])))
    | _ => exact .inl (by simp only [exec, execFlashReadfw, h])
  | _ => exact absurd hi (by simp [Instr.isToken])

end Sys2Proof.Machine
end

