-- ==== Sys2Proof/Machine/Assembly.lean ====
section
/-!
DEFINITION. The spec's own syntax for operations (30 R91): the line that writes one request. Numbers are decimal, which
the syntax allows; a string is written with the C-style escapes of 00 R10 and octal escapes for the bytes that do not
print (log 25). A token is no request and has no line.
-/

namespace Sys2Proof.Machine

open Sys2Proof (Byte Instr)

/-- A byte as three octal digits. -/
def octal (b : Byte) : String :=
  String.ofList [Nat.digitChar (b.toNat / 64), Nat.digitChar (b.toNat / 8 % 8), Nat.digitChar (b.toNat % 8)]

/-- One byte of a quoted string. -/
def quoteByte (b : Byte) : String :=
  if b = 0x5C then "\\\\"
  else if b = 0x22 then "\\\""
  else if b = 0x0A then "\\n"
  else if 0x20 ≤ b ∧ b ≤ 0x7E then String.ofList [Char.ofNat b.toNat]
  else "\\" ++ octal b

/-- A quoted string. -/
def quoteText (bs : List Byte) : String := "\"" ++ String.join (bs.map quoteByte) ++ "\""

/-- A byte list `[b0, b1, ...]`. -/
def byteListText (bs : List Byte) : String := "[" ++ String.intercalate ", " (bs.map (fun b => toString b.toNat)) ++ "]"

/-- The line of one request (30 R91). -/
def asmLine : Instr → Option String
  | .invOn | .invOff | .newline | .pad | .bslash | .char _ | .invalid _ => none
  | .osdWrite text => some ("osd.write " ++ quoteText text)
  | .osdRead frame => some ("osd.read " ++ byteListText frame)
  | .osdDump => some "osd.dump"
  | .flashWren => some "flash.wren"
  | .flashRdsr => some "flash.rdsr"
  | .flashRead a n => some ("flash.read " ++ toString a ++ ", " ++ toString n)
  | .flashPp a p => some ("flash.pp " ++ toString a ++ ", " ++ byteListText p)
  | .flashSe a => some ("flash.se " ++ toString a)
  | .flashBe => some "flash.be"
  | .flashCmd op => some ("flash.cmd " ++ toString op.toNat)
  | .flashWait => some "flash.wait"
  | .flashErase s e => some ("flash.erase " ++ toString s ++ ", " ++ toString e)
  | .flashWrite s d => some ("flash.write " ++ toString s ++ ", " ++ byteListText d)
  | .flashFw img => some ("flash.fw " ++ byteListText img)
  | .flashReadfw => some "flash.readfw"

end Sys2Proof.Machine
end

