-- ==== Sys2Proof/Tests/Slice0.lean ====
section
/-!
SUPPORT. Tests. Expected values come from the spec: the encodings of 30, and the vectors of 95, named in each test
(O, RD, W, FL, Q and P are the vectors' own numbers). After them, for each statement with hypotheses, a concrete state
and operands that meet them.
-/

open Sys2Proof Sys2Proof.Machine

section Sequential

-- Many small kernel evaluations: checked one after another, not each in a waiting thread of its own.
set_option Elab.async false

/-! ## Well-formedness: ill-formed terms are refused -/

theorem test_wf_char_nul_refused : (Instr.char 0x00).wf Config.defaults = false := by decide
theorem test_wf_char_lf_refused : (Instr.char 0x0A).wf Config.defaults = false := by decide
theorem test_wf_char_backslash_refused : (Instr.char 0x5C).wf Config.defaults = false := by decide
theorem test_wf_cmd_of_known_opcode_refused : (Instr.flashCmd 0x06).wf Config.defaults = false := by decide
theorem test_wf_repeated_opcode_refused : { Config.defaults with opSe := 0x02 }.wf = false := by decide
theorem test_wf_empty_mask_refused : { Config.defaults with wipMask := 0x00 }.wf = false := by decide
theorem test_wf_two_bit_mask_refused : { Config.defaults with wipMask := 0x03 }.wf = false := by decide
theorem test_wf_unaligned_region_refused :
    { Config.defaults with geo := { Geometry.defaults with upgStart := 0x081000 } }.wf = false := by decide
theorem test_wf_overlapping_regions_refused :
    { Config.defaults with geo := { Geometry.defaults with flashTunnel := 0x027F } }.wf = false := by decide
theorem test_wf_defaults_accepted : Config.defaults.wf = true := by decide

/-- 00 R7: UPG_SIZE is 0x080000 and MAX_FW_EXCL is `0x0FFFFF - 0x080000`. -/
theorem test_default_sizes : Geometry.defaults.upgSize = 0x080000 ∧
    Geometry.defaults.maxFwExcl = Geometry.defaults.upgLast - Geometry.defaults.upgStart := by decide

/-! ## Decoding: words written out from 30 R69 and R80 (and W1 to W10) -/

theorem test_decode_inv_on : decodeTableWord 16 0b0101110001101001 = some .invOn := by decide
theorem test_decode_inv_off : decodeTableWord 16 0b0101110001110101 = some .invOff := by decide
theorem test_decode_newline : decodeTableWord 8 0b00001010 = some .newline := by decide
theorem test_decode_pad : decodeTableWord 8 0b00000000 = some .pad := by decide
theorem test_decode_bslash : decodeTableWord 8 0b01011100 = some .bslash := by decide
theorem test_decode_char : decodeTableWord 8 0b01000001 = some (.char 0b1000001) := by decide
theorem test_decode_invalid : decodeTableWord 8 0b11000011 = some (.invalid 0b1000011) := by decide
theorem test_decode_osd_write : decodeTableWord 16 0b0000000100000000 = some (.osdWrite []) := by decide
theorem test_decode_osd_read : decodeTableWord 16 0b0000001000000000 = some (.osdRead []) := by decide
theorem test_decode_osd_dump : decodeTableWord 16 0b0000001100000000 = some .osdDump := by decide
theorem test_decode_wren : decodeTableWord 16 0b0001000000000110 = some .flashWren := by decide
theorem test_decode_rdsr : decodeTableWord 16 0b0001000000000101 = some .flashRdsr := by decide
theorem test_decode_read : decodeTableWord 16 0b0001000000000011 = some (.flashRead 0 0) := by decide
theorem test_decode_pp : decodeTableWord 16 0b0001000000000010 = some (.flashPp 0 []) := by decide
theorem test_decode_se : decodeTableWord 16 0b0001000011011000 = some (.flashSe 0) := by decide
theorem test_decode_be : decodeTableWord 16 0b0001000011000111 = some .flashBe := by decide
theorem test_decode_cmd : decodeTableWord 16 0b0001000010011111 = some (.flashCmd 0b10011111) := by decide
theorem test_decode_wait : decodeTableWord 16 0b0001000100000000 = some .flashWait := by decide
theorem test_decode_erase : decodeTableWord 16 0b0010000000000000 = some (.flashErase 0 0) := by decide
theorem test_decode_write : decodeTableWord 16 0b0010000100000000 = some (.flashWrite 0 []) := by decide
theorem test_decode_fw : decodeTableWord 16 0b0010001000000000 = some (.flashFw []) := by decide
theorem test_decode_readfw : decodeTableWord 16 0b0010001100000000 = some .flashReadfw := by decide

/-- W2, W3, W8, W10. -/
theorem test_decode_refused_words :
    [0x0101, 0x0400, 0x1105, 0xFF00].map (decodeTableWord 16) = [none, none, none, none] := by decide

/-- 30 R77: in `\\i` the first backslash is BSLASH and the second begins INV_ON; O11: `\I` is BSLASH and CHAR. -/
theorem test_decode_text : decodeText [0x5C, 0x5C, 0x69, 0x5C, 0x49] = [.bslash, .invOn, .bslash, .char 0x49] := by
  decide

/-- FL3: the operands of a request. -/
theorem test_decode_operands :
    decodeRequest Config.defaults { spiRequest 0x03 with addr := 0x0ABCDE, n := 4, stop := 7, data := [0xAA] } =
      .ok (.flashRead 0x0ABCDE 4) := by decide

/-- The wire column of the opcode table is the SPI opcode of the command's frame (30 R87). -/
theorem test_table_wire_opcodes :
    opcodeTable.filterMap (fun r => r.wire) = [0x06, 0x05, 0x03, 0x02, 0xD8, 0xC7, 0x05, 0xD8, 0x02, 0x03] := by decide

/-- 30 R91: a string with C-style escapes. -/
theorem test_asm_line : asmLine (.osdWrite [0x41, 0x5C, 0x69, 0x0A]) = some "osd.write \"A\\\\i\\n\"" := by decide +kernel

/-! ## The step runs a placed word as the first instruction after reset -/

theorem test_fetch_invalid_opcode :
    ∃ t, step (State.reset.withFetchWord 16 0x0400) = .next t ∧ t.err = 1 ∧ t.busy = false := ⟨_, rfl, rfl, rfl⟩

/-- W8, 41 R125 (1): a `flash.wait` word with a non-zero `spiop` changes no register but ERR. -/
theorem test_fetch_wait_word_keeps_registers :
    ∃ t, step (State.reset.withFetchWord 16 0x1105) = .next t ∧ t.err = 1 ∧ t.work = Work.zero := ⟨_, rfl, rfl, rfl⟩

/-- 10 R24: the first check of `flash.se`, address 0, is a step, and so is the second, which refuses it. -/
theorem test_fetch_se :
    ∃ t, step (State.reset.withFetchWord 16 0x10D8) = .next t ∧ t.busy = true ∧ t.pc = 1 ∧ t.phase = .checked 1 :=
  ⟨_, rfl, rfl, rfl, rfl⟩

theorem test_fetch_be : ∃ t, step (State.reset.withFetchWord 16 0x10C7) = .next t ∧ t.err = 2 := ⟨_, rfl, rfl⟩

theorem test_fetch_inv_on :
    ∃ t, step (State.reset.withFetchWord 16 0x5C69) = .next t ∧ t.work.inv = true ∧ t.pc = 2 := ⟨_, rfl, rfl, rfl⟩

theorem test_fetch_char :
    ∃ t, step (State.reset.withFetchWord 8 0x41) = .next t ∧ t.work.col = 1 ∧ t.pc = 1 := ⟨_, rfl, rfl, rfl⟩

theorem test_fetch_bslash :
    ∃ t, step (State.reset.withFetchWord 8 0x5C) = .next t ∧ t.work.col = 1 ∧ t.work.esc = false := ⟨_, rfl, rfl, rfl⟩

theorem test_core_reset : Sys2Proof.core.reset = State.reset := rfl

/-! ## Small states -/

/-- A busy block with a request, a phase, working registers and the device's next replies. -/
def busyState (r : Request) (p : Phase) (w : Work) (rs : List Reply) : State :=
  { State.reset with busy := true, req := r, phase := p, work := w, replies := rs }

/-- A busy block that runs the parser on a text from byte `k` on. -/
def parsing (text : List Byte) (k : Nat) (w : Work) : State :=
  { busyState { requestOf 0x01 with data := text } .parse w [] with pc := k }

/-- The parser's registers of 95 P5 before its fifth row: row 0, column 2, inverse. -/
def inverseWork : Work := { Work.zero with col := 2, inv := true }

/-- The result, the error code and the frames of a step. -/
def seen (o : Out) : Option (List (Byte × List Byte) × Byte × List Xact) :=
  match o with
  | .next t => some (t.results.map (fun r => (r.status, r.value)), t.err, t.bus)
  | .fault _ => none
  | .refused _ => none

/-- The context of the last result of a step. -/
def lastInfo (o : Out) : Option Info :=
  match o with
  | .next t => t.results.getLast?.map (fun r => r.info)
  | .fault _ => none
  | .refused _ => none

/-- A register read out of a step's next state. -/
def reg {α : Type} (o : Out) (f : Work → α) : Option α :=
  match o with
  | .next t => some (f t.work)
  | .fault _ => none
  | .refused _ => none

/-- The step goes on to a next state with a property. -/
def nextIs (o : Out) (p : State → Bool) : Bool :=
  match o with
  | .next t => p t
  | .fault _ => false
  | .refused _ => false

theorem next_of {o : Out} {p : State → Bool} (h : nextIs o p = true) : ∃ t, o = .next t ∧ p t = true := by
  cases o with
  | next t => exact ⟨t, rfl, h⟩
  | fault _ => exact absurd h (by simp [nextIs])
  | refused _ => exact absurd h (by simp [nextIs])

theorem test_route_wren : route Config.defaults (.write [0x70, 0x00, 0x06]) = some .wren := by decide
theorem test_route_rdsr : route Config.defaults (.exchange [0x70, 0x00, 0x05] 1) = some (.rdsr 1) := by decide
theorem test_route_wrenXact : route Config.defaults (wrenXact Config.defaults) = some .wren := by decide
theorem test_route_rdsrXact : route Config.defaults (rdsrXact Config.defaults) = some (.rdsr 1) := by decide

/-! ## Tokens (95 P5, O13, O14, O12) -/

theorem test_inv_on : reg (exec .invOn (parsing [] 0 Work.zero)) (fun w => (w.inv, w.col)) = some (true, 0) := by
  decide +kernel

theorem test_inv_off : reg (exec .invOff (parsing [] 0 inverseWork)) (fun w => (w.inv, w.col)) = some (false, 2) := by
  decide +kernel

theorem test_newline :
    reg (exec .newline (parsing [] 0 inverseWork)) (fun w => (w.row, w.col, w.inv)) = some (1, 0, false) := by
  decide +kernel

/-- O10: an inverse pad is 80. -/
theorem test_pad : reg (exec .pad (parsing [] 0 inverseWork)) (fun w => (w.fb.toList[2]?, w.col)) = some (some 0x80, 3) := by
  decide +kernel

/-- O14: an inverse backslash is DC. -/
theorem test_bslash :
    reg (exec .bslash (parsing [] 0 { inverseWork with esc := true })) (fun w => (w.fb.toList[2]?, w.esc)) =
      some (some 0xDC, false) := by decide +kernel

/-- O13: an inverse 7F is FF. -/
theorem test_char : reg (exec (.char 0x7F) (parsing [] 0 inverseWork)) (fun w => w.fb.toList[2]?) = some (some 0xFF) := by
  decide +kernel

/-- Row 1, column 39: the cell is byte 79 of the frame (10 R30). -/
theorem test_char_last_column :
    reg (exec (.char 0x41) (parsing [] 0 { Work.zero with row := 1, col := 39 })) (fun w => (w.fb.toList[79]?, w.col)) =
      some (some 0x41, 40) := by decide +kernel

/-- O12: byte C3 at index 1. -/
theorem test_invalid : lastInfo (exec (.invalid 0x43) (parsing [0x41, 0xC3, 0x42] 1 Work.zero)) =
    some (.invalidCharacter 1 0xC3) := by decide +kernel

/-! ## OSD operations -/

/-- P5, pc 5: a held backslash before LF becomes a cell, then the row ends. -/
theorem test_parse_held_backslash_then_lf :
    reg (step (parsing [0x41, 0x5C, 0x69, 0x42, 0x5C, 0x0A, 0x43] 5 { inverseWork with esc := true }))
      (fun w => (w.fb.toList[2]?, w.row, w.col, w.inv, w.esc)) = some (some 0xDC, 1, 0, false, false) := by decide +kernel

/-- S1: the whole-text form. -/
theorem test_frame_s1 : (frameOf [0x41, 0x42, 0x5C, 0x69, 0x58, 0x59, 0x5C, 0x75, 0x43, 0x44]).take 7 =
    [0x41, 0x42, 0xD8, 0xD9, 0x43, 0x44, 0x00] := by decide +kernel

/-- O1: row 15 goes to 0258, and the operation returns. -/
theorem test_send_row : seen (exec (.osdWrite []) (busyState (requestOf 0x01) (.send 15) Work.zero [.own])) =
    some ([(0, [])], 0, [.write ([0x02, 0x58] ++ List.replicate 40 0x00)]) := by decide +kernel

/-- RD1. -/
theorem test_osd_read :
    reg (exec (.osdRead ([0x41, 0x20, 0x7E, 0x7F, 0x00, 0xC1, 0x1F, 0xFF] ++ List.replicate 632 0x00)) State.reset)
      (fun w => w.grid.toList.take 9) = some [0x41, 0x20, 0x7E, 0x2E, 0x2E, 0x2E, 0x2E, 0x2E, 0x2E] := by decide +kernel

/-- RD2. -/
theorem test_osd_read_length : lastInfo (exec (.osdRead (List.replicate 639 0x41)) State.reset) =
    some (.layoutError 640 639) := by decide +kernel

/-- RD5. -/
theorem test_osd_dump :
    seen (exec .osdDump { State.reset with replies := [.bytes (List.replicate 640 0x5A)] }) =
      some ([(0, List.replicate 640 0x5A)], 0, [.exchange [0x00, 0x00] 640]) := by decide +kernel

/-- RD6. -/
theorem test_osd_dump_fails : lastInfo (exec .osdDump { State.reset with replies := [.error 9] }) =
    some (.transportError (.reported 9)) := by decide +kernel

/-! ## Flash primitives -/

/-- FL1. -/
theorem test_wren : seen (exec .flashWren { State.reset with replies := [.own] }) =
    some ([(0, [])], 0, [.write [0x70, 0x00, 0x06]]) := by decide +kernel

/-- FL2. -/
theorem test_rdsr : seen (exec .flashRdsr { State.reset with replies := [.bytes [0x03]] }) =
    some ([(0, [0x03])], 0, [.exchange [0x70, 0x00, 0x05] 1]) := by decide +kernel

/-- FL3, after its two checks. -/
theorem test_read : seen (exec (.flashRead 0x0ABCDE 4) (busyState (spiRequest 0x03) (.checked 2) Work.zero
    [.bytes [1, 2, 3, 4]])) = some ([(0, [1, 2, 3, 4])], 0, [.exchange [0x70, 0x00, 0x03, 0x0A, 0xBC, 0xDE] 4]) := by
  decide +kernel

/-- FL8, the second check. -/
theorem test_read_not_truncated : lastInfo (exec (.flashRead 0x1000000 1) (busyState (spiRequest 0x03) (.checked 1)
    Work.zero [])) = some (.invalidRegion (.size 0x1000000 (some 1) 0x100000)) := by decide +kernel

/-- FL9, after its three checks. -/
theorem test_pp : seen (exec (.flashPp 0x080000 [0x11, 0x22]) (busyState (spiRequest 0x02) (.checked 3) Work.zero
    [.own])) = some ([(0, [])], 0, [.write [0x70, 0x00, 0x02, 0x08, 0x00, 0x00, 0x11, 0x22]]) := by decide +kernel

/-- FL16: the length check comes before the region check. -/
theorem test_pp_check_order : lastInfo (exec (.flashPp 0x07FFF0 (List.replicate 32 0x00)) State.reset) =
    some (.invalidRegion (.page 0x07FFF0 32 256)) := by decide +kernel

/-- FL18, after its two checks. -/
theorem test_se_unaligned : seen (exec (.flashSe 0x0FFFFF) (busyState (spiRequest 0xD8) (.checked 2) Work.zero
    [.own])) = some ([(0, [])], 0, [.write [0x70, 0x00, 0xD8, 0x0F, 0xFF, 0xFF]]) := by decide +kernel

/-- FL20: the size check comes first. -/
theorem test_se_check_order : lastInfo (exec (.flashSe 0x100000) State.reset) =
    some (.invalidRegion (.size 0x100000 none 0x100000)) := by decide +kernel

/-- FL21. -/
theorem test_be : lastInfo (exec .flashBe State.reset) = some (.forbiddenOpcode 0xC7) := by decide +kernel

/-- W5. -/
theorem test_cmd : lastInfo (exec (.flashCmd 0x9F) State.reset) = some (.invalidOpcode 0x10 0x9F) := by decide +kernel

/-- FL22, the first poll: the wait goes on. -/
theorem test_wait_goes_on : seen (exec .flashWait { State.reset with replies := [.bytes [0x03]] }) =
    some ([], 0, [.exchange [0x70, 0x00, 0x05] 1]) := by decide +kernel

/-- FL24: WEL alone ends the wait. -/
theorem test_wait_ends : seen (exec .flashWait { State.reset with replies := [.bytes [0x02]] }) =
    some ([(0, [0x02])], 0, [.exchange [0x70, 0x00, 0x05] 1]) := by decide +kernel

/-! ## Flash sequences -/

/-- Q2, the check: the registers of 42 R140, before any frame. -/
theorem test_erase_first : reg (exec (.flashErase 0x080000 0x080001) { State.reset with replies := [.own] })
    (fun w => (w.faddr, w.fend, w.doneBytes)) = some (0x080000, 0x080001, 0) := by decide +kernel

/-- Q7: the end is past the upgrade region. -/
theorem test_erase_range : lastInfo (exec (.flashErase 0x0F0000 0x100001) State.reset) =
    some (.invalidRegion (.eraseRange 0x0F0000 0x100001)) := by decide +kernel

/-- Q9, the second page program: 44 bytes at 080100. -/
theorem test_write_second_chunk :
    seen (exec (.flashWrite 0x080000 (List.replicate 256 0x00 ++ List.replicate 44 0x55))
      (busyState (requestOf 0x21) .progPage { Work.zero with faddr := 0x080100, foff := 256 } [.own])) =
      some ([], 0, [.write ([0x70, 0x00, 0x02, 0x08, 0x01, 0x00] ++ List.replicate 44 0x55)]) := by decide +kernel

/-- Q13. -/
theorem test_write_range : lastInfo (exec (.flashWrite 0x0FFF01 (List.replicate 256 0x00)) State.reset) =
    some (.invalidRegion (.writeRange 0x0FFF01 256)) := by decide +kernel

/-- P6, request 3. -/
theorem test_fw_size : lastInfo (exec (.flashFw (List.replicate 300 0x00)) State.reset) =
    some (.invalidImageSize 300 400000 0x7FFFF) := by decide +kernel

/-- 42 R147: the poll that ends the erase starts the write at 080000. -/
theorem test_fw_erase_to_write :
    reg (exec (.flashFw [0x11, 0x22]) (busyState (requestOf 0x22) .erasePoll
      { Work.zero with faddr := 0x0F0000, fend := 0x100000, doneBytes := 0x70000 } [.bytes [0x00]]))
      (fun w => (w.faddr, w.fend, w.foff, w.doneBytes)) = some (0x080000, 0x080002, 0, 0) := by decide +kernel

/-- Q20, the last read: FADDR is past the region and the operation returns. -/
theorem test_readfw_last :
    (seen (exec .flashReadfw (busyState (requestOf 0x23) .readChunk
      { Work.zero with faddr := 0x0FFC00, doneBytes := 0x7FC00 } [.bytes (List.replicate 1024 0xFF)]))).map (fun x => x.2) =
      some (0, [.exchange [0x70, 0x00, 0x03, 0x0F, 0xFC, 0x00] 1024]) := by decide +kernel

/-- Q21: a read that fails ends the operation with no value. -/
theorem test_readfw_fails : seen (exec .flashReadfw { State.reset with replies := [.error 5] }) =
    some ([(7, [])], 7, [.exchange [0x70, 0x00, 0x03, 0x08, 0x00, 0x00] 1024]) := by decide +kernel

/-! ## A state and operands that meet the hypotheses of each statement that has some, clause by clause -/

/-- A request stands accepted in the state after reset, with the device's next replies. -/
def startState (r : Request) (rs : List Reply) : State := busyState r .start Work.zero rs

/-- A text at the byte the parser reads next. -/
abbrev parserAt (text : List Byte) (s : State) : Prop :=
  s.resetIn = .off ∧ s.busy = true ∧ s.phase = .parse ∧ decodeRequest s.cfg s.req = .ok (.osdWrite text)

theorem test_hyp_DecodeOfEncodeIsTheInstruction : Config.defaults.wf = true ∧
    (Instr.char 0x7F).wf Config.defaults = true ∧ (Instr.flashCmd 0xFF).wf Config.defaults = true := by decide

theorem test_hyp_DecodedRequestHasItsOwnWord :
    decodeRequest Config.defaults ⟨0x20, 0x00, 0x1000000, 7, 9, [0xAA]⟩ = .ok (.flashErase 0x1000000 7) := rfl

/-- 41 R139: `flash.wren` ignores `n` and `data`. -/
theorem test_hyp_DecodedRequestHasItsOwnWord_fields :
    SameOperands Config.defaults { spiRequest 0x06 with n := 5, data := [0xAA] } (spiRequest 0x06) :=
  ⟨rfl, rfl, fun h => absurd h (by decide), fun h => absurd h (by decide), fun h => absurd h (by decide),
   fun h => absurd h (by decide)⟩

theorem test_hyp_RequestWordsRejectedExactly :
    (0x24 : Byte) ∉ ([0x01, 0x02, 0x03, 0x10, 0x11, 0x20, 0x21, 0x22, 0x23] : List Byte) ∧
    (0x23 : Byte) ∈ ([0x01, 0x02, 0x03, 0x11, 0x20, 0x21, 0x22, 0x23] : List Byte) ∧ (0x01 : Byte) ≠ 0 := by decide

theorem test_hyp_StepRunsTheDecodedRequest :
    (∃ s : State, s.resetIn = .off ∧ s.busy = true ∧ decodeRequest s.cfg s.req = .ok .flashReadfw) ∧
    (∃ s : State, ∃ e, s.resetIn = .off ∧ s.busy = true ∧ decodeRequest s.cfg s.req = .error e ∧ s.req.sel = 0x11) ∧
    (∃ s : State, ∃ e, s.resetIn = .off ∧ s.busy = true ∧ decodeRequest s.cfg s.req = .error e ∧ s.req.sel ≠ 0x11) :=
  ⟨⟨startState (requestOf 0x23) [], rfl, rfl, rfl⟩,
   ⟨startState { requestOf 0x11 with spiop := 0x05 } [], _, rfl, rfl, rfl, rfl⟩,
   ⟨startState (requestOf 0x24) [], _, rfl, rfl, rfl, (by decide : (0x24 : Byte) ≠ 0x11)⟩⟩

theorem test_hyp_ParserStepRunsItsToken :
    (∃ text s, parserAt text s ∧ text[s.pc]? = some 0x69 ∧ s.work.esc = true) ∧
    (∃ text s, parserAt text s ∧ text[s.pc]? = some 0x75 ∧ s.work.esc = true) ∧
    (∃ text s b, parserAt text s ∧ text[s.pc]? = some b ∧ b.toNat < 0x80 ∧ s.work.esc = false ∧ b ≠ 0x5C) ∧
    (∃ text s b, parserAt text s ∧ text[s.pc]? = some b ∧ b.toNat < 0x80 ∧ s.work.esc = true ∧
      s.work.row.toNat < 16 ∧ b ≠ 0x69 ∧ b ≠ 0x75 ∧ b ≠ 0x5C) :=
  ⟨⟨[0x5C, 0x69], parsing [0x5C, 0x69] 1 { Work.zero with esc := true }, ⟨rfl, rfl, rfl, rfl⟩, rfl, rfl⟩,
   ⟨[0x5C, 0x75], parsing [0x5C, 0x75] 1 { Work.zero with esc := true }, ⟨rfl, rfl, rfl, rfl⟩, rfl, rfl⟩,
   ⟨[0x7F], parsing [0x7F] 0 Work.zero, 0x7F, ⟨rfl, rfl, rfl, rfl⟩, rfl, by decide, rfl, by decide⟩,
   ⟨[0x5C, 0x0A], parsing [0x5C, 0x0A] 1 { Work.zero with row := 15, esc := true }, 0x0A, ⟨rfl, rfl, rfl, rfl⟩, rfl,
     by decide, rfl, by decide, by decide, by decide, by decide⟩⟩

theorem test_hyp_ParserHoldsAndReleasesBackslashes :
    (∃ text s, parserAt text s ∧ text[s.pc]? = some 0x5C ∧ s.work.esc = false ∧ s.work.row.toNat < 16) ∧
    (∃ text s, parserAt text s ∧ text[s.pc]? = some 0x5C ∧ s.work.esc = true ∧ s.work.row.toNat < 16) ∧
    (∃ text s, parserAt text s ∧ text[s.pc]? = some 0x5C ∧ (0x5C : Byte).toNat < 0x80 ∧ 16 ≤ s.work.row.toNat) ∧
    (∃ text s, parserAt text s ∧ text[s.pc]? = none ∧ s.work.esc = false) ∧
    (∃ text s, parserAt text s ∧ text[s.pc]? = none ∧ s.work.esc = true) ∧
    (∃ text s b, parserAt text s ∧ text[s.pc]? = some b ∧ 0x80 ≤ b.toNat) :=
  ⟨⟨[0x5C], parsing [0x5C] 0 { Work.zero with row := 15 }, ⟨rfl, rfl, rfl, rfl⟩, rfl, rfl, by decide⟩,
   ⟨[0x5C, 0x5C], parsing [0x5C, 0x5C] 1 { Work.zero with esc := true }, ⟨rfl, rfl, rfl, rfl⟩, rfl, rfl, by decide⟩,
   ⟨[0x5C], parsing [0x5C] 0 { Work.zero with row := 16 }, ⟨rfl, rfl, rfl, rfl⟩, rfl, by decide, by decide⟩,
   ⟨[], parsing [] 0 Work.zero, ⟨rfl, rfl, rfl, rfl⟩, rfl, rfl⟩,
   ⟨[0x5C], parsing [0x5C] 1 { Work.zero with esc := true }, ⟨rfl, rfl, rfl, rfl⟩, rfl, rfl⟩,
   ⟨[0x80], parsing [0x80] 0 Work.zero, 0x80, ⟨rfl, rfl, rfl, rfl⟩, rfl, by decide⟩⟩

theorem test_hyp_RequestsAreAcceptedOnlyWhileIdle :
    (∃ s : State, s.resetIn = .off ∧ s.busy = false ∧ s.requests = []) ∧
    (∃ (s : State) (r : Request) (rest : List Request), s.resetIn = .off ∧ s.busy = false ∧ s.requests = r :: rest) ∧
    (∃ s t : State, s.resetIn = .off ∧ s.busy = true ∧ step s = .next t) :=
  ⟨⟨State.reset, rfl, rfl, rfl⟩, ⟨{ State.reset with requests := [requestOf 0x03] }, _, _, rfl, rfl, rfl⟩,
   ⟨startState (spiRequest 0xC7) [], _, rfl, rfl, rfl⟩⟩

theorem test_hyp_ResetPutsEveryRegisterInItsResetValue : ∃ s : State, s.resetIn = .between :=
  ⟨{ State.reset with resetIn := .between }, rfl⟩

theorem test_hyp_ResetInFlightEndsWithoutAResult : ∃ s : State, s.resetIn = .during :=
  ⟨{ startState (spiRequest 0x06) [] with resetIn := .during }, rfl⟩

theorem test_hyp_MarkersAndNewlineProduceNoCell : ∃ s : State, s.work.row.toNat < 16 :=
  ⟨parsing [] 0 { Work.zero with row := 15 }, by decide⟩

theorem test_hyp_CharacterTokensPutOneCell : ∃ (s : State) (x : BitVec 7) (b : Byte), s.work.row.toNat < 16 ∧
    s.work.col.toNat < 40 ∧ b.toNat = x.toNat :=
  ⟨parsing [] 0 { Work.zero with row := 15, col := 39 }, 0x7F, 0x7F, by decide, by decide, by decide⟩

theorem test_hyp_ClippedAndDiscardedTokensChangeNoCell :
    (∃ s : State, s.work.row.toNat < 16 ∧ 40 ≤ s.work.col.toNat) ∧ (∃ s : State, 16 ≤ s.work.row.toNat) :=
  ⟨⟨parsing [] 0 { Work.zero with col := 40 }, by decide, by decide⟩,
   ⟨parsing [] 0 { Work.zero with row := 16 }, by decide⟩⟩

theorem test_hyp_InvalidByteEndsTheWrite :
    (0x80 : Byte).toNat = 0x80 + (0x00 : BitVec 7).toNat ∧ (0xFF : Byte).toNat = 0x80 + (0x7F : BitVec 7).toNat := by decide

theorem test_hyp_InverseAdditionFitsAByte : (0x7F : Byte).toNat < 0x80 := by decide

theorem test_hyp_StreamingParserRendersTheWholeText : ∃ (text : List Byte) (s : State),
    s.accepted (.osdWrite text) ∧ ∀ b ∈ text, b.toNat < 0x80 :=
  ⟨[0x5C, 0x7F], startState { requestOf 0x01 with data := [0x5C, 0x7F] } [], ⟨rfl, rfl, rfl, rfl, rfl⟩, by decide⟩

theorem test_hyp_LeastInvalidIndexIsReported : ∃ (text : List Byte) (s : State) (j : Nat) (b : Byte),
    s.accepted (.osdWrite text) ∧ text[j]? = some b ∧ 0x80 ≤ b.toNat ∧
    (∀ k c, k < j → text[k]? = some c → c.toNat < 0x80) :=
  ⟨[0x41, 0xC3, 0x42], startState { requestOf 0x01 with data := [0x41, 0xC3, 0x42] } [], 1, 0xC3,
   ⟨rfl, rfl, rfl, rfl, rfl⟩, rfl, by decide, by
     intro k c hk h
     obtain rfl : k = 0 := by omega
     cases h
     decide⟩

theorem test_hyp_SendStepWritesTheFrame_rows (r : Nat) (hr : r = 0 ∨ r = 15) : ∃ s : State, s.cfg.wf = true ∧
    s.cfg.geo.displayBase = 0 ∧ s.phase = .send r ∧ s.cfg.osdWriteMode = .rows ∧
    s.answers (.write (be16 (0 + 40 * r) ++ (s.work.fb.toList.drop (40 * r)).take 40)) [] := by
  refine ⟨busyState (requestOf 0x01) (.send r) Work.zero [.own], test_wf_defaults_accepted, rfl, rfl, rfl,
    .displayWrite (40 * r) (List.replicate 40 0x00), ?_, rfl⟩
  rcases hr with rfl | rfl <;> decide +kernel

theorem test_hyp_SendStepWritesTheFrame_frame : ∃ s : State, s.cfg.wf = true ∧ s.cfg.geo.displayBase = 0 ∧
    s.phase = .send 0 ∧ s.cfg.osdWriteMode = .frame ∧ s.answers (.write (be16 0 ++ s.work.fb.toList)) [] :=
  ⟨{ busyState (requestOf 0x01) (.send 0) Work.zero [.own] with cfg := { Config.defaults with osdWriteMode := .frame } },
   by decide, rfl, rfl, rfl, .displayWrite 0 (List.replicate 640 0x00), by decide +kernel, rfl⟩

/-- The replies `own` and `bytes` in turn, 16 or 1 of them. -/
def writeReplies : OsdWriteMode → List Reply
  | .rows => (List.replicate 8 [Reply.own, Reply.bytes [0xAA]]).flatten
  | .frame => [.bytes []]

theorem test_hyp_BothModesLeaveTheFrameInDisplay (m : OsdWriteMode) : ∃ s : State, s.cfg.wf = true ∧
    s.cfg.geo.displayBase = 0 ∧ s.resetIn = .off ∧ s.busy = true ∧ s.phase = .send 0 ∧ s.current = .ok (.osdWrite []) ∧
    (s.cfg.osdWriteMode = .rows ∧ (writeReplies m).length = 16 ∨
      s.cfg.osdWriteMode = .frame ∧ (writeReplies m).length = 1) ∧
    s.replies = writeReplies m ++ [] ∧ ∀ r ∈ writeReplies m, r.noError := by
  refine ⟨{ busyState (requestOf 0x01) (.send 0) Work.zero (writeReplies m ++ []) with
    cfg := { Config.defaults with osdWriteMode := m } }, by cases m <;> decide, rfl, rfl, rfl, rfl, rfl, ?_, rfl, ?_⟩
  · cases m
    · exact .inl ⟨rfl, rfl⟩
    · exact .inr ⟨rfl, rfl⟩
  · intro r hr code
    cases m <;> simp [writeReplies, List.replicate_succ] at hr <;> aesop

theorem test_hyp_OsdReadReturnsThePrintableGrid :
    (List.replicate 640 (0x41 : Byte)).length = 640 ∧ (List.replicate 639 (0x41 : Byte)).length ≠ 640 ∧
    (List.replicate 641 (0x41 : Byte)).length ≠ 640 := by
  simp only [List.length_replicate]; decide

theorem test_hyp_PrintableMapsOtherBytesToThePlaceholder :
    ((0x20 : Byte).toNat ≥ 0x20 ∧ (0x7E : Byte).toNat ≤ 0x7E) ∧ (0x1F : Byte).toNat < 0x20 ∧ 0x7E < (0x7F : Byte).toNat := by
  decide

theorem answered {n : Nat} {bs : List Byte} (h : bs.length = n) (ys own : List Byte) :
    answerOf (.exchange ys n) own (.bytes bs) = .ok bs := if_pos h

theorem test_hyp_OsdDumpReturnsTheGridOfTheAnswer : ∃ (s : State) (bs : List Byte), s.cfg.wf = true ∧
    s.answers (.exchange (be16 s.cfg.geo.displayBase) 640) bs := by
  have h : (List.replicate 640 (0xC1 : Byte)).length = 640 := List.length_replicate
  generalize List.replicate 640 (0xC1 : Byte) = bs at h
  exact ⟨{ State.reset with replies := [.bytes bs] }, bs, test_wf_defaults_accepted, .displayRead 0 640,
    (by decide : route Config.defaults (.exchange (be16 Config.defaults.geo.displayBase) 640) =
      some (.displayRead 0 640)), answered h _ _⟩

theorem test_hyp_DumpAfterWriteReturnsTheFrame : ∃ (s : State) (frame : List Byte), s.cfg.wf = true ∧ frame.length = 640 ∧
    (∀ k, k < 640 → s.devMem.lookup (s.cfg.geo.displayBase + k) = frame[k]?) ∧ s.nextReply = .own := by
  have h : (List.replicate 640 (0x41 : Byte)).length = 640 := List.length_replicate
  generalize List.replicate 640 (0x41 : Byte) = frame at h
  have hl : ∀ k, Memory.lookup (cellsFrom 0 frame) (0 + k) = frame[k]? := fun k =>
    (Nat.zero_add k).symm ▸ lookup_cellsFrom frame 0 k (Nat.zero_le k)
  exact ⟨{ State.reset with devMem := cellsFrom 0 frame, replies := [.own] }, frame, test_wf_defaults_accepted, h,
    fun k _ => hl k, rfl⟩

theorem test_hyp_WrenSendsItsFrame : ∃ s : State, s.cfg.wf = true ∧ s.answers (wrenXact s.cfg) [] :=
  ⟨{ State.reset with replies := [.own] }, test_wf_defaults_accepted, .wren, by decide, rfl⟩

theorem test_hyp_RdsrKeepsAndReturnsTheStatus : ∃ (s : State) (b : Byte), s.cfg.wf = true ∧
    s.answers (rdsrXact s.cfg) [b] :=
  ⟨{ State.reset with replies := [.bytes [0x03]] }, 0x03, test_wf_defaults_accepted, .rdsr 1, by decide, rfl⟩

theorem test_hyp_FlashReadReturnsTheAnswer (k : Nat) : ∃ (s : State) (a n : Nat) (bs : List Byte), s.cfg.wf = true ∧
    1 ≤ n ∧ a + n ≤ s.cfg.geo.flashSize ∧ s.phase = checkPhase k ∧ s.answers (readXact s.cfg a n) bs :=
  ⟨busyState (spiRequest 0x03) (checkPhase k) Work.zero [.bytes [0xAB]], 0x0FFFFF, 1, [0xAB], test_wf_defaults_accepted,
   by decide, (by decide : 0x0FFFFF + 1 ≤ 0x100000), rfl, .read 0x0FFFFF 1,
   (by decide : route Config.defaults (readXact Config.defaults 0x0FFFFF 1) = some (.read 0x0FFFFF 1)), rfl⟩

theorem test_hyp_EmptyReadIsRefused : ∃ s : State, s.phase = .start := ⟨startState (spiRequest 0x03) [], rfl⟩

theorem test_hyp_PageProgramSendsOneFrame (k : Nat) : ∃ (s : State) (g : Geometry) (a : Nat) (p bs : List Byte),
    s.cfg.wf = true ∧ s.cfg.geo = g ∧ 1 ≤ p.length ∧ a % g.page + p.length ≤ g.page ∧ g.upgStart ≤ a ∧
    a + p.length ≤ g.upgLast + 1 ∧ s.phase = checkPhase k ∧ s.answers (ppXact s.cfg a p) bs :=
  ⟨busyState (spiRequest 0x02) (checkPhase k) Work.zero [.own], Geometry.defaults, 0x0FFF00, List.replicate 256 0x55, [],
   test_wf_defaults_accepted, rfl, by rw [List.length_replicate]; decide, by rw [List.length_replicate]; decide, by decide,
   by rw [List.length_replicate]; decide, rfl, .program 0x0FFF00 (List.replicate 256 0x55),
   (by decide +kernel : route Config.defaults (ppXact Config.defaults 0x0FFF00 (List.replicate 256 0x55)) =
     some (.program 0x0FFF00 (List.replicate 256 0x55))), rfl⟩

theorem test_hyp_FlashCommandRefusals : (∃ s : State, s.cfg.wf = true ∧ s.cfg.geo = Geometry.defaults ∧
      s.accepted (.flashSe 0x07FFFF)) ∧
    (1 ≤ 2 ∧ 0x100000 < 0x0FFFFF + 2) ∧ ([] : List Byte).length < 1 ∧ 256 < 0x0800F0 % 256 + 17 ∧
    (0x100000 % 256 + 1 ≤ 256 ∧ 0x100000 < 0x100000 + 1) ∧
    (0x07FFFF % 256 + 1 ≤ 256 ∧ 0x07FFFF + 1 ≤ 0x100000 ∧ 0x07FFFF < 0x080000) ∧ 0x100000 ≤ 0x100000 ∧
    (0x07FFFF < 0x100000 ∧ 0x07FFFF < 0x080000) :=
  ⟨⟨startState { spiRequest 0xD8 with addr := 0x07FFFF } [], test_wf_defaults_accepted, rfl, rfl, rfl, rfl, rfl, rfl⟩,
   by decide⟩

theorem test_hyp_SectorEraseSendsOneFrame (k : Nat) : ∃ (s : State) (g : Geometry) (a : Nat), s.cfg.wf = true ∧
    s.cfg.geo = g ∧ g.upgStart ≤ a ∧ a ≤ g.upgLast ∧ s.phase = checkPhase k ∧ s.answers (seXact s.cfg a) [] :=
  ⟨busyState (spiRequest 0xD8) (checkPhase k) Work.zero [.own], Geometry.defaults, 0x0FFFFF, test_wf_defaults_accepted,
   rfl, by decide, by decide, rfl, .erase 0x0FFFFF,
   (by decide : route Config.defaults (seXact Config.defaults 0x0FFFFF) = some (.erase 0x0FFFFF)), rfl⟩

theorem test_hyp_BulkEraseIsAlwaysForbidden : ∃ (c : Config) (r : Request), r.sel = 0x10 ∧ r.spiop = c.opBe :=
  ⟨Config.defaults, spiRequest 0xC7, rfl, rfl⟩

theorem test_hyp_OtherSpiOpcodesAreRefused : ∃ (c : Config) (r : Request), r.sel = 0x10 ∧
    r.spiop ∉ [c.opWren, c.opRdsr, c.opRead, c.opPp, c.opSe, c.opBe] :=
  ⟨Config.defaults, spiRequest 0x04, rfl, by decide⟩

theorem test_hyp_WaitPollsUntilWipIsClear (b : Byte) (hb : b = 0x02 ∨ b = 0x03) : ∃ s : State, s.cfg.wf = true ∧
    s.answers (rdsrXact s.cfg) [b] ∧ (b = 0x02 → b &&& s.cfg.wipMask = 0) ∧
    (b = 0x03 → b &&& s.cfg.wipMask ≠ 0) :=
  ⟨{ State.reset with replies := [.bytes [b]] }, test_wf_defaults_accepted, ⟨.rdsr 1, test_route_rdsrXact, rfl⟩, by rintro rfl; decide,
   by rintro rfl; decide⟩

theorem test_hyp_WaitHasNoResultWhileWipIsSet : ∃ (s : State) (bs : List Byte), s.cfg.wf = true ∧ s.resetIn = .off ∧
    s.busy = true ∧ s.current = .ok .flashWait ∧ (∀ b ∈ bs, b &&& s.cfg.wipMask ≠ 0) ∧ bs.length = 2 ∧
    s.replies = bs.map (fun b => .bytes [b]) ++ [] :=
  ⟨startState (requestOf 0x11) [.bytes [0x01], .bytes [0x03]], [0x01, 0x03], by decide, rfl, rfl, rfl, by decide, rfl, rfl⟩

/-! ### Sequences -/

theorem test_hyp_EraseChecksItsRangeFirst : ∃ (s : State) (g : Geometry), s.cfg.geo = g ∧ s.phase = .start ∧
    s.cfg.wf = true ∧ (0x081000 % g.sector ≠ 0 ∧ 0x070000 < g.upgStart ∧ g.upgLast + 1 < 0x100001) ∧
    (0x1000000 % g.sector = 0 ∧ g.upgStart ≤ 0x1000000 ∧ 0x100000 ≤ g.upgLast + 1 ∧ 0x100000 ≤ 0x1000000) ∧
    (0x0F0000 % g.sector = 0 ∧ g.upgStart ≤ 0x0F0000 ∧ 0x0F0000 < 0x0F0001 ∧ 0x0F0001 ≤ g.upgLast + 1) :=
  ⟨startState (requestOf 0x20) [], Geometry.defaults, rfl, rfl, test_wf_defaults_accepted, by decide, by decide, by decide⟩

theorem test_hyp_EraseStepSendsItsFrames : ∃ s : State, s.cfg.wf = true ∧ s.phase = .eraseWren ∧
    s.answers (wrenXact s.cfg) [] :=
  ⟨busyState (requestOf 0x20) .eraseWren Work.zero [.own], test_wf_defaults_accepted, rfl, .wren, test_route_wrenXact, rfl⟩

theorem test_hyp_EraseStepSendsItsFrames_sector : ∃ (s : State) (a : Nat), s.cfg.wf = true ∧ a = s.work.faddr.toNat ∧
    s.phase = .eraseSector ∧ a < s.cfg.geo.flashSize ∧ s.answers (seXact s.cfg a) [] :=
  ⟨busyState (requestOf 0x20) .eraseSector { Work.zero with faddr := 0x0F0000 } [.own], 0x0F0000,
   test_wf_defaults_accepted, (by decide : 0x0F0000 = (0x0F0000 : BitVec 24).toNat), rfl,
   (by decide : 0x0F0000 < 0x100000), .erase 0x0F0000,
   (by decide : route Config.defaults (seXact Config.defaults 0x0F0000) = some (.erase 0x0F0000)), rfl⟩

/-- The registers of an erase at its last sector but one, and at its last. -/
def eraseWork (last : Bool) : Work :=
  { Work.zero with faddr := if last then 0x0F0000 else 0x0E0000, fend := 0x100000,
                   doneBytes := if last then 0x70000 else 0x60000 }

theorem eraseWork_ranges (last : Bool) : EraseInv Geometry.defaults (eraseWork last) ∧
    (eraseWork last).faddr.toNat + 0x10000 < 0x1000000 ∧ (eraseWork last).doneBytes.toNat + 0x10000 < 0x100000 ∧
    (last = true → (eraseWork last).fend.toNat ≤ (eraseWork last).faddr.toNat + 0x10000) ∧
    (last = false → (eraseWork last).faddr.toNat + 0x10000 < (eraseWork last).fend.toNat) := by
  cases last <;> exact ⟨⟨by decide, by decide, by decide, by decide⟩, by decide, by decide, by decide, by decide⟩

/-- A status byte with WIP clear, and one with WIP set. -/
theorem wip_bytes : (0x00 : Byte) &&& Config.defaults.wipMask = 0 ∧ (0x03 : Byte) &&& Config.defaults.wipMask ≠ 0 := by
  decide

theorem test_hyp_ErasePollMovesToTheNextSector (last : Bool) (b : Byte) : ∃ (s : State) (g : Geometry),
    s.cfg.wf = true ∧ s.cfg.geo = g ∧ s.phase = .erasePoll ∧ s.work.faddr.toNat + g.sector < 0x1000000 ∧
    s.work.doneBytes.toNat + g.sector < 0x100000 ∧ s.answers (rdsrXact s.cfg) [b] ∧
    (last = true → s.work.fend.toNat ≤ s.work.faddr.toNat + g.sector) ∧
    (last = false → s.work.faddr.toNat + g.sector < s.work.fend.toNat) ∧
    (b = 0x00 → b &&& s.cfg.wipMask = 0) ∧ (b = 0x03 → b &&& s.cfg.wipMask ≠ 0) :=
  have h := eraseWork_ranges last
  ⟨busyState (requestOf 0x20) .erasePoll (eraseWork last) [.bytes [b]], Geometry.defaults, test_wf_defaults_accepted, rfl,
   rfl, h.2.1, h.2.2.1, ⟨.rdsr 1, test_route_rdsrXact, rfl⟩, h.2.2.2.1, h.2.2.2.2, by rintro rfl; exact wip_bytes.1,
   by rintro rfl; exact wip_bytes.2⟩

/-- A step whose writes are answered by `own` and by bytes, with one poll while busy. -/
def polledOnce : StepReplies := ⟨.own, .bytes [0xAA], [0x03], 0x00⟩

/-- A step that is done at its first poll. -/
def prompt : StepReplies := ⟨.own, .own, [], 0x00⟩

theorem polledOnce_succeeds : polledOnce.Succeeds Config.defaults :=
  ⟨fun _ => Reply.noConfusion, fun _ => Reply.noConfusion,
   fun b hb => by rw [List.mem_singleton.mp hb]; exact wip_bytes.2, wip_bytes.1⟩

theorem prompt_succeeds : prompt.Succeeds Config.defaults :=
  ⟨fun _ => Reply.noConfusion, fun _ => Reply.noConfusion, fun _ hb => absurd hb (List.not_mem_nil), wip_bytes.1⟩

/-- Steps that succeed, the first after one busy poll. -/
def goodSteps (k : Nat) : List StepReplies := polledOnce :: List.replicate k prompt

theorem goodSteps_succeed (k : Nat) : ∀ x ∈ goodSteps k, x.Succeeds Config.defaults := by
  intro x hx
  rcases List.mem_cons.mp hx with rfl | hx
  · exact polledOnce_succeeds
  · rw [List.eq_of_mem_replicate hx]; exact prompt_succeeds

theorem test_hyp_EraseSendsExactlyItsTrace : ∃ (s : State) (g : Geometry) (xs : List StepReplies), s.cfg.wf = true ∧
    s.cfg.geo = g ∧ s.accepted (.flashErase 0x0E0000 0x0F0001) ∧ 0x0E0000 % g.sector = 0 ∧ g.upgStart ≤ 0x0E0000 ∧
    0x0E0000 < 0x0F0001 ∧ 0x0F0001 ≤ g.upgLast + 1 ∧ xs.length = (0x0F0001 - 0x0E0000 + (g.sector - 1)) / g.sector ∧
    (∀ x ∈ xs, x.Succeeds s.cfg) ∧ s.replies = xs.flatMap StepReplies.list ++ [] :=
  ⟨startState { requestOf 0x20 with addr := 0x0E0000, stop := 0x0F0001 } ((goodSteps 1).flatMap StepReplies.list ++ []),
   Geometry.defaults, goodSteps 1, test_wf_defaults_accepted, rfl, ⟨rfl, rfl, rfl, rfl, rfl⟩, by decide, by decide,
   by decide, by decide, rfl, goodSteps_succeed 1, rfl⟩

theorem test_hyp_WriteChecksItsRangeFirst : ∃ (s : State) (g : Geometry), s.cfg.geo = g ∧ s.phase = .start ∧
    (0x07FFFF < g.upgStart ∧ g.upgLast + 1 < 0x0FFF01 + 256) ∧ (g.upgStart ≤ 0x100000 ∧ 0x100000 ≤ g.upgLast + 1) ∧
    (g.upgStart ≤ 0x0FFFFF ∧ 0x0FFFFF + [(0x55 : Byte)].length ≤ g.upgLast + 1) :=
  ⟨startState (requestOf 0x21) [], Geometry.defaults, rfl, rfl, by decide, by decide, by decide⟩

theorem test_hyp_ProgramStepSendsItsFrames : ∃ (s : State) (g : Geometry), s.cfg.wf = true ∧ s.cfg.geo = g ∧
    s.phase = .progWren ∧ s.answers (wrenXact s.cfg) [] :=
  ⟨busyState (requestOf 0x21) .progWren Work.zero [.own], Geometry.defaults, test_wf_defaults_accepted, rfl, rfl, .wren,
   test_route_wrenXact, rfl⟩

theorem test_hyp_ProgramStepSendsItsFrames_page : ∃ (s : State) (g : Geometry) (data : List Byte) (a m : Nat) (x : Xact),
    s.cfg.wf = true ∧ s.cfg.geo = g ∧ s.phase = .progPage ∧ a = s.work.faddr.toNat ∧
    m = min (g.page - a % g.page) (data.length - s.work.foff.toNat) ∧
    x = ppXact s.cfg a ((data.drop s.work.foff.toNat).take m) ∧ a + m ≤ g.flashSize ∧
    s.work.foff.toNat < data.length ∧ s.answers x [] :=
  ⟨busyState (requestOf 0x21) .progPage { Work.zero with faddr := 0x0FFFFE } [.own], Geometry.defaults, [0x55, 0x66],
   0x0FFFFE, 2, ppXact Config.defaults 0x0FFFFE [0x55, 0x66], test_wf_defaults_accepted, rfl, rfl,
   (by decide : 0x0FFFFE = (0x0FFFFE : BitVec 24).toNat),
   (by decide : 2 = min (256 - 0x0FFFFE % 256) (2 - (0 : BitVec 20).toNat)),
   (by decide : ppXact Config.defaults 0x0FFFFE [0x55, 0x66] =
     ppXact Config.defaults 0x0FFFFE ((([0x55, 0x66] : List Byte).drop (0 : BitVec 20).toNat).take 2)),
   (by decide : 0x0FFFFE + 2 ≤ 0x100000), (by decide : (0 : BitVec 20).toNat < 2), .program 0x0FFFFE [0x55, 0x66],
   (by decide : route Config.defaults (ppXact Config.defaults 0x0FFFFE [0x55, 0x66]) =
     some (.program 0x0FFFFE [0x55, 0x66])), rfl⟩

/-- The registers of a write at its last two bytes, which end the region. -/
def progWork : Work := { Work.zero with faddr := 0x0FFFFE, fend := 0x100000 }

theorem progWork_inv : ProgInv Geometry.defaults [(0x55 : Byte), 0x66].length progWork :=
  ⟨by decide, by decide, by decide, by decide, by decide⟩

theorem test_hyp_ProgramPollMovesToTheNextChunk (b : Byte) : ∃ (s : State) (g : Geometry) (data : List Byte),
    s.cfg.wf = true ∧ s.cfg.geo = g ∧ s.phase = .progPoll ∧ ProgInv g data.length s.work ∧
    s.work.doneBytes = s.work.foff ∧ s.answers (rdsrXact s.cfg) [b] ∧ (b = 0x00 → b &&& s.cfg.wipMask = 0) ∧
    (b = 0x03 → b &&& s.cfg.wipMask ≠ 0) :=
  ⟨busyState (requestOf 0x21) .progPoll progWork [.bytes [b]], Geometry.defaults, [0x55, 0x66],
   test_wf_defaults_accepted, rfl, rfl, progWork_inv, rfl, ⟨.rdsr 1, test_route_rdsrXact, rfl⟩,
   by rintro rfl; exact wip_bytes.1, by rintro rfl; exact wip_bytes.2⟩

theorem test_hyp_WriteSendsExactlyItsTrace : ∃ (s : State) (g : Geometry) (data : List Byte)
    (chunks : List (Nat × List Byte)) (xs : List StepReplies), s.cfg.wf = true ∧ s.cfg.geo = g ∧
    s.accepted (.flashWrite 0x0FFFFE data) ∧ g.upgStart ≤ 0x0FFFFE ∧ 0x0FFFFE + data.length ≤ g.upgLast + 1 ∧
    data ≠ [] ∧ chunks = chunksOf g data.length 0x0FFFFE data ∧ xs.length = chunks.length ∧
    (∀ x ∈ xs, x.Succeeds s.cfg) ∧ s.replies = xs.flatMap StepReplies.list ++ [] :=
  ⟨startState { requestOf 0x21 with addr := 0x0FFFFE, data := [0x55, 0x66] }
     ((goodSteps 0).flatMap StepReplies.list ++ []),
   Geometry.defaults, [0x55, 0x66], _, goodSteps 0, test_wf_defaults_accepted, rfl, ⟨rfl, rfl, rfl, rfl, rfl⟩, by decide,
   by decide, by decide, rfl, by decide, goodSteps_succeed 0, rfl⟩

theorem test_hyp_ChunksCutTheDataAtPageBoundaries : 0 < Geometry.defaults.page := by decide

/-- Images of the four lengths at the bounds. -/
theorem test_hyp_FirmwareSizeGuard : ∃ (s : State) (g : Geometry), s.phase = .start ∧ s.cfg.wf = true ∧ s.cfg.geo = g ∧
    (List.replicate 400000 (0x00 : Byte)).length ≤ g.minFw ∧ g.maxFwExcl ≤ (List.replicate 0x7FFFF (0x00 : Byte)).length ∧
    g.minFw < (List.replicate 400001 (0x00 : Byte)).length ∧
    (List.replicate 0x7FFFE (0x00 : Byte)).length < g.maxFwExcl :=
  ⟨startState (requestOf 0x22) [.own], Geometry.defaults, rfl, test_wf_defaults_accepted, rfl,
   by rw [List.length_replicate]; decide, by rw [List.length_replicate]; decide, by rw [List.length_replicate]; decide,
   by rw [List.length_replicate]; decide⟩

theorem test_hyp_FirmwareStepsAreEraseAndWriteSteps (p : Phase) (last : Bool) : ∃ (s : State) (g : Geometry),
    s.cfg.wf = true ∧ s.cfg.geo = g ∧ s.phase = p ∧ EraseInv g s.work ∧
    (last = false → s.work.faddr.toNat + g.sector < s.work.fend.toNat) ∧
    (last = true → s.work.fend.toNat ≤ s.work.faddr.toNat + g.sector) ∧
    s.work.doneBytes.toNat + g.sector < 0x100000 ∧ (0x00 : Byte) &&& s.cfg.wipMask = 0 ∧
    s.answers (rdsrXact s.cfg) [0x00] :=
  have h := eraseWork_ranges last
  ⟨busyState (requestOf 0x22) p (eraseWork last) [.bytes [0x00]], Geometry.defaults, test_wf_defaults_accepted, rfl, rfl,
   h.1, h.2.2.2.2, h.2.2.2.1, h.2.2.1, wip_bytes.1, .rdsr 1, test_route_rdsrXact, rfl⟩

theorem test_hyp_FirmwareSendsExactlyItsTrace : ∃ (s : State) (g : Geometry) (image : List Byte)
    (chunks : List (Nat × List Byte)) (es ps : List StepReplies), s.cfg.wf = true ∧ s.cfg.geo = g ∧
    s.accepted (.flashFw image) ∧ g.minFw < image.length ∧ image.length < g.maxFwExcl ∧
    chunks = chunksOf g image.length g.upgStart image ∧ es.length = g.upgSize / g.sector ∧ ps.length = chunks.length ∧
    (∀ x ∈ es ++ ps, x.Succeeds s.cfg) ∧ s.replies = (es ++ ps).flatMap StepReplies.list ++ [] := by
  have h : Geometry.defaults.minFw < (List.replicate 400001 (0x55 : Byte)).length ∧
      (List.replicate 400001 (0x55 : Byte)).length < Geometry.defaults.maxFwExcl := by
    rw [List.length_replicate]; decide
  generalize List.replicate 400001 (0x55 : Byte) = image at h
  refine ⟨startState { requestOf 0x22 with data := image } ((goodSteps 7 ++ List.replicate
      (chunksOf Geometry.defaults image.length Geometry.defaults.upgStart image).length prompt).flatMap
      StepReplies.list ++ []), Geometry.defaults, image, _, goodSteps 7, List.replicate _ prompt, test_wf_defaults_accepted,
    rfl, ⟨rfl, rfl, rfl, rfl, rfl⟩, h.1, h.2, rfl, by decide, List.length_replicate, ?_, rfl⟩
  intro x hx
  rcases List.mem_append.mp hx with hx | hx
  · exact goodSteps_succeed 7 x hx
  · rw [List.eq_of_mem_replicate hx]; exact prompt_succeeds

theorem test_hyp_ReadfwSendsExactlyItsTrace : ∃ (s : State) (g : Geometry) (m : Nat) (answers : List (List Byte)),
    s.cfg.wf = true ∧ s.cfg.geo = g ∧ g.readChunk = m ∧ s.accepted .flashReadfw ∧ answers.length = g.upgSize / m ∧
    (∀ bs ∈ answers, bs.length = m) ∧ s.replies = answers.map Reply.bytes ++ [] := by
  have h : (List.replicate 512 (List.replicate 1024 (0xFF : Byte))).length = 512 ∧
      ∀ bs ∈ List.replicate 512 (List.replicate 1024 (0xFF : Byte)), bs.length = 1024 :=
    ⟨List.length_replicate, fun bs hbs => by rw [List.eq_of_mem_replicate hbs, List.length_replicate]⟩
  generalize List.replicate 512 (List.replicate 1024 (0xFF : Byte)) = answers at h
  exact ⟨startState (requestOf 0x23) (answers.map Reply.bytes ++ []), Geometry.defaults, 1024, answers,
    test_wf_defaults_accepted, rfl, rfl, ⟨rfl, rfl, rfl, rfl, rfl⟩,
    h.1.trans (by decide : 512 = Geometry.defaults.upgSize / 1024), h.2, rfl⟩

theorem test_hyp_ReadbackReadsTheNextChunk_first : ∃ (s : State) (g : Geometry) (m : Nat) (w : Work) (x : Xact)
    (bs : List Byte), s.cfg.wf = true ∧ s.cfg.geo = g ∧ g.readChunk = m ∧ s.phase = .start ∧
    w = { s.work with faddr := BitVec.ofNat 24 g.upgStart, doneBytes := 0, rbuf := [] } ∧
    x = readXact s.cfg w.faddr.toNat m ∧ s.answers x bs := by
  have h2 : (List.replicate 1024 (0xFF : Byte)).length = 1024 := List.length_replicate
  generalize List.replicate 1024 (0xFF : Byte) = bs at h2
  exact ⟨startState (requestOf 0x23) [.bytes bs], Geometry.defaults, 1024, _, _, bs, test_wf_defaults_accepted, rfl, rfl,
    rfl, rfl, rfl, .read (0x080000 : BitVec 24).toNat 1024,
    route_read test_wf_defaults_accepted (by decide : (0x080000 : BitVec 24).toNat + 1024 ≤ 0x100000), answered h2 _ _⟩

theorem test_hyp_ReadbackReadsTheNextChunk_last : ∃ (s : State) (g : Geometry) (m : Nat) (bs : List Byte),
    s.cfg.wf = true ∧ s.cfg.geo = g ∧ g.readChunk = m ∧ s.phase = .readChunk ∧ ReadInv g s.work ∧
    s.work.doneBytes.toNat = s.work.faddr.toNat - g.upgStart ∧ s.work.faddr.toNat + m = g.upgLast + 1 ∧
    s.answers (readXact s.cfg s.work.faddr.toNat m) bs := by
  have h : (List.replicate 0x7FC00 (0xFF : Byte)).length = 0x7FC00 := List.length_replicate
  have h' : (0x7FC00 : Nat) = (0x0FFC00 : BitVec 24).toNat - 0x080000 := by decide
  generalize List.replicate 0x7FC00 (0xFF : Byte) = rbuf at h
  have h2 : (List.replicate 1024 (0xFF : Byte)).length = 1024 := List.length_replicate
  generalize List.replicate 1024 (0xFF : Byte) = bs at h2
  exact ⟨busyState (requestOf 0x23) .readChunk { Work.zero with faddr := 0x0FFC00, doneBytes := 0x7FC00, rbuf := rbuf }
    [.bytes bs], Geometry.defaults, 1024, bs, test_wf_defaults_accepted, rfl, rfl, rfl,
    ⟨(by decide : 0x080000 ≤ (0x0FFC00 : BitVec 24).toNat), (by decide : (0x0FFC00 : BitVec 24).toNat ≤ 0x0FFFFF),
      (by decide : ((0x0FFC00 : BitVec 24).toNat - 0x080000) % 1024 = 0), h.trans h'⟩, h',
    (by decide : (0x0FFC00 : BitVec 24).toNat + 1024 = 0x0FFFFF + 1), .read (0x0FFC00 : BitVec 24).toNat 1024,
    route_read test_wf_defaults_accepted (by decide : (0x0FFC00 : BitVec 24).toNat + 1024 ≤ 0x100000), answered h2 _ _⟩

theorem test_hyp_ProgressEventsAtTheirGranularity :
    16383 / 16384 < 16384 / 16384 ∧ ¬ 16384 / 16384 < 32767 / 16384 ∧ 65535 / 65536 < 65536 / 65536 := by decide

/-! ### The whole machine -/

theorem test_hyp_TransportErrorEndsTheOperation : ∃ (i : Instr) (x : Xact) (s t : State) (e : TransportErr),
    exec i s = .next t ∧ t.bus = s.bus ++ [x] ∧ s.fails x e ∧ s.nextReply = .error 9 := by
  obtain ⟨t, h, hb⟩ := next_of (o := exec .flashWren { State.reset with replies := [.error 9] })
    (p := fun t => decide (t.bus = [.write [0x70, 0x00, 0x06]])) (by decide +kernel)
  exact ⟨_, _, _, t, .reported 9, h, of_decide_eq_true hb, ⟨.wren, test_route_wren, rfl⟩, rfl⟩

theorem test_hyp_TransportErrorEndsTheOperation_length : ∃ (x : Xact) (s t : State) (e : TransportErr),
    exec .flashRdsr s = .next t ∧ t.bus = s.bus ++ [x] ∧ s.fails x e ∧ s.nextReply = .bytes [] ∧
    x = .exchange [0x70, 0x00, 0x05] 1 := by
  obtain ⟨t, h, hb⟩ := next_of (o := exec .flashRdsr { State.reset with replies := [.bytes []] })
    (p := fun t => decide (t.bus = [.exchange [0x70, 0x00, 0x05] 1])) (by decide +kernel)
  exact ⟨_, _, t, .wrongLength 1 0, h, of_decide_eq_true hb, ⟨.rdsr 1, test_route_rdsr, rfl⟩, rfl, rfl⟩

/-- T1: the third row's write fails. -/
theorem test_hyp_TransportErrorEndsTheOperation_display : ∃ (s t : State) (e : TransportErr) (v : List Byte),
    s.cfg.wf = true ∧ inDisplay s.cfg.geo 80 v.length ∧ v ≠ [] ∧
    exec (.osdWrite []) s = .next t ∧ t.bus = s.bus ++ [.write (be16 80 ++ v)] ∧ s.fails (.write (be16 80 ++ v)) e := by
  obtain ⟨t, h, hb⟩ := next_of (o := exec (.osdWrite []) (busyState (requestOf 0x01) (.send 2) Work.zero [.error 9]))
    (p := fun t => decide (t.bus = [.write (be16 80 ++ List.replicate 40 0x00)])) (by decide +kernel)
  exact ⟨_, t, .reported 9, List.replicate 40 0x00, test_wf_defaults_accepted,
    ⟨(by decide : 0 ≤ 80), by rw [List.length_replicate]; exact (by decide : 80 + 40 ≤ 0 + 640)⟩, by decide, h, of_decide_eq_true hb,
    ⟨.displayWrite 80 (List.replicate 40 0x00), by decide +kernel, rfl⟩⟩

theorem test_hyp_ErrorsBeforeTrafficArePrecise : ∃ (s t : State) (r : Result), step s = .next t ∧
    t.results = s.results ++ [r] ∧ r.status ≠ 0 ∧ r.status ≠ 7 := by
  obtain ⟨t, h, hr⟩ := next_of (o := step (startState (spiRequest 0xC7) []))
    (p := fun t => decide (t.results = [⟨2, [], .forbiddenOpcode 0xC7⟩])) (by decide +kernel)
  exact ⟨_, t, _, h, of_decide_eq_true hr, by decide, by decide⟩

theorem test_hyp_StepSendsAtMostOneFrame : ∃ s t : State, step s = .next t ∧ t.bus ≠ s.bus := by
  obtain ⟨t, h, hb⟩ := next_of (o := step (startState (spiRequest 0x06) [.own]))
    (p := fun t => decide (t.bus ≠ [])) (by decide +kernel)
  exact ⟨_, t, h, of_decide_eq_true hb⟩

/-- A poll of the last sector of an erase in progress. -/
def erasingState : State :=
  busyState { requestOf 0x20 with addr := 0x080000, stop := 0x100000 } .erasePoll (eraseWork true) [.bytes [0x00]]

theorem erasingState_inv : Inv erasingState := by
  refine ⟨test_wf_defaults_accepted, ⟨by decide, by decide, by decide, by decide⟩, fun _ i h => ?_⟩
  obtain rfl : i = .flashErase 0x080000 0x100000 := by
    injection h with h
    exact h.symm
  exact .inr ⟨rfl, by decide, by decide, by decide, by decide⟩

theorem erasingState_step : ∃ t, step erasingState = .next t ∧ t.bus = [.exchange [0x70, 0x00, 0x05] 1] := by
  obtain ⟨t, h, hb⟩ := next_of (o := step erasingState)
    (p := fun t => decide (t.bus = [.exchange [0x70, 0x00, 0x05] 1])) (by decide +kernel)
  exact ⟨t, h, of_decide_eq_true hb⟩

theorem test_hyp_StepGoesOnOrReturnsOneResult : ∃ s t : State, Inv s ∧ s.resetIn = .off ∧ s.busy = true ∧
    step s = .next t :=
  erasingState_step.elim fun t h => ⟨erasingState, t, erasingState_inv, rfl, rfl, h.1⟩

theorem test_hyp_StepKeepsTheInvariant : ∃ s t : State, Inv s ∧ step s = .next t :=
  erasingState_step.elim fun t h => ⟨erasingState, t, erasingState_inv, h.1⟩

theorem test_hyp_MachineNeverStops : ∃ s : State, Inv s := ⟨erasingState, erasingState_inv⟩

theorem test_hyp_BootImageIsNeverTouched : ∃ s t : State, Inv s ∧ step s = .next t ∧ 0x07FFFF < s.cfg.geo.upgStart :=
  erasingState_step.elim fun t h => ⟨erasingState, t, erasingState_inv, h.1, (by decide : 0x07FFFF < 0x080000)⟩

theorem test_hyp_EveryFrameSentIsAllowed : ∃ (s t : State) (l : List Xact) (x : Xact), Inv s ∧ step s = .next t ∧
    t.bus = s.bus ++ l ∧ x ∈ l :=
  erasingState_step.elim fun t h =>
    ⟨erasingState, t, [.exchange [0x70, 0x00, 0x05] 1], _, erasingState_inv, h.1, h.2, List.mem_singleton.mpr rfl⟩

theorem test_hyp_EarlierOperationsDoNotMatter : ∃ (s : State) (i : Instr) (t : State), s.accepted i ∧
    runSteps 1 s = .next t ∧ t.busy = false := by
  obtain ⟨t, h, hb⟩ := next_of (o := runSteps 1 (startState (spiRequest 0x06) [.own])) (p := fun t => !t.busy)
    (by decide +kernel)
  exact ⟨_, .flashWren, t, ⟨rfl, rfl, rfl, rfl, rfl⟩, h, by simpa using hb⟩

end Sequential
end

section
/-!
One step sends at most one frame and adds at most one result and one event (00 R6, 20 R56). A step that stays inside the
block adds no frame, a transaction adds its own, and a reset of the block adds no result and no event.
-/

namespace Sys2Proof.Machine

open Sys2Proof (Byte Config Request Instr)

/-! ## The decoder gives operations -/

theorem decodeSpi_isToken (c : Config) (r : Request) : (decodeSpi c r).isToken = false := by
  unfold decodeSpi
  split_ifs <;> rfl

theorem decodeSelector_isToken {r : Request} {i : Instr} (h : decodeSelector r = some i) : i.isToken = false := by
  unfold decodeSelector at h
  split_ifs at h <;> cases h <;> rfl

/-- A request decodes to an operation, never to a token of the OSD text (30 R69, R80). -/
theorem decodeRequest_isToken {c : Config} {r : Request} {i : Instr} (h : decodeRequest c r = .ok i) :
    i.isToken = false := by
  unfold decodeRequest at h
  split at h
  · cases h
    exact decodeSpi_isToken c r
  · split at h
    · cases h
    · next hd =>
      split at h
      · cases h
        exact decodeSelector_isToken hd
      · cases h

/-! ## What a step adds -/

/-- From `s` to `t` at most one frame, one result and one event are added, and the configuration is kept. -/
def AddsAtMostOne (s t : State) : Prop :=
  (∃ l, l.length ≤ 1 ∧ t.bus = s.bus ++ l) ∧ (∃ l, l.length ≤ 1 ∧ t.results = s.results ++ l) ∧
    (∃ l, l.length ≤ 1 ∧ t.events = s.events ++ l) ∧ t.cfg = s.cfg

/-- What a step does inside the block, apart from the frame it may send before. -/
def ActsInside (u t : State) : Prop := GoesOn u t ∨ Returns u t ∨ ∃ e, Errs e u t

/-- From `s` to `u` the frames `xs` are sent, no result and no event is added, and the configuration is kept. -/
def SentOnly (xs : List Xact) (s u : State) : Prop :=
  u.bus = s.bus ++ xs ∧ u.results = s.results ∧ u.events = s.events ∧ u.cfg = s.cfg

theorem addsAtMostOne_of_sentOnly_nil {s t : State} (h : SentOnly [] s t) : AddsAtMostOne s t := by
  obtain ⟨hb, hr, he, hc⟩ := h
  exact ⟨⟨[], by simp, hb⟩, ⟨[], by simp, by simp [hr]⟩, ⟨[], by simp, by simp [he]⟩, hc⟩

/-- Once at most one frame has been sent, what the block does with the answer adds at most one result and one event. -/
theorem addsAtMostOne_of_sentOnly {s u t : State} {xs : List Xact} (hx : xs.length ≤ 1) (hs : SentOnly xs s u)
    (h : ActsInside u t) : AddsAtMostOne s t := by
  obtain ⟨hb, hr, he, hc⟩ := hs
  rcases h with ⟨w, ph, ev, hl, rfl⟩ | ⟨w, ph, ev, v, hl, rfl⟩ | ⟨e, w, ph, d, rfl⟩
  · exact ⟨⟨xs, hx, hb⟩, ⟨[], by simp, by simp [hr]⟩, ⟨ev, hl, by simp [he]⟩, hc⟩
  · exact ⟨⟨xs, hx, hb⟩, ⟨[⟨0, v, .success⟩], by simp, by simp [hr]⟩, ⟨ev, hl, by simp [he]⟩, hc⟩
  · exact ⟨⟨xs, hx, hb⟩, ⟨[⟨e.code, [], e⟩], by simp, by simp [hr]⟩, ⟨[], by simp, by simp [he]⟩, hc⟩

theorem addsAtMostOne_of_actsInside {s t : State} (h : ActsInside s t) : AddsAtMostOne s t :=
  addsAtMostOne_of_sentOnly (xs := []) (by simp) (by simp [SentOnly]) h

theorem doneEffect_sentOnly (k : Nat) (tg : Target) (x : Xact) (s : State) :
    SentOnly [x] s (doneEffect k tg (s.sent x)) := by simp [SentOnly]

theorem failedEffect_sentOnly (k : Nat) (tg : Target) (x : Xact) (s : State) :
    SentOnly [x] s (failedEffect k tg (s.sent x)) := by simp [SentOnly]

/-- A transaction adds its own frame, and an error that ends it adds one result. -/
theorem transact_addsAtMostOne {x : Xact} {k : List Byte → State → State} {s t : State}
    (hk : ∀ bs u, GoesOn u (k bs u) ∨ Returns u (k bs u)) (h : transact x k s = .next t) : AddsAtMostOne s t := by
  obtain ⟨tg, -, ⟨bs, -, rfl⟩ | ⟨e, -, rfl⟩⟩ := transact_next_cases h
  · exact addsAtMostOne_of_sentOnly (by simp) (doneEffect_sentOnly _ tg x s) ((hk bs _).imp_right .inl)
  · exact addsAtMostOne_of_sentOnly (by simp) (failedEffect_sentOnly _ tg x s) (.inr (.inr ⟨_, raise_shape _ _⟩))

/-! ## The step -/

/-- The first step of `osd.write` sets `pc` to 0, whatever it was (40 R107 `init`). -/
theorem exec_osdWrite_start_pc (text : List Byte) {s : State} (h : s.phase = .start) :
    exec (.osdWrite text) { s with pc := 0 } = exec (.osdWrite text) s := by
  simp only [exec, execOsdWrite, h, State.osdInit]

theorem exec_addsAtMostOne_of_pc {i : Instr} {s t : State} (hi : i.isToken = false)
    (hp : ∀ text, i = .osdWrite text → s.phase = .start → s.pc = 0) (h : exec i s = .next t) : AddsAtMostOne s t := by
  rcases exec_shape i s hi hp with hf | ⟨t', ht', hs⟩ | ⟨x, w, k, hx, hk⟩
  · simp [hf] at h
  · obtain rfl : t' = t := by simpa [ht'] using h
    exact addsAtMostOne_of_actsInside (hs.imp_right (Or.imp_right fun ⟨e, he, _⟩ => ⟨e, he⟩))
  · exact transact_addsAtMostOne (s := { s with work := w }) hk (hx.symm.trans h)

/-- One step of an operation, from any state: where `osd.write` starts, `pc` may as well be 0. -/
theorem exec_addsAtMostOne {i : Instr} {s t : State} (hi : i.isToken = false) (h : exec i s = .next t) :
    AddsAtMostOne s t := by
  by_cases hs : ∃ text, i = .osdWrite text ∧ s.phase = .start
  · obtain ⟨text, rfl, hph⟩ := hs
    exact exec_addsAtMostOne_of_pc (s := { s with pc := 0 }) hi (fun _ _ _ => rfl)
      ((exec_osdWrite_start_pc text hph).trans h)
  · exact exec_addsAtMostOne_of_pc hi (fun text hi hph => absurd ⟨text, hi, hph⟩ hs) h

theorem accept_sentOnly (s : State) : SentOnly [] s s.accept := by
  unfold State.accept
  split <;> simp [SentOnly]

theorem blockReset_sentOnly (s : State) : SentOnly [] s s.blockReset := by simp [SentOnly, State.blockReset]

theorem cycle_addsAtMostOne {s t : State} (h : cycle s = .next t) : AddsAtMostOne s t := by
  unfold cycle at h
  split at h
  · split at h
    · next hi => exact exec_addsAtMostOne (decodeRequest_isToken hi) h
    · cases h
      exact addsAtMostOne_of_actsInside (.inr (.inr ⟨_, rejectWord_shape s⟩))
  · cases h
    exact addsAtMostOne_of_sentOnly_nil (accept_sentOnly s)

/-- A reset in flight keeps the frame of the step it interrupts, and drops its result and its event (70 R176). -/
theorem resetInFlight_addsAtMostOne (s : State) : AddsAtMostOne s (s.resetInFlight (cycle s.failing)) := by
  cases ho : cycle s.failing with
  | next t =>
    obtain ⟨hbus, -⟩ := cycle_addsAtMostOne ho
    obtain ⟨-, hresults, hevents, hcfg⟩ := addsAtMostOne_of_sentOnly_nil (blockReset_sentOnly s)
    exact ⟨hbus, hresults, hevents, hcfg⟩
  | fault r => exact addsAtMostOne_of_sentOnly_nil (blockReset_sentOnly s)
  | refused r => exact addsAtMostOne_of_sentOnly_nil (blockReset_sentOnly s)

theorem step_addsAtMostOne {s t : State} (h : step s = .next t) : AddsAtMostOne s t := by
  unfold step at h
  split at h
  · exact cycle_addsAtMostOne h
  · cases h
    exact addsAtMostOne_of_sentOnly_nil (blockReset_sentOnly s)
  · cases h
    exact resetInFlight_addsAtMostOne s

/-- Settles O53: every step, a reset of the block included, adds at most one frame, one result and one event. -/
theorem stepSendsAtMostOneFrame : Obligations.StepSendsAtMostOneFrame :=
  fun _ _ h => step_addsAtMostOne h

end Sys2Proof.Machine
end

section
/-!
What one step of an operation does to the rest of the state, said once (10 R20 to R24): at most one frame is sent and
the device acts on it, and then the block goes on, returns, or ends with an error.
-/

namespace Sys2Proof.Machine

open Sys2Proof (Byte Config Instr)

/-- From `s` one frame is sent, and the device acts on it as on a transaction that succeeds or that fails. -/
def SentOneFrame (s u : State) : Prop :=
  ∃ x w tg, route s.cfg x = some tg ∧
    (u = doneEffect s.draws tg (({ s with work := w } : State).sent x) ∨
      u = failedEffect s.draws tg (({ s with work := w } : State).sent x))

/-- From `s` to `t` at most one frame is sent, and then the operation acts inside the block. -/
def Acts (s t : State) : Prop := ∃ u, (u = s ∨ SentOneFrame s u) ∧ ActsInside u t

theorem acts_of_inside {s t : State} (h : ActsInside s t) : Acts s t := ⟨s, .inl rfl, h⟩

theorem transact_acts {x : Xact} {k : List Byte → State → State} {s t : State} {w : Work}
    (hk : ∀ bs u, GoesOn u (k bs u) ∨ Returns u (k bs u)) (h : transact x k { s with work := w } = .next t) :
    Acts s t := by
  obtain ⟨tg, hr, ⟨bs, -, rfl⟩ | ⟨e, -, rfl⟩⟩ := transact_next_cases h
  · exact ⟨_, .inr ⟨x, w, tg, hr, .inl rfl⟩, (hk bs _).imp_right .inl⟩
  · exact ⟨_, .inr ⟨x, w, tg, hr, .inr rfl⟩, .inr (.inr ⟨_, raise_shape _ _⟩)⟩

/-- One step of an operation. The premise is for `osd.write`, whose first step sets `pc` to 0. -/
theorem exec_acts {i : Instr} {s t : State} (hi : i.isToken = false)
    (hp : ∀ text, i = .osdWrite text → s.phase = .start → s.pc = 0) (h : exec i s = .next t) : Acts s t := by
  rcases exec_shape i s hi hp with hf | ⟨t', ht', hs⟩ | ⟨x, w, k, hx, hk⟩
  · simp [hf] at h
  · obtain rfl : t' = t := by simpa [ht'] using h
    exact acts_of_inside (hs.imp_right (Or.imp_right fun ⟨e, he, _⟩ => ⟨e, he⟩))
  · exact transact_acts hk (hx.symm.trans h)

/-- One step of an operation from any state: it is one from some value of `pc`. -/
theorem exec_acts_from {i : Instr} {s t : State} (hi : i.isToken = false) (h : exec i s = .next t) :
    ∃ p, Acts { s with pc := p } t := by
  by_cases hs : ∃ text, i = .osdWrite text ∧ s.phase = .start
  · obtain ⟨text, rfl, hph⟩ := hs
    exact ⟨0, exec_acts hi (fun _ _ _ => rfl) ((exec_osdWrite_start_pc text hph).trans h)⟩
  · exact ⟨s.pc, exec_acts hi (fun text hi hph => absurd ⟨text, hi, hph⟩ hs) h⟩

theorem sentOneFrame_interface {s u : State} (h : SentOneFrame s u) : SameInterface s u := by
  obtain ⟨x, w, tg, -, rfl | rfl⟩ := h <;> simp [SameInterface]

theorem actsInside_interface {u t : State} (h : ActsInside u t) : SameInterface u t := by
  rcases h with ⟨w, ph, ev, -, rfl⟩ | ⟨w, ph, ev, v, -, rfl⟩ | ⟨e, w, ph, d, rfl⟩ <;> exact ⟨rfl, rfl, rfl, rfl⟩

/-- A step of an operation leaves the configuration, the accepted request and the inputs but the replies alone. -/
theorem acts_interface {s t : State} (h : Acts s t) : SameInterface s t := by
  obtain ⟨u, rfl | hu, ht⟩ := h
  · exact actsInside_interface ht
  · obtain ⟨hc, hq, hr, hi⟩ := sentOneFrame_interface hu
    obtain ⟨hc', hq', hr', hi'⟩ := actsInside_interface ht
    exact ⟨hc'.trans hc, hq'.trans hq, hr'.trans hr, hi'.trans hi⟩

theorem exec_interface {i : Instr} {s t : State} (hi : i.isToken = false) (h : exec i s = .next t) :
    SameInterface s t :=
  (exec_acts_from hi h).elim fun p ha => acts_interface (s := { s with pc := p }) ha

theorem rejectWord_interface (s : State) : SameInterface s s.rejectWord :=
  actsInside_interface (.inr (.inr ⟨_, rejectWord_shape s⟩))

theorem sentOneFrame_memWf {s u : State} (hg : s.cfg.geo.Wf) (hm : s.memWf) (h : SentOneFrame s u) : u.memWf := by
  obtain ⟨x, w, tg, hr, rfl | rfl⟩ := h
  · exact doneEffect_memWf (s := ({ s with work := w } : State).sent x) hg (route_inRange hr) hm
  · exact failedEffect_memWf (s := ({ s with work := w } : State).sent x) hg (route_inRange hr) hm

theorem actsInside_memWf {u t : State} (hm : u.memWf) (h : ActsInside u t) : t.memWf := by
  rcases h with ⟨w, ph, ev, -, rfl⟩ | ⟨w, ph, ev, v, -, rfl⟩ | ⟨e, w, ph, d, rfl⟩ <;> exact hm

/-- A step of an operation keeps the device's memories in form. -/
theorem acts_memWf {s t : State} (hg : s.cfg.geo.Wf) (hm : s.memWf) (h : Acts s t) : t.memWf := by
  obtain ⟨u, rfl | hu, ht⟩ := h
  · exact actsInside_memWf hm ht
  · exact actsInside_memWf (sentOneFrame_memWf hg hm hu) ht

theorem exec_memWf {i : Instr} {s t : State} (hi : i.isToken = false) (hg : s.cfg.geo.Wf) (hm : s.memWf)
    (h : exec i s = .next t) : t.memWf :=
  (exec_acts_from hi h).elim fun p ha => acts_memWf (s := { s with pc := p }) hg hm ha

/-! ## How a step of an operation ends -/

/-- The step is counted, and the operation goes on or returns one result, whose status is its error's code. -/
def GoesOnOrReturnsOne (s t : State) : Prop :=
  t.pc = s.pc + 1 ∧
    ((t.busy = true ∧ t.err = s.err ∧ t.results = s.results) ∨
      (∃ r, t.busy = false ∧ t.results = s.results ++ [r] ∧ t.err = r.status ∧ r.status = r.info.code ∧
        (r.status ≠ 0 → r.value = [])))

theorem actsInside_returnsOne {u t : State} (hb : u.busy = true) (h : ActsInside u t) : GoesOnOrReturnsOne u t := by
  rcases h with ⟨w, ph, ev, -, rfl⟩ | ⟨w, ph, ev, v, -, rfl⟩ | ⟨e, w, ph, d, rfl⟩
  · exact ⟨rfl, .inl ⟨hb, rfl, rfl⟩⟩
  · exact ⟨rfl, .inr ⟨⟨0, v, .success⟩, rfl, rfl, rfl, rfl, fun h => absurd rfl h⟩⟩
  · exact ⟨rfl, .inr ⟨⟨e.code, [], e⟩, rfl, rfl, rfl, rfl, fun _ => rfl⟩⟩

/-- Sending a frame changes nothing that says how the operation ends. -/
theorem sentOneFrame_same {s u : State} (h : SentOneFrame s u) :
    u.busy = s.busy ∧ u.pc = s.pc ∧ u.err = s.err ∧ u.results = s.results := by
  obtain ⟨x, w, tg, -, rfl | rfl⟩ := h <;> simp

theorem acts_returnsOne {s t : State} (hb : s.busy = true) (h : Acts s t) : GoesOnOrReturnsOne s t := by
  obtain ⟨u, rfl | hu, ht⟩ := h
  · exact actsInside_returnsOne hb ht
  · obtain ⟨hb', hp, he, hr⟩ := sentOneFrame_same hu
    have := actsInside_returnsOne (hb'.trans hb) ht
    rwa [GoesOnOrReturnsOne, hp, he, hr] at this

end Sys2Proof.Machine
end

section
/-!
The ranges of the registers that a sequence keeps (42 R140 to R149): they hold after the check that sets the registers,
and moving on by a sector, a page chunk or a read chunk keeps them while the loop goes on.
-/

namespace Sys2Proof.Machine

open Sys2Proof (Byte Config Geometry)

/-! ## What a well-formed geometry gives -/

section
variable {g : Geometry} (hg : g.Wf)
include hg

theorem flashSize_lt : g.flashSize < 0x1000000 := hg.2.1.1

theorem upgSize_lt : g.upgSize < 0x100000 := hg.2.1.2

theorem upgLast_lt : g.upgLast < g.flashSize := by
  obtain ⟨⟨-, -, -, -, -, -, -, h⟩, -⟩ := hg
  exact h

theorem upgStart_le : g.upgStart ≤ g.upgLast := by
  obtain ⟨⟨-, -, -, -, -, -, h, -⟩, -⟩ := hg
  exact h

theorem upgStart_mod : g.upgStart % g.sector = 0 := by
  obtain ⟨⟨-, -, -, -, h, -⟩, -⟩ := hg
  exact h

theorem sector_pos : 0 < g.sector := hg.1.2.1

/-- The upgrade region ends with a sector. -/
theorem upgEnd_mod : (g.upgLast + 1) % g.sector = 0 := by
  obtain ⟨⟨-, -, -, -, -, h, -⟩, -⟩ := hg
  exact h

theorem readChunk_pos : 0 < g.readChunk := by
  obtain ⟨-, -, ⟨-, h, -⟩, -⟩ := hg
  exact h

/-- A read-back is whole chunks. -/
theorem upgSize_mod_readChunk : g.upgSize % g.readChunk = 0 := by
  obtain ⟨-, -, ⟨-, -, h, -⟩, -⟩ := hg
  exact h

/-- An accepted image fits the upgrade region. -/
theorem maxFwExcl_le : g.maxFwExcl ≤ g.upgSize := by
  obtain ⟨-, -, ⟨h, -⟩, -⟩ := hg
  exact h

end

/-! ## The registers as numbers -/

/-- An address below the flash's end fits FADDR. -/
theorem toNat_addrReg {g : Geometry} (hg : g.Wf) {a : Nat} (h : a ≤ g.flashSize) : (BitVec.ofNat 24 a).toNat = a := by
  have := flashSize_lt hg
  exact Nat.mod_eq_of_lt (show a < 2 ^ 24 by omega)

/-- An end of a range in the flash fits FEND. -/
theorem toNat_endReg {g : Geometry} (hg : g.Wf) {a : Nat} (h : a ≤ g.upgLast + 1) : (BitVec.ofNat 25 a).toNat = a := by
  have := flashSize_lt hg
  have := upgLast_lt hg
  exact Nat.mod_eq_of_lt (show a < 2 ^ 25 by omega)

/-- FADDR moves on without wrapping inside the flash. -/
theorem toNat_addr_add {g : Geometry} (hg : g.Wf) {a : BitVec 24} {m : Nat} (h : a.toNat + m ≤ g.flashSize) :
    (a + BitVec.ofNat 24 m).toNat = a.toNat + m := by
  have := flashSize_lt hg
  rw [BitVec.toNat_add, toNat_addrReg hg (by omega)]
  exact Nat.mod_eq_of_lt (by omega)

/-- FOFF moves on without wrapping inside the data of a program. -/
theorem toNat_off_add {g : Geometry} (hg : g.Wf) {a : BitVec 20} {m : Nat} (h : a.toNat + m ≤ g.upgSize) :
    (a + BitVec.ofNat 20 m).toNat = a.toNat + m := by
  have := upgSize_lt hg
  rw [BitVec.toNat_add, BitVec.toNat_ofNat, Nat.mod_eq_of_lt (show m < 2 ^ 20 by omega)]
  exact Nat.mod_eq_of_lt (by omega)

/-- A start inside the flash is what FADDR holds. -/
theorem startReg_of_le {g : Geometry} (hg : g.Wf) {a : Nat} (h : a ≤ g.flashSize) : startReg a = BitVec.ofNat 24 a := by
  have := flashSize_lt hg
  exact if_pos (by omega)

/-! ## The ranges, set and kept -/

theorem eraseInv_init {g : Geometry} (hg : g.Wf) {start stop : Nat} (w : Work) (hs : start % g.sector = 0)
    (lo : g.upgStart ≤ start) (h : start < stop) (hi : stop ≤ g.upgLast + 1) :
    EraseInv g { w with faddr := startReg start, fend := BitVec.ofNat 25 stop, doneBytes := 0 } := by
  have := upgLast_lt hg
  have ha : start ≤ g.flashSize := by omega
  simp only [EraseInv, startReg_of_le hg ha, toNat_addrReg hg ha, toNat_endReg hg hi]
  exact ⟨lo, hs, h, hi⟩

/-- The next sector of an erase. -/
theorem eraseInv_next {g : Geometry} (hg : g.Wf) {w : Work} (d : BitVec 20) (h : EraseInv g w)
    (hn : (w.faddr + BitVec.ofNat 24 g.sector).toNat < w.fend.toNat) :
    EraseInv g { w with faddr := w.faddr + BitVec.ofNat 24 g.sector, doneBytes := d } := by
  obtain ⟨lo, hs, hlt, hi⟩ := h
  have hlast := upgLast_lt hg
  have hfit : w.faddr.toNat + g.sector ≤ g.upgLast + 1 :=
    add_le_of_mod (sector_pos hg) hs (upgEnd_mod hg) (by omega)
  have ha := toNat_addr_add hg (a := w.faddr) (m := g.sector) (by omega)
  refine ⟨?_, ?_, hn, hi⟩
  · simp only [ha]; omega
  · simp only [ha, Nat.add_mod_right, hs]

theorem progInv_init {g : Geometry} (hg : g.Wf) {start len : Nat} (w : Work) (lo : g.upgStart ≤ start)
    (hi : start + len ≤ g.upgLast + 1) (hl : 0 < len) :
    ProgInv g len { w with
      faddr := BitVec.ofNat 24 start, fend := BitVec.ofNat 25 (start + len), foff := 0, doneBytes := 0 } := by
  have := upgLast_lt hg
  simp only [ProgInv, toNat_addrReg hg (show start ≤ g.flashSize by omega), toNat_endReg hg hi, Geometry.upgSize,
    show (0 : BitVec 20).toNat = 0 from rfl]
  omega

/-- The next page chunk of a program. -/
theorem progInv_next {g : Geometry} (hg : g.Wf) {len : Nat} {w : Work} (d : BitVec 20) (h : ProgInv g len w) {m : Nat}
    (hm : m = chunkLen g w.faddr.toNat (len - w.foff.toNat)) (hn : (w.foff + BitVec.ofNat 20 m).toNat < len) :
    ProgInv g len { w with
      faddr := w.faddr + BitVec.ofNat 24 m, foff := w.foff + BitVec.ofNat 20 m, doneBytes := d } := by
  obtain ⟨lo, hoff, hend, hi, hlen⟩ := h
  have hlast := upgLast_lt hg
  have hleft : m ≤ len - w.foff.toNat := hm ▸ Nat.min_le_right _ _
  have ha := toNat_addr_add hg (a := w.faddr) (m := m) (by omega)
  have ho := toNat_off_add hg (a := w.foff) (m := m) (by omega)
  simp only [ProgInv, ha, ho] at hn ⊢
  omega

theorem readInv_init {g : Geometry} (hg : g.Wf) (w : Work) :
    ReadInv g { w with faddr := BitVec.ofNat 24 g.upgStart, doneBytes := 0, rbuf := [] } := by
  have hle := upgStart_le hg
  have hlast := upgLast_lt hg
  simp only [ReadInv, toNat_addrReg hg (show g.upgStart ≤ g.flashSize by omega)]
  simpa using hle

/-- A chunk that starts in the upgrade region ends in it (42 R149). -/
theorem readChunk_fits {g : Geometry} (hg : g.Wf) {w : Work} (h : ReadInv g w) :
    w.faddr.toNat + g.readChunk ≤ g.upgLast + 1 := by
  obtain ⟨lo, hi, hc, -⟩ := h
  have := add_le_of_mod (readChunk_pos hg) hc (upgSize_mod_readChunk hg) (by simp only [Geometry.upgSize]; omega)
  simp only [Geometry.upgSize] at this
  omega

/-- The next chunk of a read-back. -/
theorem readInv_next {g : Geometry} (hg : g.Wf) {w : Work} (d : BitVec 20) (h : ReadInv g w) {bs : List Byte}
    (hb : bs.length = g.readChunk) (hn : (w.faddr + BitVec.ofNat 24 g.readChunk).toNat ≤ g.upgLast) :
    ReadInv g { w with faddr := w.faddr + BitVec.ofNat 24 g.readChunk, doneBytes := d, rbuf := w.rbuf ++ bs } := by
  have hfit := readChunk_fits hg h
  obtain ⟨lo, hi, hc, hl⟩ := h
  have hlast := upgLast_lt hg
  have ha := toNat_addr_add hg (a := w.faddr) (m := g.readChunk) (by omega)
  have hsub : w.faddr.toNat + g.readChunk - g.upgStart = w.faddr.toNat - g.upgStart + g.readChunk := by omega
  refine ⟨?_, hn, ?_, ?_⟩
  · simp only [ha]; omega
  · simp only [ha, hsub, Nat.add_mod_right, hc]
  · simp only [ha, hsub, List.length_append, hl, hb]

end Sys2Proof.Machine
end

section
/-!
The ranges of the parser's registers (40 R107): ROW stays within 0..16, COL within 0..40, and a backslash is held only
in a row of the frame.
-/

namespace Sys2Proof.Machine

open Sys2Proof (Byte)

/-- ROW, COL and ESC are in their ranges (10 R25, R27). -/
def ParserRegs (w : Work) : Prop :=
  w.row.toNat ≤ ROWS ∧ w.col.toNat ≤ COLS ∧ (w.esc = true → w.row.toNat < ROWS)

theorem inFrame_iff (s : State) : s.inFrame = true ↔ s.work.row.toNat < ROWS := by simp [State.inFrame]

@[simp] theorem put_row (v : Byte) (s : State) : (s.put v).work.row = s.work.row := by
  unfold State.put; split <;> rfl

@[simp] theorem put_esc (v : Byte) (s : State) : (s.put v).work.esc = s.work.esc := by
  unfold State.put; split <;> rfl

/-- A cell is counted only up to the end of the row. -/
theorem put_col_le {s : State} (v : Byte) (h : s.work.col.toNat ≤ COLS) : (s.put v).work.col.toNat ≤ COLS := by
  unfold State.put
  split
  · next hlt =>
    show (s.work.col + 1).toNat ≤ COLS
    rw [BitVec.toNat_add, show (1 : BitVec 6).toNat = 1 from rfl]
    omega
  · exact h

theorem put_parserRegs {s : State} (v : Byte) (h : ParserRegs s.work) : ParserRegs (s.put v).work := by
  obtain ⟨hr, hc, he⟩ := h
  exact ⟨by simpa using hr, put_col_le v hc, by simpa using he⟩

theorem tokInvOn_parserRegs {s : State} (h : ParserRegs s.work) : ParserRegs s.tokInvOn.work := by
  unfold State.tokInvOn
  split
  · exact ⟨h.1, h.2.1, by simp⟩
  · exact h

theorem tokInvOff_parserRegs {s : State} (h : ParserRegs s.work) : ParserRegs s.tokInvOff.work := by
  unfold State.tokInvOff
  split
  · exact ⟨h.1, h.2.1, by simp⟩
  · exact h

/-- A row ends only when no backslash is held. -/
theorem tokNewline_parserRegs {s : State} (hesc : s.work.esc = false) (h : ParserRegs s.work) :
    ParserRegs s.tokNewline.work := by
  unfold State.tokNewline
  split
  · next hf =>
    have hrow := (inFrame_iff s).mp hf
    have : (s.work.row + 1).toNat ≤ ROWS := by
      rw [BitVec.toNat_add, show (1 : BitVec 5).toNat = 1 from rfl]
      omega
    exact ⟨this, by simp, by simp [hesc]⟩
  · exact h

theorem tokPad_parserRegs {s : State} (h : ParserRegs s.work) : ParserRegs s.tokPad.work := by
  unfold State.tokPad
  split
  · exact put_parserRegs _ h
  · exact h

theorem tokChar_parserRegs {s : State} (c : BitVec 7) (h : ParserRegs s.work) : ParserRegs (s.tokChar c).work := by
  unfold State.tokChar
  split
  · exact put_parserRegs _ h
  · exact h

@[simp] theorem tokBslash_row (s : State) : s.tokBslash.work.row = s.work.row := by
  unfold State.tokBslash
  split
  · exact put_row _ _
  · rfl

theorem tokBslash_esc {s : State} (h : s.inFrame = true) : s.tokBslash.work.esc = false := by
  simp [State.tokBslash, h]

theorem tokBslash_parserRegs {s : State} (h : ParserRegs s.work) : ParserRegs s.tokBslash.work := by
  unfold State.tokBslash
  split
  · obtain ⟨hr, hc, -⟩ := put_parserRegs BACKSLASH h
    exact ⟨hr, hc, by simp⟩
  · exact h

theorem plainByte_parserRegs {s : State} (b : Byte) (hesc : s.work.esc = false) (h : ParserRegs s.work) :
    ParserRegs (s.plainByte b).work := by
  unfold State.plainByte
  split_ifs
  · exact tokNewline_parserRegs hesc h
  · exact tokPad_parserRegs h
  · exact tokChar_parserRegs _ h

/-- Before a byte is decoded afresh no backslash is held, and the row is still one of the frame's. -/
theorem unmarkedByte_parserRegs {s : State} (b : Byte) (hf : s.inFrame = true) (h : ParserRegs s.work) :
    ParserRegs (s.unmarkedByte b).work := by
  have fresh : ∀ t : State, t.work.esc = false → t.work.row.toNat < ROWS → ParserRegs t.work →
      ParserRegs (if b = BACKSLASH then t.holdEsc else t.plainByte b).work := by
    intro t hesc hrow ht
    split
    · exact ⟨ht.1, ht.2.1, fun _ => hrow⟩
    · exact plainByte_parserRegs b hesc ht
  have hrow := (inFrame_iff s).mp hf
  unfold State.unmarkedByte
  cases hesc : s.work.esc with
  | true => exact fresh s.tokBslash (tokBslash_esc hf) (by simpa using hrow) (tokBslash_parserRegs h)
  | false => exact fresh s hesc hrow h

theorem frameByte_parserRegs {s : State} (b : Byte) (hf : s.inFrame = true) (h : ParserRegs s.work) :
    ParserRegs (s.frameByte b).work := by
  unfold State.frameByte
  split_ifs
  · exact tokInvOn_parserRegs h
  · exact tokInvOff_parserRegs h
  · exact unmarkedByte_parserRegs b hf h

theorem osdInit_parserRegs (s : State) : ParserRegs s.osdInit.work := by
  simp [ParserRegs, State.osdInit]

theorem osdInv_parse {text : List Byte} {s : State} (h : s.phase = .parse) :
    OsdInv text s ↔ s.pc ≤ text.length ∧ ParserRegs s.work := by
  simp only [OsdInv, h, ParserRegs]

/-- A byte of the text that does not end the operation keeps the parser inside the text and its registers in range. -/
theorem parseByte_osdInv {text : List Byte} {s : State} {b : Byte} (hp : s.phase = .parse) (hpc : s.pc < text.length)
    (h : ParserRegs s.work) (hb : (s.parseByte b).busy = true) : OsdInv text (s.parseByte b) := by
  unfold State.parseByte at hb ⊢
  split_ifs at hb ⊢ with hmsb hf
  · simp [State.tokInvalid] at hb
  · obtain ⟨w, e⟩ := frameByte_shape b s
    have hw : ParserRegs w := by simpa [e] using frameByte_parserRegs b hf h
    rw [e]
    exact (osdInv_parse (by simpa using hp)).mpr ⟨hpc, hw⟩
  · exact (osdInv_parse (by simpa using hp)).mpr ⟨hpc, h⟩

theorem parseStep_osdInv {text : List Byte} {s : State} (hp : s.phase = .parse)
    (h : ParserRegs s.work) (hb : (s.parseStep text).busy = true) : OsdInv text (s.parseStep text) := by
  unfold State.parseStep at hb ⊢
  split at hb
  · simp [OsdInv, State.parseEnd]
  · next b hget => exact parseByte_osdInv hp (List.getElem?_eq_some_iff.mp hget).1 h hb

end Sys2Proof.Machine
end

section
/-!
A step after which the operation still runs keeps the ranges of its registers (the invariant of Safety.lean): for every
operation, phase by phase.
-/

namespace Sys2Proof.Machine

open Sys2Proof (Byte Config Geometry Instr)

/-- Where a step leaves the operation running, `P` holds of the next state. -/
def KeepsRunning (P : State → Prop) (o : Out) : Prop := ∀ t, o = .next t → t.busy = true → P t

theorem keepsRunning_next {P : State → Prop} {t : State} (h : t.busy = true → P t) : KeepsRunning P (.next t) := by
  rintro _ ⟨⟩ hb
  exact h hb

theorem keepsRunning_ended {P : State → Prop} {t : State} (h : t.busy = false) : KeepsRunning P (.next t) :=
  keepsRunning_next fun hb => by simp [h] at hb

theorem keepsRunning_fault (P : State → Prop) (f : Fault) : KeepsRunning P (.fault f) := fun _ h => by simp at h

/-- `u` has the configuration, the phase and the working registers of `s`. -/
def SameRun (s u : State) : Prop := u.cfg = s.cfg ∧ u.phase = s.phase ∧ u.work = s.work

theorem doneEffect_sameRun (k : Nat) (tg : Target) (x : Xact) (s : State) :
    SameRun s (doneEffect k tg (s.sent x)) := by simp [SameRun]

/-- A transaction leaves the operation running only if the device answers it. -/
theorem keepsRunning_answered {P : State → Prop} {x : Xact} {k : List Byte → State → State} {s : State}
    (h : ∀ tg bs u, route s.cfg x = some tg → answerOf x (ownAnswer s tg) s.nextReply = .ok bs → SameRun s u →
      (k bs u).busy = true → P (k bs u)) : KeepsRunning P (transact x k s) := by
  intro t ht hb
  obtain ⟨tg, hr, ⟨bs, ha, rfl⟩ | ⟨e, -, rfl⟩⟩ := transact_next_cases ht
  · exact h tg bs _ hr ha (doneEffect_sameRun _ _ _ _) hb
  · simp at hb

theorem keepsRunning_transact {P : State → Prop} {x : Xact} {k : List Byte → State → State} {s : State}
    (h : ∀ bs u, SameRun s u → (k bs u).busy = true → P (k bs u)) : KeepsRunning P (transact x k s) :=
  keepsRunning_answered fun _ bs u _ _ => h bs u

/-- A poll keeps all registers but LASTSR before the operation goes on with the status byte. -/
theorem keepsRunning_poll {P : State → Prop} {k : Byte → State → State} {s : State}
    (h : ∀ sr u, SameRun { s with work := { s.work with lastsr := sr } } u → (k sr u).busy = true → P (k sr u)) :
    KeepsRunning P (pollStatus k s) := by
  rw [pollStatus_eq]
  refine keepsRunning_transact fun bs u ⟨hc, hp, hw⟩ hb => h _ _ ⟨hc, hp, ?_⟩ hb
  simp only [hw]

/-! ## Flash commands -/

/-- A check that passes is one more of the checks passed. -/
theorem checksInv_succ {cs : List Check} {k : Nat} {e : RegionErr} (h : ∀ c ∈ cs.take k, c.1 = false)
    (hk : cs[k]? = some (false, e)) : ChecksInv cs (.checked (k + 1)) := by
  obtain ⟨hlt, hget⟩ := List.getElem?_eq_some_iff.mp hk
  refine .inr ⟨k + 1, rfl, hlt, fun c hc => ?_⟩
  rw [List.take_add_one, hk, List.mem_append] at hc
  rcases hc with hc | hc
  · exact h c hc
  · simp_all

/-- The step of check `k`, or the transaction after the last check, which ends the command. -/
theorem checkStep_keeps {cs : List Check} {x : Xact} {f : List Byte → State → State} {s : State} {k : Nat}
    {P : State → Prop} (hf : ∀ bs u, (f bs u).busy = false)
    (hP : ∀ e, cs[k]? = some (false, e) → P (s.goto (.checked (k + 1))).advance) :
    KeepsRunning P (checkStep cs (transact x f) k s) := by
  rcases checkStep_cases cs (transact x f) k s with ⟨e, -, he⟩ | ⟨e, hk, he⟩ | ⟨-, he⟩ <;> rw [he]
  · exact keepsRunning_ended rfl
  · exact keepsRunning_next fun _ => hP e hk
  · exact keepsRunning_transact fun bs u _ hb => by simp [hf] at hb

theorem afterChecks_keeps {cs : Config → List Check} {x : Xact} {f : List Byte → State → State} {s : State}
    (hf : ∀ bs u, (f bs u).busy = false) (h : ChecksInv (cs s.cfg) s.phase) :
    KeepsRunning (fun t => ChecksInv (cs t.cfg) t.phase) (afterChecks (cs s.cfg) (transact x f) s) := by
  rcases h with hp | ⟨k, hp, -, hpass⟩ <;> simp only [afterChecks, hp]
  · exact checkStep_keeps hf fun e he => checksInv_succ (by simp) he
  · exact checkStep_keeps hf fun e he => checksInv_succ hpass he

/-! ## What a loop of a sequence sets before it goes on or ends -/

/-- A sector is counted and FADDR moves on (42 R142). -/
def State.afterSector (s : State) : State := (s.countDone .erase s.cfg.geo.sector).moveAddr s.cfg.geo.sector

/-- A page chunk is counted, and FADDR and FOFF move on (42 R146). -/
def State.afterPage (len : Nat) (s : State) : State :=
  ((s.countDone .program (s.nextChunk len)).moveAddr (s.nextChunk len)).moveOff (s.nextChunk len)

/-- RBUF takes a chunk, which is counted, and FADDR moves on (42 R149). -/
def State.afterChunk (bs : List Byte) (s : State) : State :=
  (({ s with work := { s.work with rbuf := s.work.rbuf ++ bs } } : State).countDone .read s.cfg.geo.readChunk).moveAddr
    s.cfg.geo.readChunk

theorem sectorDone_eq (fin : State → State) (s : State) :
    s.sectorDone fin = if s.afterSector.work.faddr.toNat < s.afterSector.work.fend.toNat then
      (s.afterSector.goto .eraseWren).advance else fin s.afterSector := rfl

theorem pageDone_eq (len : Nat) (fin : State → State) (s : State) :
    s.pageDone len fin = if (s.afterPage len).work.foff.toNat < len then
      ((s.afterPage len).goto .progWren).advance else fin (s.afterPage len) := rfl

theorem chunkRead_eq (bs : List Byte) (s : State) :
    s.chunkRead bs = if (s.afterChunk bs).work.faddr.toNat ≤ s.cfg.geo.upgLast then
      ((s.afterChunk bs).goto .readChunk).advance else (s.afterChunk bs).finish (s.afterChunk bs).work.rbuf := rfl

@[simp] theorem afterSector_cfg (s : State) : s.afterSector.cfg = s.cfg := by simp [State.afterSector]
@[simp] theorem afterPage_cfg (len : Nat) (s : State) : (s.afterPage len).cfg = s.cfg := by simp [State.afterPage]
@[simp] theorem afterChunk_cfg (bs : List Byte) (s : State) : (s.afterChunk bs).cfg = s.cfg := by
  simp [State.afterChunk]

@[simp] theorem afterSector_work (s : State) : s.afterSector.work = { s.work with
    faddr := s.work.faddr + BitVec.ofNat 24 s.cfg.geo.sector,
    doneBytes := s.work.doneBytes + BitVec.ofNat 20 s.cfg.geo.sector } := by simp [State.afterSector]

@[simp] theorem afterPage_work (len : Nat) (s : State) : (s.afterPage len).work = { s.work with
    faddr := s.work.faddr + BitVec.ofNat 24 (s.nextChunk len), foff := s.work.foff + BitVec.ofNat 20 (s.nextChunk len),
    doneBytes := s.work.doneBytes + BitVec.ofNat 20 (s.nextChunk len) } := by simp [State.afterPage]

@[simp] theorem afterChunk_work (bs : List Byte) (s : State) : (s.afterChunk bs).work = { s.work with
    faddr := s.work.faddr + BitVec.ofNat 24 s.cfg.geo.readChunk,
    doneBytes := s.work.doneBytes + BitVec.ofNat 20 s.cfg.geo.readChunk, rbuf := s.work.rbuf ++ bs } := by
  simp [State.afterChunk]

/-! ## Erase -/

/-- An erase step runs with its registers in range. -/
def Erasing (s : State) : Prop := s.phase.erasing = true ∧ EraseInv s.cfg.geo s.work

/-- A program step of `len` bytes of data runs with its registers in range. -/
def Programming (len : Nat) (s : State) : Prop := s.phase.programming = true ∧ ProgInv s.cfg.geo len s.work

theorem stepWren_keeps {P : State → Prop} {p : Phase} {s : State}
    (h : ∀ u : State, u.cfg = s.cfg → u.work = s.work → P (u.goto p).advance) : KeepsRunning P (stepWren p s) := by
  rw [stepWren_eq]
  exact keepsRunning_transact fun _ u ⟨hc, _, hw⟩ _ => h u hc hw

theorem stepWren_erasing {s : State} (h : EraseInv s.cfg.geo s.work) : KeepsRunning Erasing (stepWren .eraseSector s) :=
  stepWren_keeps fun u hc hw => ⟨rfl, by simpa [hc, hw] using h⟩

theorem stepSector_erasing {s : State} (h : EraseInv s.cfg.geo s.work) : KeepsRunning Erasing (stepSector s) := by
  rw [stepSector_eq]
  exact keepsRunning_transact fun _ u ⟨hc, _, hw⟩ _ => ⟨rfl, by simpa [hc, hw] using h⟩

/-- The last poll of a sector goes on to the next sector, or to what follows the loop. -/
theorem sectorDone_keeps {P : State → Prop} {fin : State → State} {s : State} (hg : s.cfg.geo.Wf)
    (h : EraseInv s.cfg.geo s.work) (hP : ∀ t, Erasing t → P t)
    (hfin : ∀ u, u.cfg = s.cfg → (fin u).busy = true → P (fin u)) (hb : (s.sectorDone fin).busy = true) :
    P (s.sectorDone fin) := by
  rw [sectorDone_eq] at hb ⊢
  split_ifs at hb ⊢ with hlt
  · exact hP _ ⟨rfl, by simpa using eraseInv_next hg _ h (by simpa using hlt)⟩
  · exact hfin _ (by simp) hb

theorem stepErasePoll_keeps {P : State → Prop} {fin : State → State} {s : State} (hg : s.cfg.geo.Wf)
    (hph : s.phase.erasing = true) (h : EraseInv s.cfg.geo s.work) (hP : ∀ t, Erasing t → P t)
    (hfin : ∀ u, u.cfg = s.cfg → (fin u).busy = true → P (fin u)) : KeepsRunning P (stepErasePoll fin s) := by
  rw [stepErasePoll_eq]
  refine keepsRunning_poll fun sr u ⟨hc, hp, hw⟩ hb => ?_
  have hu : EraseInv u.cfg.geo u.work := by rw [hc, hw]; exact h
  split_ifs at hb ⊢
  · exact hP _ ⟨by simpa [hp] using hph, hu⟩
  · exact sectorDone_keeps (hc ▸ hg) hu hP (fun v hv => hfin v (hv.trans hc)) hb

/-! ## Program -/

theorem stepWren_programming {len : Nat} {s : State} (h : ProgInv s.cfg.geo len s.work) :
    KeepsRunning (Programming len) (stepWren .progPage s) :=
  stepWren_keeps fun u hc hw => ⟨rfl, by simpa [hc, hw] using h⟩

theorem stepPage_programming {len : Nat} {data : List Byte} {s : State} (h : ProgInv s.cfg.geo len s.work) :
    KeepsRunning (Programming len) (stepPage data s) := by
  rw [stepPage_eq]
  exact keepsRunning_transact fun _ u ⟨hc, _, hw⟩ _ => ⟨rfl, by simpa [hc, hw] using h⟩

/-- The last poll of a page chunk goes on to the next chunk, or returns. -/
theorem pageDone_programming {len : Nat} {s : State} (hg : s.cfg.geo.Wf) (h : ProgInv s.cfg.geo len s.work)
    (hb : (s.pageDone len (State.finish [])).busy = true) : Programming len (s.pageDone len (State.finish [])) := by
  rw [pageDone_eq] at hb ⊢
  split_ifs at hb ⊢ with hlt
  · exact ⟨rfl, by simpa using progInv_next hg _ h (m := s.nextChunk len) rfl (by simpa using hlt)⟩
  · simp at hb

theorem stepProgPoll_programming {len : Nat} {s : State} (hg : s.cfg.geo.Wf) (h : Programming len s) :
    KeepsRunning (Programming len) (stepProgPoll len (State.finish []) s) := by
  rw [stepProgPoll_eq]
  refine keepsRunning_poll fun sr u ⟨hc, hp, hw⟩ hb => ?_
  have hu : ProgInv u.cfg.geo len u.work := by rw [hc, hw]; exact h.2
  split_ifs at hb ⊢
  · exact ⟨by simpa [hp] using h.1, hu⟩
  · exact pageDone_programming (hc ▸ hg) hu hb

/-! ## Read back -/

theorem chunkRead_reading {bs : List Byte} {s : State} (hg : s.cfg.geo.Wf) (h : ReadInv s.cfg.geo s.work)
    (hl : bs.length = s.cfg.geo.readChunk) (hb : (s.chunkRead bs).busy = true) :
    (s.chunkRead bs).phase = .readChunk ∧ ReadInv (s.chunkRead bs).cfg.geo (s.chunkRead bs).work := by
  rw [chunkRead_eq] at hb ⊢
  split_ifs at hb ⊢ with hle
  · exact ⟨rfl, by simpa using readInv_next hg _ h hl (by simpa using hle)⟩
  · simp at hb

/-- The chunk returned has READ_CHUNK bytes, as asked (20 R54). -/
theorem stepChunk_reading {s : State} (hc : s.cfg.wf = true) (h : ReadInv s.cfg.geo s.work) :
    KeepsRunning (fun t => t.phase = .readChunk ∧ ReadInv t.cfg.geo t.work) (stepChunk s) := by
  have hg := geo_wf hc
  have hfits := readChunk_fits hg h
  have hlast := upgLast_lt hg
  rw [stepChunk_eq, flashXact_read _ _ (readChunk_pos hg)]
  refine keepsRunning_answered fun tg bs u hr ha ⟨hcu, _, hwu⟩ hb => ?_
  obtain rfl : Target.read s.work.faddr.toNat s.cfg.geo.readChunk = tg := by
    simpa [route_read hc (show s.work.faddr.toNat + s.cfg.geo.readChunk ≤ s.cfg.geo.flashSize by omega)] using hr
  refine chunkRead_reading (hcu ▸ hg) (by simpa [hcu, hwu] using h) ?_ hb
  rw [hcu]
  exact length_of_answered (length_ownAnswer_read s _ _) ha

end Sys2Proof.Machine
end

section
/-!
The invariant of the machine: it holds at reset and every step keeps it.
-/

namespace Sys2Proof.Machine

open Sys2Proof (Byte Config Geometry Instr)

/-! ## The check of each sequence -/

/-- The check of `flash.erase` (42 R140, R141). -/
theorem exec_flashErase_start {start stop : Nat} {s : State} (hp : s.phase = .start) :
    exec (.flashErase start stop) s =
      if start % s.cfg.geo.sector ≠ 0 ∨ start < s.cfg.geo.upgStart ∨ s.cfg.geo.upgLast + 1 < stop then
        .next (s.raise (.invalidRegion (.eraseRange start stop)))
      else if start < stop then .next ((s.eraseInit start stop).goto .eraseWren).advance
      else .next ((s.eraseInit start stop).finish []) := by simp only [exec, execFlashErase, hp]

/-- The check of `flash.write` (42 R140, R144). -/
theorem exec_flashWrite_start {start : Nat} {data : List Byte} {s : State} (hp : s.phase = .start) :
    exec (.flashWrite start data) s =
      if start < s.cfg.geo.upgStart ∨ s.cfg.geo.upgLast + 1 < start + data.length then
        .next (s.raise (.invalidRegion (.writeRange start data.length)))
      else if data.length = 0 then .next ((s.progInit start data.length).finish [])
      else .next ((s.progInit start data.length).goto .progWren).advance := by simp only [exec, execFlashWrite, hp]

/-- The check of `flash.fw` (42 R147, R148). -/
theorem exec_flashFw_start {image : List Byte} {s : State} (hp : s.phase = .start) :
    exec (.flashFw image) s =
      if s.cfg.geo.minFw < image.length ∧ image.length < s.cfg.geo.maxFwExcl then
        .next ((s.eraseInit s.cfg.geo.upgStart (s.cfg.geo.upgLast + 1)).goto .eraseWren).advance
      else .next (s.raise (.invalidImageSize image.length s.cfg.geo.minFw s.cfg.geo.maxFwExcl)) := by
  simp only [exec, execFlashFw, hp]

/-! ## Each operation keeps its own part -/

theorem osdWrite_keeps {text : List Byte} {s : State} (h : OsdInv text s) :
    KeepsRunning (OsdInv text) (exec (.osdWrite text) s) := by
  cases hp : s.phase with
  | start =>
    simp only [exec, execOsdWrite, hp]
    exact keepsRunning_next fun hb => parseStep_osdInv rfl (osdInit_parserRegs s) hb
  | parse =>
    simp only [exec, execOsdWrite, hp]
    exact keepsRunning_next fun hb => parseStep_osdInv hp ((osdInv_parse hp).mp h).2 hb
  | send r =>
    simp only [exec, execOsdWrite, hp, sendStep]
    split
    · split
      · rw [sendRow_eq]
        refine keepsRunning_transact fun _ u _ hb => ?_
        split_ifs at hb ⊢ with hr
        · exact hr
        · simp at hb
      · exact keepsRunning_fault _ _
    · rw [sendFrame_eq]
      exact keepsRunning_transact fun _ u _ hb => by simp at hb
  | _ => simp [OsdInv, hp] at h

theorem flashErase_keeps {start stop : Nat} {s : State} (hg : s.cfg.geo.Wf) (h : RunInv (.flashErase start stop) s) :
    KeepsRunning (RunInv (.flashErase start stop)) (exec (.flashErase start stop) s) := by
  have run : ∀ t, Erasing t → RunInv (.flashErase start stop) t := fun _ => .inr
  rcases h with hp | ⟨hph, hE⟩
  · rw [exec_flashErase_start hp]
    split_ifs with hbad hlt
    · exact keepsRunning_ended rfl
    · exact keepsRunning_next fun _ =>
        run _ ⟨rfl, eraseInv_init hg s.work (by omega) (by omega) hlt (by omega)⟩
    · exact keepsRunning_ended rfl
  · cases hp : s.phase with
    | eraseWren =>
      simp only [exec, execFlashErase, hp]
      exact fun t ht hb => run t (stepWren_erasing hE t ht hb)
    | eraseSector =>
      simp only [exec, execFlashErase, hp]
      exact fun t ht hb => run t (stepSector_erasing hE t ht hb)
    | erasePoll =>
      simp only [exec, execFlashErase, hp]
      exact stepErasePoll_keeps hg hph hE run fun u _ hb => by simp at hb
    | _ => simp [Phase.erasing, hp] at hph

theorem flashWrite_keeps {start : Nat} {data : List Byte} {s : State} (hg : s.cfg.geo.Wf)
    (h : RunInv (.flashWrite start data) s) :
    KeepsRunning (RunInv (.flashWrite start data)) (exec (.flashWrite start data) s) := by
  have run : ∀ t, Programming data.length t → RunInv (.flashWrite start data) t := fun _ => .inr
  rcases h with hp | ⟨hph, hP⟩
  · rw [exec_flashWrite_start hp]
    split_ifs with hbad hlen
    · exact keepsRunning_ended rfl
    · exact keepsRunning_ended rfl
    · exact keepsRunning_next fun _ =>
        run _ ⟨rfl, progInv_init hg s.work (by omega) (by omega) (Nat.pos_of_ne_zero hlen)⟩
  · cases hp : s.phase with
    | progWren =>
      simp only [exec, execFlashWrite, hp]
      exact fun t ht hb => run t (stepWren_programming hP t ht hb)
    | progPage =>
      simp only [exec, execFlashWrite, hp]
      exact fun t ht hb => run t (stepPage_programming hP t ht hb)
    | progPoll =>
      simp only [exec, execFlashWrite, hp]
      exact fun t ht hb => run t (stepProgPoll_programming hg ⟨hph, hP⟩ t ht hb)
    | _ => simp [Phase.programming, hp] at hph

/-- An image of the size `flash.fw` accepts fits the upgrade region, where its write begins (42 R147). -/
theorem fwErased_programming {len : Nat} {s : State} (hg : s.cfg.geo.Wf) (lo : s.cfg.geo.minFw < len)
    (hi : len < s.cfg.geo.maxFwExcl) : Programming len (s.fwErased len) := by
  have hle := upgStart_le hg
  have hfit := maxFwExcl_le hg
  simp only [Geometry.upgSize] at hfit
  exact ⟨rfl, progInv_init hg s.work le_rfl (by omega) (by omega)⟩

theorem flashFw_keeps {image : List Byte} {s : State} (hg : s.cfg.geo.Wf) (h : RunInv (.flashFw image) s) :
    KeepsRunning (RunInv (.flashFw image)) (exec (.flashFw image) s) := by
  have cfg_kept : ∀ t, exec (.flashFw image) s = .next t → t.cfg = s.cfg := fun t ht => (exec_interface rfl ht).1
  rcases h with hp | ⟨lo, hi, hrun⟩
  · rw [exec_flashFw_start hp]
    have hle := upgStart_le hg
    split_ifs with hsize
    · exact keepsRunning_next fun _ =>
        .inr ⟨hsize.1, hsize.2, .inl ⟨rfl, eraseInv_init hg s.work (upgStart_mod hg) le_rfl (by omega) le_rfl⟩⟩
    · exact keepsRunning_ended rfl
  · suffices hk : KeepsRunning (fun t => Erasing t ∨ Programming image.length t) (exec (.flashFw image) s) from
      fun t ht hb => .inr ⟨cfg_kept t ht ▸ lo, cfg_kept t ht ▸ hi, hk t ht hb⟩
    rcases hrun with ⟨hph, hE⟩ | ⟨hph, hP⟩
    · cases hp : s.phase with
      | eraseWren =>
        simp only [exec, execFlashFw, hp]
        exact fun t ht hb => .inl (stepWren_erasing hE t ht hb)
      | eraseSector =>
        simp only [exec, execFlashFw, hp]
        exact fun t ht hb => .inl (stepSector_erasing hE t ht hb)
      | erasePoll =>
        simp only [exec, execFlashFw, hp]
        exact stepErasePoll_keeps hg hph hE (fun _ => .inl) fun u hu _ =>
          .inr (fwErased_programming (hu ▸ hg) (hu ▸ lo) (hu ▸ hi))
      | _ => simp [Phase.erasing, hp] at hph
    · cases hp : s.phase with
      | progWren =>
        simp only [exec, execFlashFw, hp]
        exact fun t ht hb => .inr (stepWren_programming hP t ht hb)
      | progPage =>
        simp only [exec, execFlashFw, hp]
        exact fun t ht hb => .inr (stepPage_programming hP t ht hb)
      | progPoll =>
        simp only [exec, execFlashFw, hp]
        exact fun t ht hb => .inr (stepProgPoll_programming hg ⟨hph, hP⟩ t ht hb)
      | _ => simp [Phase.programming, hp] at hph

theorem flashReadfw_keeps {s : State} (hc : s.cfg.wf = true) (h : RunInv .flashReadfw s) :
    KeepsRunning (RunInv .flashReadfw) (exec .flashReadfw s) := by
  rcases h with hp | ⟨hp, hR⟩ <;> simp only [exec, execFlashReadfw, hp]
  · exact fun t ht hb => .inr (stepChunk_reading (s := s.readInit) hc (readInv_init (geo_wf hc) s.work) t ht hb)
  · exact fun t ht hb => .inr (stepChunk_reading hc hR t ht hb)

/-- A step of an operation keeps the operation's part of the invariant while it runs. -/
theorem exec_keeps_runInv {i : Instr} {s : State} (hc : s.cfg.wf = true) (h : RunInv i s) :
    KeepsRunning (RunInv i) (exec i s) := by
  cases i with
  | osdWrite text => exact osdWrite_keeps h
  | flashRead a n =>
    rw [exec_flashRead_eq]
    exact afterChecks_keeps (cs := fun c => readChecks c.geo a n) (fun _ _ => rfl) h
  | flashPp a p =>
    rw [exec_flashPp_eq]
    exact afterChecks_keeps (cs := fun c => ppChecks c.geo a p.length) (fun _ _ => rfl) h
  | flashSe a =>
    rw [exec_flashSe_eq]
    exact afterChecks_keeps (cs := fun c => seChecks c.geo a) (fun _ _ => rfl) h
  | flashErase start stop => exact flashErase_keeps (geo_wf hc) h
  | flashWrite start data => exact flashWrite_keeps (geo_wf hc) h
  | flashFw image => exact flashFw_keeps (geo_wf hc) h
  | flashReadfw => exact flashReadfw_keeps hc h
  | _ => exact fun _ _ _ => trivial

/-! ## Every step of the machine keeps the invariant -/

/-- An operation that has not begun is in range. -/
theorem runInv_start {s : State} (i : Instr) (hp : s.phase = .start) (hpc : s.pc = 0) : RunInv i s := by
  cases i with
  | osdWrite text => simpa [RunInv, OsdInv, hp] using hpc
  | flashRead a n => exact .inl hp
  | flashPp a p => exact .inl hp
  | flashSe a => exact .inl hp
  | flashErase a b => exact .inl hp
  | flashWrite a d => exact .inl hp
  | flashFw d => exact .inl hp
  | flashReadfw => exact .inl hp
  | _ => trivial

theorem inv_of_idle {s : State} (hc : s.cfg.wf = true) (hm : s.memWf) (hb : s.busy = false) : Inv s :=
  ⟨hc, hm, fun h => by simp [hb] at h⟩

theorem accept_keeps_inv {s : State} (h : Inv s) : Inv s.accept := by
  obtain ⟨hc, hm, hr⟩ := h
  unfold State.accept
  split
  · exact ⟨hc, hm, hr⟩
  · exact ⟨hc, hm, fun _ i _ => runInv_start i rfl rfl⟩

theorem exec_keeps_inv {i : Instr} {s t : State} (h : Inv s) (hb : s.busy = true) (hi : s.current = .ok i)
    (ht : exec i s = .next t) : Inv t := by
  obtain ⟨hc, hm, hr⟩ := h
  have htok := decodeRequest_isToken hi
  obtain ⟨hcfg, hreq, -, -⟩ := exec_interface htok ht
  refine ⟨hcfg ▸ hc, exec_memWf htok (geo_wf hc) hm ht, fun hbt j hj => ?_⟩
  have : t.current = s.current := by simp only [State.current, hcfg, hreq]
  obtain rfl : i = j := by simpa [this, hi] using hj
  exact exec_keeps_runInv hc (hr hb i hi) t ht hbt

theorem rejectWord_keeps_inv {s : State} (h : Inv s) : Inv s.rejectWord := by
  obtain ⟨hc, hm, -⟩ := h
  obtain ⟨w, ph, d, he⟩ := rejectWord_shape s
  rw [he]
  exact inv_of_idle hc hm rfl

theorem cycle_keeps_inv {s t : State} (h : Inv s) (ht : cycle s = .next t) : Inv t := by
  unfold cycle at ht
  split at ht
  · next hb =>
    split at ht
    · next i hi => exact exec_keeps_inv h hb hi ht
    · cases ht
      exact rejectWord_keeps_inv h
  · cases ht
    exact accept_keeps_inv h

theorem blockReset_keeps_inv {s : State} (h : Inv s) : Inv s.blockReset := inv_of_idle h.1 h.2.1 rfl

theorem cycle_cfg {s t : State} (ht : cycle s = .next t) : t.cfg = s.cfg := by
  obtain ⟨-, -, -, hcfg⟩ := cycle_addsAtMostOne ht
  exact hcfg

/-- A reset in flight leaves the device as the interrupted step left it. -/
theorem resetInFlight_keeps_inv {s : State} (h : Inv s) : Inv (s.resetInFlight (cycle s.failing)) := by
  cases ho : cycle s.failing with
  | next t =>
    obtain ⟨hd, hd', hf, hf'⟩ := (cycle_keeps_inv (s := s.failing) h ho).2.1
    exact inv_of_idle h.1 ⟨hd, hd', hf, cycle_cfg ho ▸ hf'⟩ rfl
  | fault r => exact blockReset_keeps_inv h
  | refused r => exact blockReset_keeps_inv h

/-- Settles O56: each operation keeps its own part of the invariant while it runs, and a state with no operation running
needs only the configuration and the device's memories. -/
theorem stepKeepsTheInvariant : Obligations.StepKeepsTheInvariant := by
  intro s t h ht
  unfold step at ht
  split at ht
  · exact cycle_keeps_inv h ht
  · cases ht
    exact blockReset_keeps_inv h
  · cases ht
    exact resetInFlight_keeps_inv h

/-- Settles O55: the default geometry is well formed, and the device's memories are empty. -/
theorem invariantHoldsAtReset : Obligations.InvariantHoldsAtReset :=
  inv_of_idle (by decide) (by simp [State.memWf, State.reset]) rfl

end Sys2Proof.Machine
end

section
/-!
What one step of the block does: requests (10 R20 to R24), the decoded request (30 R80, R89), and a reset between two
transactions (70 R175 to R178).
-/

namespace Sys2Proof.Machine

open Sys2Proof (Byte Config Request Instr DecodeError)

theorem step_of_off {s : State} (h : s.resetIn = .off) : step s = cycle s := by simp only [step, h]

theorem cycle_of_idle {s : State} (h : s.busy = false) : cycle s = .next s.accept := by simp [cycle, h]

theorem cycle_of_current {s : State} {i : Instr} (hb : s.busy = true) (hi : s.current = .ok i) :
    cycle s = exec i s := by simp [cycle, hb, hi]

theorem cycle_of_undecodable {s : State} {e : DecodeError} (hb : s.busy = true) (he : s.current = .error e) :
    cycle s = .next s.rejectWord := by simp [cycle, hb, he]

theorem step_of_current {s : State} {i : Instr} (ho : s.resetIn = .off) (hb : s.busy = true) (hi : s.current = .ok i) :
    step s = exec i s := (step_of_off ho).trans (cycle_of_current hb hi)

theorem step_of_undecodable {s : State} {e : DecodeError} (ho : s.resetIn = .off) (hb : s.busy = true)
    (he : s.current = .error e) : step s = .next s.rejectWord := (step_of_off ho).trans (cycle_of_undecodable hb he)

theorem accept_of_none {s : State} (h : s.requests = []) : s.accept = s := by simp only [State.accept, h]

theorem accept_of_cons {s : State} {r : Request} {rest : List Request} (h : s.requests = r :: rest) :
    s.accept = { s with busy := true, pc := 0, phase := .start, req := r, requests := rest } := by
  simp only [State.accept, h]

/-- A step of a busy block leaves the interface to the caller alone. -/
theorem step_busy_interface {s t : State} (ho : s.resetIn = .off) (hb : s.busy = true) (ht : step s = .next t) :
    SameInterface s t := by
  cases hc : s.current with
  | ok i => exact exec_interface (decodeRequest_isToken hc) ((step_of_current ho hb hc).symm.trans ht)
  | error e =>
    obtain rfl : s.rejectWord = t := by simpa [step_of_undecodable ho hb hc] using ht
    exact rejectWord_interface s

/-- Settles O9: by the acceptance of a request, and since a step of an operation leaves the caller's side alone. -/
theorem requestsAreAcceptedOnlyWhileIdle : Obligations.RequestsAreAcceptedOnlyWhileIdle := by
  intro s ho
  refine ⟨fun hb hr => ?_, fun r rest hb hr => ?_, fun t hb ht => ?_⟩
  · rw [step_of_off ho, cycle_of_idle hb, accept_of_none hr]
  · rw [step_of_off ho, cycle_of_idle hb, accept_of_cons hr]
  · obtain ⟨-, hreq, hrequests, -⟩ := step_busy_interface ho hb ht
    exact ⟨hrequests, hreq⟩

/-- In the first step of `osd.write` the invariant says that `pc` is 0. -/
theorem pc_of_inv {s : State} {i : Instr} (h : Inv s) (hb : s.busy = true) (hi : s.current = .ok i) (text : List Byte)
    (he : i = .osdWrite text) (hp : s.phase = .start) : s.pc = 0 := by
  subst he
  have hr : OsdInv text s := h.2.2 hb _ hi
  simpa only [OsdInv, hp] using hr

/-- Settles O54: a step of an operation, or of a word that decodes to nothing, goes on or returns one result. -/
theorem stepGoesOnOrReturnsOneResult : Obligations.StepGoesOnOrReturnsOneResult := by
  intro s t h ho hb ht
  cases hc : s.current with
  | ok i =>
    exact acts_returnsOne hb
      (exec_acts (decodeRequest_isToken hc) (pc_of_inv h hb hc) ((step_of_current ho hb hc).symm.trans ht))
  | error e =>
    obtain rfl : s.rejectWord = t := by simpa [step_of_undecodable ho hb hc] using ht
    exact actsInside_returnsOne hb (.inr (.inr ⟨_, rejectWord_shape s⟩))

/-- The selector of a raw SPI command always decodes (30 R80). -/
theorem sel_ne_spi_of_undecodable {c : Config} {r : Request} {e : DecodeError} (h : decodeRequest c r = .error e) :
    r.sel ≠ 0x10 := by
  intro hs
  simp [decodeRequest, hs] at h

theorem rejectWord_eq (s : State) :
    s.rejectWord = if s.req.sel = 0x10 ∨ s.req.sel = 0x11 then s.refuse (.invalidOpcode s.req.sel s.req.spiop)
      else s.raise (.invalidOpcode s.req.sel s.req.spiop) := rfl

/-- Settles O6: the words of `flash.wait` that decode to nothing are refused, all others are raised. -/
theorem stepRunsTheDecodedRequest : Obligations.StepRunsTheDecodedRequest := by
  intro s ho hb
  refine ⟨fun i hi => step_of_current ho hb hi, fun e he => ?_⟩
  rw [step_of_undecodable ho hb he]
  have hspi := sel_ne_spi_of_undecodable he
  refine ⟨fun hw => ⟨s.pc + 1, ?_⟩, fun hw => ⟨s.pc + 1, ?_⟩⟩
  · rw [rejectWord_eq, if_pos (.inr hw), hw]
    rfl
  · rw [rejectWord_eq, if_neg (not_or.mpr ⟨hspi, hw⟩)]
    rfl

/-- Settles O10: a reset between two transactions gives the registers the values of 10 R40. -/
theorem resetPutsEveryRegisterInItsResetValue : Obligations.ResetPutsEveryRegisterInItsResetValue := by
  refine ⟨fun s h => ⟨s.blockReset, ?_, rfl, rfl⟩, rfl, rfl, rfl, rfl⟩
  simp only [step, h]

end Sys2Proof.Machine
end

section
/-!
The checks of the flash commands (41 R121 to R130): which pass for which operands, what a check step does, and what the
transaction after the last check leaves.
-/

namespace Sys2Proof.Machine

open Sys2Proof (Byte Config Geometry Instr)

/-! ## Check steps -/

theorem goto_checked (s : State) (k : Nat) :
    (s.goto (.checked (k + 1))).advance = { s with phase := .checked (k + 1), pc := s.pc + 1 } := rfl

/-- A check that passes is a step of its own (10 R24). -/
theorem afterChecks_pass {cs : List Check} {go : State → Out} {s : State} {k : Nat} {e : RegionErr}
    (hp : s.phase = checkPhase k) (hk : cs[k]? = some (false, e)) :
    afterChecks cs go s = .next { s with phase := .checked (k + 1), pc := s.pc + 1 } := by
  rw [afterChecks_eq hp, ← goto_checked]
  simp [checkStep, hk]

/-- A check that fails refuses the command (41 R125). -/
theorem afterChecks_refuse {cs : List Check} {go : State → Out} {s : State} {k : Nat} {e : RegionErr}
    (hp : s.phase = checkPhase k) (hk : cs[k]? = some (true, e)) :
    afterChecks cs go s = .next (s.refuse (.invalidRegion e)) := by
  rw [afterChecks_eq hp]
  simp [checkStep, hk]

/-- After the last check the transaction is sent. -/
theorem afterChecks_send {cs : List Check} {go : State → Out} {s : State} (hp : s.phase = checkPhase cs.length) :
    afterChecks cs go s = go s := by
  rw [afterChecks_eq hp]
  simp [checkStep]

/-- All checks of the list pass. -/
def AllPass (cs : List Check) : Prop := ∀ c ∈ cs, c.1 = false

theorem getElem?_of_allPass {cs : List Check} (h : AllPass cs) {k : Nat} (hk : k < cs.length) :
    ∃ e, cs[k]? = some (false, e) := by
  have : cs[k].1 = false := h _ (List.getElem_mem hk)
  exact ⟨cs[k].2, by rw [List.getElem?_eq_getElem hk, ← this]⟩

theorem afterChecks_of_allPass {cs : List Check} {go : State → Out} {s : State} {k : Nat} (h : AllPass cs)
    (hk : k < cs.length) (hp : s.phase = checkPhase k) :
    afterChecks cs go s = .next { s with phase := .checked (k + 1), pc := s.pc + 1 } :=
  (getElem?_of_allPass h hk).elim fun _ he => afterChecks_pass hp he

theorem readChecks_allPass {g : Geometry} {a n : Nat} (hn : 1 ≤ n) (ha : a + n ≤ g.flashSize) :
    AllPass (readChecks g a n) := by
  simp only [AllPass, readChecks, List.forall_mem_cons, decide_eq_false_iff_not]
  exact ⟨by omega, by omega, by simp⟩

theorem ppChecks_allPass {g : Geometry} (hg : g.Wf) {a len : Nat} (h1 : 1 ≤ len) (hp : a % g.page + len ≤ g.page)
    (lo : g.upgStart ≤ a) (hi : a + len ≤ g.upgLast + 1) : AllPass (ppChecks g a len) := by
  have := upgLast_lt hg
  simp only [AllPass, ppChecks, List.forall_mem_cons, decide_eq_false_iff_not]
  exact ⟨by omega, by omega, by omega, by simp⟩

theorem seChecks_allPass {g : Geometry} (hg : g.Wf) {a : Nat} (lo : g.upgStart ≤ a) (hi : a ≤ g.upgLast) :
    AllPass (seChecks g a) := by
  have := upgLast_lt hg
  simp only [AllPass, seChecks, List.forall_mem_cons, decide_eq_false_iff_not]
  exact ⟨by omega, by omega, by simp⟩

/-! ## The transaction of a command that passed its checks -/

/-- An answered transaction to a known target is its continuation at the device's effect. -/
theorem transact_of_answers {x : Xact} {tg : Target} {s : State} {bs : List Byte} (k : List Byte → State → State)
    (hr : route s.cfg x = some tg) (ha : s.answers x bs) :
    transact x k s = .next (k bs (doneEffect s.draws tg (s.sent x))) := by
  obtain ⟨tg', hr', ha⟩ := ha
  exact transact_of_ok k hr (Option.some.inj (hr'.symm.trans hr) ▸ ha)

theorem length_of_answers_read {s : State} {a n : Nat} {bs : List Byte} (hc : s.cfg.wf = true)
    (ha : a + n ≤ s.cfg.geo.flashSize) (h : s.answers (readXact s.cfg a n) bs) : bs.length = n := by
  obtain ⟨tg, hr, h⟩ := h
  obtain rfl : Target.read a n = tg := by simpa [route_read hc ha] using hr
  exact length_of_answered (length_ownAnswer_read s a n) h

/-- Settles O27: both checks pass, and the READ returns as many bytes as it asked for. -/
theorem flashReadReturnsTheAnswer : Obligations.FlashReadReturnsTheAnswer := by
  refine ⟨by decide, fun s a n hc hn ha => ⟨fun k hk hp => ?_, fun bs hp h => ?_⟩⟩ <;> rw [exec_flashRead_eq]
  · exact afterChecks_of_allPass (readChecks_allPass hn ha) hk hp
  · refine ⟨length_of_answers_read hc ha h, s.pc + 1, ?_⟩
    rw [afterChecks_send hp, flashXact_read _ _ hn, transact_of_answers _ (route_read hc ha) h]
    rfl

/-- Settles O29: the three checks pass, and the PP frame reaches only the page it addresses. -/
theorem pageProgramSendsOneFrame : Obligations.PageProgramSendsOneFrame := by
  refine ⟨by decide, ?_⟩
  rintro s _ a p hc rfl h1 hpage lo hi
  have hlast := upgLast_lt (geo_wf hc)
  refine ⟨fun k hk hp => ?_, fun bs hp h => ?_⟩ <;> rw [exec_flashPp_eq]
  · exact afterChecks_of_allPass (ppChecks_allPass (geo_wf hc) h1 hpage lo hi) hk hp
  · have hr := route_pp (p := p) hc (a := a) (by omega) (by omega)
    rw [afterChecks_send hp, flashXact_pp, transact_of_answers _ hr h]
    refine ⟨_, rfl, rfl, fun x hx => doneEffect_flash_outside (tg := .program a p) ?_⟩
    simp only [Target.touches, sent_cfg]
    omega

/-- Settles O31: both checks pass, and the SE frame reaches only the sector it addresses. -/
theorem sectorEraseSendsOneFrame : Obligations.SectorEraseSendsOneFrame := by
  refine ⟨by decide, ?_⟩
  rintro s _ a hc rfl lo hi
  have hlast := upgLast_lt (geo_wf hc)
  refine ⟨fun k hk hp => ?_, fun bs hp h => ?_⟩ <;> rw [exec_flashSe_eq]
  · exact afterChecks_of_allPass (seChecks_allPass (geo_wf hc) lo hi) hk hp
  · have hr := route_se hc (a := a) (by omega)
    rw [afterChecks_send hp, flashXact_se, transact_of_answers _ hr h]
    refine ⟨_, rfl, rfl, fun x hx => doneEffect_flash_outside (tg := .erase a) ?_⟩
    simp only [Target.touches, sent_cfg]
    omega

/-! ## A command that one of its checks refuses -/

/-- The operation has ended in `t` with InvalidRegion, and no register but ERR, `pc` and the phase has changed. -/
def RefusedWith (e : RegionErr) (s t : State) : Prop :=
  t = { s with
    busy := false, err := 6, results := s.results ++ [⟨6, [], .invalidRegion e⟩], pc := t.pc, phase := t.phase }

theorem runSteps_succ_of_next {k : Nat} {s t : State} (h : step s = .next t) : runSteps (k + 1) s = runSteps k t := by
  simp only [runSteps, h]

/-- A command whose first `n` checks from `j` on pass and whose next check fails has ended after `n + 1` steps. -/
theorem runSteps_refused {i : Instr} {cs : List Check} {go : State → Out} {e : RegionErr} {c : Config}
    (hx : ∀ u : State, u.cfg = c → exec i u = afterChecks cs go u) (n : Nat) :
    ∀ (j : Nat) (s : State), s.cfg = c → s.resetIn = .off → s.busy = true → s.current = .ok i →
      s.phase = checkPhase j → (∀ m, m < n → ∃ e', cs[j + m]? = some (false, e')) → cs[j + n]? = some (true, e) →
      ∃ t, runSteps (n + 1) s = .next t ∧ RefusedWith e s t := by
  induction n with
  | zero =>
    intro j s hc ho hb hi hp _ hfail
    refine ⟨s.refuse (.invalidRegion e), ?_, rfl⟩
    rw [runSteps_succ_of_next ((step_of_current ho hb hi).trans ((hx s hc).trans (afterChecks_refuse hp hfail)))]
    rfl
  | succ n ih =>
    intro j s hc ho hb hi hp hpass hfail
    obtain ⟨e', he'⟩ := hpass 0 (Nat.succ_pos n)
    rw [runSteps_succ_of_next ((step_of_current ho hb hi).trans ((hx s hc).trans (afterChecks_pass hp he')))]
    refine ih (j + 1) { s with phase := .checked (j + 1), pc := s.pc + 1 } hc ho hb hi rfl (fun m hm => ?_) ?_
    · rw [Nat.add_right_comm]
      exact hpass (m + 1) (Nat.succ_lt_succ hm)
    · rwa [Nat.add_right_comm]

/-- Check `k` of the list is the first that fails, with the context `e`. -/
def FirstFails (cs : List Check) (k : Nat) (e : RegionErr) : Prop :=
  (∀ m, m < k → ∃ e', cs[m]? = some (false, e')) ∧ cs[k]? = some (true, e)

theorem firstFails_head {p : Prop} [Decidable p] {e : RegionErr} {cs : List Check} (h : p) :
    FirstFails ((decide p, e) :: cs) 0 e := by simp [FirstFails, h]

theorem firstFails_tail {p : Prop} [Decidable p] {e e' : RegionErr} {cs : List Check} {k : Nat} (h : ¬ p)
    (ht : FirstFails cs k e) : FirstFails ((decide p, e') :: cs) (k + 1) e := by
  refine ⟨fun m hm => ?_, by simpa using ht.2⟩
  cases m with
  | zero => exact ⟨e', by simp [h]⟩
  | succ m => simpa using ht.1 m (by omega)

/-- An accepted command ends with its first failing check, in the step of that check. -/
theorem accepted_refused {i : Instr} {cs : List Check} {go : State → Out} {e : RegionErr} {s : State} {n : Nat}
    (ha : s.accepted i) (hx : ∀ u : State, u.cfg = s.cfg → exec i u = afterChecks cs go u) (hf : FirstFails cs n e) :
    ∃ t, runSteps (n + 1) s = .next t ∧ RefusedWith e s t := by
  obtain ⟨ho, hb, -, hp, hi⟩ := ha
  exact runSteps_refused hx n 0 s rfl ho hb hi hp (by simpa using hf.1) (by simpa using hf.2)

/-- Settles O30: in each case the first failing check is at its place in the command's list. -/
theorem flashCommandRefusals : Obligations.FlashCommandRefusals := by
  rintro s _ i a k e hc rfl ha
  rintro (⟨n, rfl, h⟩ | ⟨p, rfl, h⟩ | ⟨rfl, h⟩)
  · have refused {k e} (hf : FirstFails (readChecks s.cfg.geo a n) k e) :=
      accepted_refused ha (fun u hu => hu ▸ exec_flashRead_eq a n u) hf
    rcases h with ⟨hn, rfl, rfl⟩ | ⟨hn, hsize, rfl, rfl⟩
    · exact refused (firstFails_head (by omega))
    · exact refused (firstFails_tail (by omega) (firstFails_head hsize))
  · have refused {k e} (hf : FirstFails (ppChecks s.cfg.geo a p.length) k e) :=
      accepted_refused ha (fun u hu => hu ▸ exec_flashPp_eq a p u) hf
    rcases h with ⟨hlen, rfl, rfl⟩ | ⟨h1, hpage, hsize, rfl, rfl⟩ | ⟨h1, hpage, hsize, hupg, rfl, rfl⟩
    · exact refused (firstFails_head (by omega))
    · exact refused (firstFails_tail (by omega) (firstFails_head hsize))
    · exact refused (firstFails_tail (by omega) (firstFails_tail (by omega) (firstFails_head hupg)))
  · have refused {k e} (hf : FirstFails (seChecks s.cfg.geo a) k e) :=
      accepted_refused ha (fun u hu => hu ▸ exec_flashSe_eq a u) hf
    rcases h with ⟨hsize, rfl, rfl⟩ | ⟨hsize, hupg, rfl, rfl⟩
    · exact refused (firstFails_head hsize)
    · exact refused (firstFails_tail (by omega) (firstFails_head hupg))

end Sys2Proof.Machine
end

section
/-!
The check of each sequence, a step of its own (42 R140, R141, R144, R147, R148): what it refuses, and the registers it
sets when it passes.
-/

namespace Sys2Proof.Machine

open Sys2Proof (Byte Config Geometry Instr)

/-- An operation that raises an error ends with its code, and its working registers are free (60 R160). -/
theorem endsAs_raise (e : Info) (s : State) :
    EndsAs (.next (s.raise e)) { s with
      busy := false, err := e.code, results := s.results ++ [⟨e.code, [], e⟩], work := Config.freeWork s.draws,
      draws := s.draws + 1 } := ⟨s.pc + 1, rfl⟩

theorem endsAs_finish (v : List Byte) (s : State) :
    EndsAs (.next (s.finish v)) { s with busy := false, err := 0, results := s.results ++ [⟨0, v, .success⟩] } :=
  ⟨s.pc + 1, rfl⟩

/-- Where the start fits FADDR, an erase that goes on holds it there. -/
theorem eraseInit_goto {start stop : Nat} {s : State} (hg : s.cfg.geo.Wf) (h : start ≤ s.cfg.geo.flashSize) :
    ((s.eraseInit start stop).goto .eraseWren).advance = { s with
      phase := .eraseWren, pc := s.pc + 1,
      work := { s.work with faddr := BitVec.ofNat 24 start, fend := BitVec.ofNat 25 stop, doneBytes := 0 } } := by
  simp only [State.eraseInit, startReg_of_le hg h, State.goto, State.advance]

/-- Settles O36: the three outcomes of the check. -/
theorem eraseChecksItsRangeFirst : Obligations.EraseChecksItsRangeFirst := by
  rintro s _ start stop rfl hp
  rw [exec_flashErase_start hp]
  refine ⟨fun hbad => ?_, fun hs lo hi hle => ?_, fun hc hs lo hlt hi => ?_⟩
  · rw [if_pos hbad]
    exact endsAs_raise _ s
  · rw [if_neg (by omega), if_neg (by omega)]
    exact endsAs_finish [] (s.eraseInit start stop)
  · have hlast := upgLast_lt (geo_wf hc)
    rw [if_neg (by omega), if_pos hlt, eraseInit_goto (geo_wf hc) (by omega)]

/-- Settles O40: the three outcomes of the check. -/
theorem writeChecksItsRangeFirst : Obligations.WriteChecksItsRangeFirst := by
  rintro s _ start data rfl hp _ rfl
  rw [exec_flashWrite_start hp]
  refine ⟨fun hbad => ?_, ?_, fun lo hi hne => ?_⟩
  · rw [if_pos hbad]
    exact endsAs_raise _ s
  · rintro lo hi rfl
    rw [if_neg (by simp only [List.length_nil]; omega), if_pos List.length_nil]
    exact endsAs_finish [] (s.progInit start 0)
  · rw [if_neg (by omega), if_neg (mt List.length_eq_zero_iff.mp hne)]
    rfl

/-- Settles O45: the two outcomes of the check. -/
theorem firmwareSizeGuard : Obligations.FirmwareSizeGuard := by
  refine ⟨⟨rfl, rfl⟩, ?_⟩
  rintro s _ image hp hc rfl
  rw [exec_flashFw_start hp]
  refine ⟨fun hbad => ?_, fun lo hi => ?_⟩
  · rw [if_neg (by omega)]
    exact endsAs_raise _ s
  · have hle := upgStart_le (geo_wf hc)
    have hlast := upgLast_lt (geo_wf hc)
    rw [if_pos ⟨lo, hi⟩, eraseInit_goto (geo_wf hc) (by omega)]

end Sys2Proof.Machine
end

section
/-!
Two states that differ only in working registers the running operation does not read before it has set them, and in ERR
while it runs, take the same steps (10 R41, 70 R180): what earlier operations left there does not matter.
-/

namespace Sys2Proof.Machine

open Sys2Proof (Byte Config Request Instr DecodeError)

/-! ## The relation -/

/-- The working registers and ERR are replaced. -/
def State.withRegs (v : Work) (e : Byte) (s : State) : State := { s with work := v, err := e }

/-- The registers the parser reads (40 R107) are the same. -/
def ParseAlike (w v : Work) : Prop :=
  v.row = w.row ∧ v.col = w.col ∧ v.inv = w.inv ∧ v.esc = w.esc ∧ v.fb = w.fb

/-- The registers an erase loop reads (42 R142) are the same. -/
def EraseAlike (w v : Work) : Prop := v.faddr = w.faddr ∧ v.fend = w.fend ∧ v.doneBytes = w.doneBytes

/-- The registers a program loop reads (42 R146) are the same. -/
def ProgAlike (w v : Work) : Prop := v.faddr = w.faddr ∧ v.foff = w.foff ∧ v.doneBytes = w.doneBytes

/-- The registers a read-back reads (42 R149) are the same. -/
def ReadAlike (w v : Work) : Prop := v.faddr = w.faddr ∧ v.doneBytes = w.doneBytes ∧ v.rbuf = w.rbuf

/-- The registers that the steps from this phase on read before they set them are the same. -/
def Phase.readsAlike (p : Phase) (w v : Work) : Prop :=
  match p with
  | .start | .checked _ => True
  | .parse => ParseAlike w v
  | .send _ => v.fb = w.fb
  | .eraseWren | .eraseSector | .erasePoll => EraseAlike w v
  | .progWren | .progPage | .progPoll => ProgAlike w v
  | .readChunk => ReadAlike w v

/-- The states differ only in working registers that a running operation does not read before it has set them, and in
ERR while one runs. -/
def Alike (s u : State) : Prop :=
  ∃ v e, u = s.withRegs v e ∧ (s.busy = true → s.phase.readsAlike s.work v) ∧ (s.busy = false → e = s.err)

/-- The two outcomes are the same but for what `Alike` leaves out. -/
def AlikeOut (o o' : Out) : Prop :=
  match o, o' with
  | .next s, .next u => Alike s u
  | .fault f, .fault f' => f = f'
  | .refused r, .refused r' => r = r'
  | _, _ => False

theorem alike_run {s : State} {v : Work} {e : Byte} (hb : s.busy = true) (h : s.phase.readsAlike s.work v) :
    Alike s (s.withRegs v e) := ⟨v, e, rfl, fun _ => h, fun hi => by simp [hb] at hi⟩

theorem alike_idle {s : State} (v : Work) (hb : s.busy = false) : Alike s (s.withRegs v s.err) :=
  ⟨v, s.err, rfl, fun hr => by simp [hb] at hr, fun _ => rfl⟩

theorem alike_self {s : State} (hb : s.busy = false) : Alike s s := alike_idle s.work hb

theorem alike_finish (b : List Byte) (s : State) (v : Work) (e : Byte) :
    Alike (s.finish b) ((s.withRegs v e).finish b) := alike_idle (s := s.finish b) v rfl

theorem alike_refuse (x : Info) (s : State) (v : Work) (e : Byte) :
    Alike (s.refuse x) ((s.withRegs v e).refuse x) := alike_idle (s := s.refuse x) v rfl

/-- An error frees the working registers, and so forgets what they held. -/
theorem alike_raise (x : Info) (s : State) (v : Work) (e : Byte) : Alike (s.raise x) ((s.withRegs v e).raise x) :=
  alike_self (s := s.raise x) rfl

theorem alike_goto {s : State} {v : Work} {e : Byte} (p : Phase) (hb : s.busy = true) (h : p.readsAlike s.work v) :
    Alike (s.goto p).advance ((s.withRegs v e).goto p).advance := alike_run (s := (s.goto p).advance) hb h

theorem alike_advance {s : State} {v : Work} {e : Byte} (hb : s.busy = true) (h : s.phase.readsAlike s.work v) :
    Alike s.advance (s.withRegs v e).advance := alike_run (s := s.advance) hb h

/-! ## Transactions -/

theorem doneEffect_withRegs (k : Nat) (tg : Target) (x : Xact) (s : State) (v : Work) (e : Byte) :
    doneEffect k tg ((s.withRegs v e).sent x) = (doneEffect k tg (s.sent x)).withRegs v e := by
  cases tg <;> rfl

theorem failedEffect_withRegs (k : Nat) (tg : Target) (x : Xact) (s : State) (v : Work) (e : Byte) :
    failedEffect k tg ((s.withRegs v e).sent x) = (failedEffect k tg (s.sent x)).withRegs v e := by
  cases tg <;> rfl

theorem ownAnswer_withRegs (tg : Target) (s : State) (v : Work) (e : Byte) :
    ownAnswer (s.withRegs v e) tg = ownAnswer s tg := by
  cases tg <;> rfl

/-- One frame gets one answer, and the states the operation goes on from differ as before. -/
theorem transact_alike {x : Xact} {k : List Byte → State → State} {s : State} {v : Work} {e : Byte}
    (hk : ∀ bs u, u.busy = s.busy → SameRun s u → Alike (k bs u) (k bs (u.withRegs v e))) :
    AlikeOut (transact x k s) (transact x k (s.withRegs v e)) := by
  cases hr : route s.cfg x with
  | none =>
    have hr' : route (s.withRegs v e).cfg x = none := hr
    simp [transact, hr, hr', AlikeOut]
  | some tg =>
    have hr' : route (s.withRegs v e).cfg x = some tg := hr
    cases ha : answerOf x (ownAnswer s tg) s.nextReply with
    | ok bs =>
      rw [transact_of_ok k hr ha, transact_of_ok k hr' ((ownAnswer_withRegs tg s v e).symm ▸ ha), doneEffect_withRegs]
      exact hk bs _ (by simp) (doneEffect_sameRun _ _ _ _)
    | error err =>
      rw [transact_of_error k hr ha, transact_of_error k hr' ((ownAnswer_withRegs tg s v e).symm ▸ ha),
        failedEffect_withRegs]
      exact alike_raise _ _ v e

/-- A poll sets LASTSR in both states to the byte answered. -/
theorem poll_alike {k : Byte → State → State} {s : State} {v : Work} {e : Byte}
    (hk : ∀ sr u, u.busy = s.busy → SameRun { s with work := { s.work with lastsr := sr } } u →
      Alike (k sr u) (k sr (u.withRegs { v with lastsr := sr } e))) :
    AlikeOut (pollStatus k s) (pollStatus k (s.withRegs v e)) := by
  rw [pollStatus_eq, pollStatus_eq]
  refine transact_alike fun bs u hb ⟨hc, hp, hw⟩ => ?_
  exact hk _ { u with work := { u.work with lastsr := bs.headD 0 } } hb ⟨hc, hp, by simp only [hw]⟩

theorem readsAlike_lastsr {p : Phase} {w v : Work} (b : Byte) (h : p.readsAlike w v) :
    p.readsAlike { w with lastsr := b } { v with lastsr := b } := by
  cases p <;> exact h

/-! ## Flash commands -/

theorem checkStep_alike {cs : List Check} {go : State → Out} {k : Nat} {s : State} {v : Work} {e : Byte}
    (hb : s.busy = true) (hgo : AlikeOut (go s) (go (s.withRegs v e))) :
    AlikeOut (checkStep cs go k s) (checkStep cs go k (s.withRegs v e)) := by
  unfold checkStep
  split
  · exact hgo
  · split
    · exact alike_refuse _ s v e
    · exact alike_goto _ hb trivial

theorem afterChecks_alike {cs : List Check} {go : State → Out} {s : State} {v : Work} {e : Byte}
    (hb : s.busy = true) (hgo : AlikeOut (go s) (go (s.withRegs v e))) :
    AlikeOut (afterChecks cs go s) (afterChecks cs go (s.withRegs v e)) := by
  have hp : (s.withRegs v e).phase = s.phase := rfl
  cases h : s.phase <;> rw [h] at hp <;> simp only [afterChecks, h, hp]
  case start => exact checkStep_alike hb hgo
  case checked k => exact checkStep_alike hb hgo
  all_goals rfl

/-! ## The streaming parser -/

/-- The parser's registers of `w`, and the others of `v`. -/
def Work.parserOf (w v : Work) : Work :=
  { v with row := w.row, col := w.col, inv := w.inv, esc := w.esc, fb := w.fb }

/-- Every register but the parser's is replaced, and ERR. -/
def State.withOthers (v : Work) (e : Byte) (s : State) : State := s.withRegs (s.work.parserOf v) e

theorem withRegs_eq_withOthers {s : State} {v : Work} (e : Byte) (h : ParseAlike s.work v) :
    s.withRegs v e = s.withOthers v e := by
  obtain ⟨hr, hc, hi, he, hf⟩ := h
  simp only [State.withOthers, Work.parserOf, ← hr, ← hc, ← hi, ← he, ← hf]

theorem put_withOthers (b : Byte) (s : State) (v : Work) (e : Byte) :
    (s.withOthers v e).put b = (s.put b).withOthers v e := by
  simp only [State.put, apply_ite (State.withOthers v e)]
  rfl

theorem tokInvOn_withOthers (s : State) (v : Work) (e : Byte) :
    (s.withOthers v e).tokInvOn = s.tokInvOn.withOthers v e := by
  simp only [State.tokInvOn, apply_ite (State.withOthers v e)]
  rfl

theorem tokInvOff_withOthers (s : State) (v : Work) (e : Byte) :
    (s.withOthers v e).tokInvOff = s.tokInvOff.withOthers v e := by
  simp only [State.tokInvOff, apply_ite (State.withOthers v e)]
  rfl

theorem tokNewline_withOthers (s : State) (v : Work) (e : Byte) :
    (s.withOthers v e).tokNewline = s.tokNewline.withOthers v e := by
  simp only [State.tokNewline, apply_ite (State.withOthers v e)]
  rfl

theorem tokPad_withOthers (s : State) (v : Work) (e : Byte) :
    (s.withOthers v e).tokPad = s.tokPad.withOthers v e := by
  simp only [State.tokPad, apply_ite (State.withOthers v e), put_withOthers]
  rfl

theorem tokChar_withOthers (c : BitVec 7) (s : State) (v : Work) (e : Byte) :
    (s.withOthers v e).tokChar c = (s.tokChar c).withOthers v e := by
  simp only [State.tokChar, apply_ite (State.withOthers v e), put_withOthers]
  rfl

theorem tokBslash_withOthers (s : State) (v : Work) (e : Byte) :
    (s.withOthers v e).tokBslash = s.tokBslash.withOthers v e := by
  simp only [State.tokBslash, apply_ite (State.withOthers v e), put_withOthers]
  rfl

theorem plainByte_withOthers (b : Byte) (s : State) (v : Work) (e : Byte) :
    (s.withOthers v e).plainByte b = (s.plainByte b).withOthers v e := by
  simp only [State.plainByte, apply_ite (State.withOthers v e), tokNewline_withOthers, tokPad_withOthers,
    tokChar_withOthers]

/-- A held backslash is a cell in both states, or in neither. -/
theorem heldBslash_withOthers (s : State) (v : Work) (e : Byte) :
    (if (s.withOthers v e).work.esc then (s.withOthers v e).tokBslash else s.withOthers v e) =
      (if s.work.esc then s.tokBslash else s).withOthers v e := by
  rw [tokBslash_withOthers, apply_ite (State.withOthers v e)]
  rfl

theorem unmarkedByte_withOthers (b : Byte) (s : State) (v : Work) (e : Byte) :
    (s.withOthers v e).unmarkedByte b = (s.unmarkedByte b).withOthers v e := by
  by_cases hb : b = BACKSLASH
  · simp only [State.unmarkedByte, heldBslash_withOthers, if_pos hb]
    rfl
  · simp only [State.unmarkedByte, heldBslash_withOthers, if_neg hb, plainByte_withOthers]

theorem frameByte_withOthers (b : Byte) (s : State) (v : Work) (e : Byte) :
    (s.withOthers v e).frameByte b = (s.frameByte b).withOthers v e := by
  simp only [State.frameByte, apply_ite (State.withOthers v e), tokInvOn_withOthers, tokInvOff_withOthers,
    unmarkedByte_withOthers]
  rfl

theorem parseByte_alike {b : Byte} {s : State} (v : Work) (e : Byte) (hb : s.busy = true) (hp : s.phase = .parse) :
    Alike (s.parseByte b) ((s.withOthers v e).parseByte b) := by
  have stays : ∀ t : State, t.busy = true → t.phase = .parse → Alike t.advance (t.withOthers v e).advance :=
    fun t ht htp => alike_advance ht (htp ▸ ⟨rfl, rfl, rfl, rfl, rfl⟩)
  have hf : (s.withOthers v e).inFrame = s.inFrame := rfl
  unfold State.parseByte
  rw [hf]
  split_ifs
  · exact alike_raise _ s _ e
  · rw [frameByte_withOthers]
    obtain ⟨w, he⟩ := frameByte_shape b s
    exact stays _ (by rw [he]; exact hb) (by rw [he]; exact hp)
  · exact stays s hb hp

theorem parseEnd_alike {s : State} (v : Work) (e : Byte) (hb : s.busy = true) :
    Alike s.parseEnd (s.withOthers v e).parseEnd := by
  unfold State.parseEnd
  rw [heldBslash_withOthers]
  refine alike_goto _ ?_ rfl
  obtain ⟨w, he⟩ := tokBslash_shape s
  split
  · rw [he]; exact hb
  · exact hb

theorem parseStep_alike {text : List Byte} {s : State} (v : Work) (e : Byte) (hb : s.busy = true)
    (hp : s.phase = .parse) : Alike (s.parseStep text) ((s.withOthers v e).parseStep text) := by
  have hpc : (s.withOthers v e).pc = s.pc := rfl
  unfold State.parseStep
  rw [hpc]
  split
  · exact parseEnd_alike v e hb
  · exact parseByte_alike v e hb hp

theorem sendStep_alike {r : Nat} {s : State} {v : Work} (e : Byte) (hb : s.busy = true) (hf : v.fb = s.work.fb) :
    AlikeOut (sendStep r s) (sendStep r (s.withRegs v e)) := by
  have hfb : (s.withRegs v e).work.fb = s.work.fb := hf
  have hc : (s.withRegs v e).cfg = s.cfg := rfl
  unfold sendStep
  rw [hc]
  split
  · split
    · rw [sendRow_eq, sendRow_eq, hfb]
      refine transact_alike fun _ u hu ⟨_, _, hw⟩ => ?_
      split
      · exact alike_goto _ (hu.trans hb) (hw ▸ hf)
      · exact alike_finish [] u v e
    · rfl
  · rw [sendFrame_eq, sendFrame_eq, hfb]
    exact transact_alike fun _ u _ _ => alike_finish [] u v e

theorem osdWrite_alike {text : List Byte} {s : State} {v : Work} (e : Byte) (hb : s.busy = true)
    (h : s.phase.readsAlike s.work v) :
    AlikeOut (exec (.osdWrite text) s) (exec (.osdWrite text) (s.withRegs v e)) := by
  have hp' : (s.withRegs v e).phase = s.phase := rfl
  cases hp : s.phase <;> rw [hp] at h hp' <;> simp only [exec, execOsdWrite, hp, hp']
  case start => exact parseStep_alike (s := s.osdInit.goto .parse) v e hb rfl
  case parse =>
    rw [withRegs_eq_withOthers e h]
    exact parseStep_alike v e hb hp
  case send r => exact sendStep_alike e hb h
  all_goals rfl

/-! ## The sequences -/

theorem progress_withRegs (kind : ProgressKind) (before after : Nat) (s : State) (v : Work) (e : Byte) :
    (s.withRegs v e).progress kind before after = (s.progress kind before after).withRegs v e := by
  simp only [State.progress, apply_ite (State.withRegs v e)]
  rfl

theorem countDone_withRegs (kind : ProgressKind) (m : Nat) {s : State} {v : Work} (e : Byte)
    (h : v.doneBytes = s.work.doneBytes) :
    (s.withRegs v e).countDone kind m =
      (s.countDone kind m).withRegs { v with doneBytes := v.doneBytes + BitVec.ofNat 20 m } e := by
  have hd : (s.withRegs v e).work.doneBytes = s.work.doneBytes := h
  simp only [State.countDone, hd, progress_withRegs]
  rfl

theorem afterSector_withRegs {s : State} {v : Work} (e : Byte) (h : v.doneBytes = s.work.doneBytes) :
    (s.withRegs v e).afterSector = s.afterSector.withRegs { v with
      faddr := v.faddr + BitVec.ofNat 24 s.cfg.geo.sector,
      doneBytes := v.doneBytes + BitVec.ofNat 20 s.cfg.geo.sector } e :=
  congrArg (State.moveAddr s.cfg.geo.sector) (countDone_withRegs .erase s.cfg.geo.sector e h)

theorem afterPage_withRegs {s : State} {v : Work} (e : Byte) (len : Nat) (h : ProgAlike s.work v) :
    (s.withRegs v e).afterPage len = (s.afterPage len).withRegs { v with
      faddr := v.faddr + BitVec.ofNat 24 (s.nextChunk len), foff := v.foff + BitVec.ofNat 20 (s.nextChunk len),
      doneBytes := v.doneBytes + BitVec.ofNat 20 (s.nextChunk len) } e := by
  obtain ⟨ha, ho, hd⟩ := h
  have hm : (s.withRegs v e).nextChunk len = s.nextChunk len := by
    simp only [State.nextChunk, State.withRegs, ha, ho]
  rw [State.afterPage, hm, countDone_withRegs _ _ e hd]
  rfl

theorem afterChunk_withRegs {s : State} {v : Work} (e : Byte) (bs : List Byte)
    (hd : v.doneBytes = s.work.doneBytes) :
    (s.withRegs v e).afterChunk bs = (s.afterChunk bs).withRegs { v with
      faddr := v.faddr + BitVec.ofNat 24 s.cfg.geo.readChunk,
      doneBytes := v.doneBytes + BitVec.ofNat 20 s.cfg.geo.readChunk, rbuf := v.rbuf ++ bs } e :=
  congrArg (State.moveAddr s.cfg.geo.readChunk) (countDone_withRegs .read s.cfg.geo.readChunk
    (s := { s with work := { s.work with rbuf := s.work.rbuf ++ bs } }) (v := { v with rbuf := v.rbuf ++ bs }) e hd)

/-- A step of a sequence that sends a frame and goes on reads the same registers again. -/
theorem transact_goto_alike {x : Xact} {p : Phase} {s : State} {v : Work} (e : Byte) (hb : s.busy = true)
    (h : p.readsAlike s.work v) :
    AlikeOut (transact x (fun _ t => (t.goto p).advance) s)
      (transact x (fun _ t => (t.goto p).advance) (s.withRegs v e)) :=
  transact_alike fun _ _ hu ⟨_, _, hw⟩ => alike_goto p (hu.trans hb) (hw ▸ h)

theorem stepWren_alike {p : Phase} {s : State} {v : Work} (e : Byte) (hb : s.busy = true)
    (h : p.readsAlike s.work v) : AlikeOut (stepWren p s) (stepWren p (s.withRegs v e)) :=
  transact_goto_alike e hb h

theorem stepSector_alike {s : State} {v : Work} (e : Byte) (hb : s.busy = true) (h : EraseAlike s.work v) :
    AlikeOut (stepSector s) (stepSector (s.withRegs v e)) := by
  have ha : (s.withRegs v e).work.faddr = s.work.faddr := h.1
  rw [stepSector_eq, stepSector_eq, ha]
  exact transact_goto_alike e hb h

theorem stepPage_alike {data : List Byte} {s : State} {v : Work} (e : Byte) (hb : s.busy = true)
    (h : ProgAlike s.work v) : AlikeOut (stepPage data s) (stepPage data (s.withRegs v e)) := by
  have ha : (s.withRegs v e).work.faddr = s.work.faddr := h.1
  have ho : (s.withRegs v e).work.foff = s.work.foff := h.2.1
  have hc : (s.withRegs v e).cfg = s.cfg := rfl
  simp only [stepPage_eq, State.nextChunk, ha, ho, hc]
  exact transact_goto_alike e hb h

/-- A poll that finds WIP set stays; `fin` is what follows it otherwise. -/
theorem waitPoll_alike {fin : Byte → State → State} {s : State} {v : Work} (e : Byte) (hb : s.busy = true)
    (h : s.phase.readsAlike s.work v)
    (hfin : ∀ sr u v', u.busy = true → s.phase.readsAlike u.work v' → Alike (fin sr u) (fin sr (u.withRegs v' e))) :
    AlikeOut (pollStatus (fun sr t => if wipSet t.cfg sr then t.advance else fin sr t) s)
      (pollStatus (fun sr t => if wipSet t.cfg sr then t.advance else fin sr t) (s.withRegs v e)) := by
  refine poll_alike fun sr u hu ⟨hc, hp, hw⟩ => ?_
  have hbu : u.busy = true := hu.trans hb
  have hreads : s.phase.readsAlike u.work { v with lastsr := sr } := hw ▸ readsAlike_lastsr sr h
  have hcu : (u.withRegs { v with lastsr := sr } e).cfg = u.cfg := rfl
  rw [hcu]
  split
  · exact alike_advance hbu (hp ▸ hreads)
  · exact hfin sr u _ hbu hreads

theorem sectorDone_alike {fin : State → State} {s : State} {v : Work} (e : Byte) (hb : s.busy = true)
    (h : EraseAlike s.work v)
    (hfin : ∀ u v', u.busy = true → Alike (fin u) (fin (u.withRegs v' e))) :
    Alike (s.sectorDone fin) ((s.withRegs v e).sectorDone fin) := by
  obtain ⟨ha, he, hd⟩ := h
  have hbu : s.afterSector.busy = true := by simpa [State.afterSector] using hb
  have hreads : EraseAlike s.afterSector.work ((s.withRegs v e).afterSector).work := by
    rw [afterSector_withRegs e hd]
    simp [EraseAlike, State.withRegs, ha, he, hd]
  rw [sectorDone_eq, sectorDone_eq, hreads.1, hreads.2.1]
  rw [afterSector_withRegs e hd] at hreads ⊢
  split
  · exact alike_goto _ hbu hreads
  · exact hfin _ _ hbu

theorem pageDone_alike {len : Nat} {s : State} {v : Work} (e : Byte) (hb : s.busy = true) (h : ProgAlike s.work v) :
    Alike (s.pageDone len (State.finish [])) ((s.withRegs v e).pageDone len (State.finish [])) := by
  have hbu : (s.afterPage len).busy = true := by simpa [State.afterPage] using hb
  have hreads : ProgAlike (s.afterPage len).work ((s.withRegs v e).afterPage len).work := by
    rw [afterPage_withRegs e len h]
    obtain ⟨ha, ho, hd⟩ := h
    simp [ProgAlike, State.withRegs, ha, ho, hd]
  rw [pageDone_eq, pageDone_eq, hreads.2.1]
  rw [afterPage_withRegs e len h] at hreads ⊢
  split
  · exact alike_goto _ hbu hreads
  · exact alike_finish _ _ _ e

theorem chunkRead_alike {bs : List Byte} {s : State} {v : Work} (e : Byte) (hb : s.busy = true)
    (h : ReadAlike s.work v) : Alike (s.chunkRead bs) ((s.withRegs v e).chunkRead bs) := by
  obtain ⟨ha, hd, hr⟩ := h
  have hbu : (s.afterChunk bs).busy = true := by simpa [State.afterChunk] using hb
  have hreads : ReadAlike (s.afterChunk bs).work ((s.withRegs v e).afterChunk bs).work := by
    rw [afterChunk_withRegs e bs hd]
    simp [ReadAlike, State.withRegs, ha, hd, hr]
  have hc : (s.withRegs v e).cfg = s.cfg := rfl
  rw [chunkRead_eq, chunkRead_eq, hc, hreads.1, hreads.2.2]
  rw [afterChunk_withRegs e bs hd] at hreads ⊢
  split
  · exact alike_goto _ hbu hreads
  · exact alike_finish _ _ _ e

theorem stepErasePoll_alike {fin : State → State} {s : State} {v : Work} (e : Byte) (hb : s.busy = true)
    (hp : s.phase.erasing = true) (h : EraseAlike s.work v)
    (hfin : ∀ u v', u.busy = true → Alike (fin u) (fin (u.withRegs v' e))) :
    AlikeOut (stepErasePoll fin s) (stepErasePoll fin (s.withRegs v e)) := by
  have reads (w v : Work) : s.phase.readsAlike w v ↔ EraseAlike w v := by
    cases hs : s.phase <;> simp [Phase.erasing, Phase.readsAlike, hs] at hp ⊢
  rw [stepErasePoll_eq, stepErasePoll_eq]
  exact waitPoll_alike e hb ((reads _ _).mpr h) fun _ u v' hu hreads =>
    sectorDone_alike e hu ((reads _ _).mp hreads) hfin

theorem stepProgPoll_alike {len : Nat} {s : State} {v : Work} (e : Byte) (hb : s.busy = true)
    (hp : s.phase.programming = true) (h : ProgAlike s.work v) :
    AlikeOut (stepProgPoll len (State.finish []) s) (stepProgPoll len (State.finish []) (s.withRegs v e)) := by
  have reads (w v : Work) : s.phase.readsAlike w v ↔ ProgAlike w v := by
    cases hs : s.phase <;> simp [Phase.programming, Phase.readsAlike, hs] at hp ⊢
  rw [stepProgPoll_eq, stepProgPoll_eq]
  exact waitPoll_alike e hb ((reads _ _).mpr h) fun _ u v' hu hreads =>
    pageDone_alike e hu ((reads _ _).mp hreads)

theorem stepChunk_alike {s : State} {v : Work} (e : Byte) (hb : s.busy = true) (h : ReadAlike s.work v) :
    AlikeOut (stepChunk s) (stepChunk (s.withRegs v e)) := by
  have ha : (s.withRegs v e).work.faddr = s.work.faddr := h.1
  rw [stepChunk_eq, stepChunk_eq, ha]
  exact transact_alike fun bs u hu ⟨_, _, hw⟩ => chunkRead_alike e (hu.trans hb) (hw ▸ h)

end Sys2Proof.Machine
end

section
/-!
Each operation, each step and each run from two states that are alike: they stay alike.
-/

namespace Sys2Proof.Machine

open Sys2Proof (Byte Config Request Instr DecodeError)

theorem flashErase_alike {start stop : Nat} {s : State} {v : Work} (e : Byte) (hb : s.busy = true)
    (h : s.phase.readsAlike s.work v) :
    AlikeOut (exec (.flashErase start stop) s) (exec (.flashErase start stop) (s.withRegs v e)) := by
  have hp' : (s.withRegs v e).phase = s.phase := rfl
  have hc : (s.withRegs v e).cfg = s.cfg := rfl
  cases hp : s.phase <;> rw [hp] at h hp' <;> simp only [exec, execFlashErase, hp, hp', hc]
  case start =>
    split_ifs
    · exact alike_raise _ s v e
    · exact alike_goto (s := s.eraseInit start stop) _ hb ⟨rfl, rfl, rfl⟩
    · exact alike_finish [] (s.eraseInit start stop) _ e
  case eraseWren => exact stepWren_alike e hb h
  case eraseSector => exact stepSector_alike e hb h
  case erasePoll => exact stepErasePoll_alike e hb (by simp [hp, Phase.erasing]) h fun u v' _ => alike_finish [] u v' e
  all_goals rfl

theorem flashWrite_alike {start : Nat} {data : List Byte} {s : State} {v : Work} (e : Byte) (hb : s.busy = true)
    (h : s.phase.readsAlike s.work v) :
    AlikeOut (exec (.flashWrite start data) s) (exec (.flashWrite start data) (s.withRegs v e)) := by
  have hp' : (s.withRegs v e).phase = s.phase := rfl
  have hc : (s.withRegs v e).cfg = s.cfg := rfl
  cases hp : s.phase <;> rw [hp] at h hp' <;> simp only [exec, execFlashWrite, hp, hp', hc]
  case start =>
    split_ifs
    · exact alike_raise _ s v e
    · exact alike_finish [] (s.progInit start data.length) _ e
    · exact alike_goto (s := s.progInit start data.length) _ hb ⟨rfl, rfl, rfl⟩
  case progWren => exact stepWren_alike e hb h
  case progPage => exact stepPage_alike e hb h
  case progPoll => exact stepProgPoll_alike e hb (by simp [hp, Phase.programming]) h
  all_goals rfl

/-- The write of `flash.fw` sets the registers it reads, whatever the erase left. -/
theorem fwErased_alike (len : Nat) {s : State} (v : Work) (e : Byte) (hb : s.busy = true) :
    Alike (s.fwErased len) ((s.withRegs v e).fwErased len) :=
  alike_goto (s := s.progInit s.cfg.geo.upgStart len) _ hb ⟨rfl, rfl, rfl⟩

theorem flashFw_alike {image : List Byte} {s : State} {v : Work} (e : Byte) (hb : s.busy = true)
    (h : s.phase.readsAlike s.work v) :
    AlikeOut (exec (.flashFw image) s) (exec (.flashFw image) (s.withRegs v e)) := by
  have hp' : (s.withRegs v e).phase = s.phase := rfl
  have hc : (s.withRegs v e).cfg = s.cfg := rfl
  cases hp : s.phase <;> rw [hp] at h hp' <;> simp only [exec, execFlashFw, hp, hp', hc]
  case start =>
    split_ifs
    · exact alike_goto (s := s.eraseInit s.cfg.geo.upgStart (s.cfg.geo.upgLast + 1)) _ hb ⟨rfl, rfl, rfl⟩
    · exact alike_raise _ s v e
  case eraseWren => exact stepWren_alike e hb h
  case eraseSector => exact stepSector_alike e hb h
  case erasePoll =>
    exact stepErasePoll_alike e hb (by simp [hp, Phase.erasing]) h fun u v' hu => fwErased_alike image.length v' e hu
  case progWren => exact stepWren_alike e hb h
  case progPage => exact stepPage_alike e hb h
  case progPoll => exact stepProgPoll_alike e hb (by simp [hp, Phase.programming]) h
  all_goals rfl

theorem flashReadfw_alike {s : State} {v : Work} (e : Byte) (hb : s.busy = true) (h : s.phase.readsAlike s.work v) :
    AlikeOut (exec .flashReadfw s) (exec .flashReadfw (s.withRegs v e)) := by
  have hp' : (s.withRegs v e).phase = s.phase := rfl
  cases hp : s.phase <;> rw [hp] at h hp' <;> simp only [exec, execFlashReadfw, hp, hp']
  case start => exact stepChunk_alike (s := s.readInit) e hb ⟨rfl, rfl, rfl⟩
  case readChunk => exact stepChunk_alike e hb h
  all_goals rfl

theorem returnGrid_alike (frame : List Byte) (s : State) (v : Work) (e : Byte) :
    Alike (s.returnGrid frame) ((s.withRegs v e).returnGrid frame) :=
  alike_idle (s := s.returnGrid frame) { v with grid := gridOf s.cfg frame } rfl

theorem osdRead_alike (frame : List Byte) (s : State) (v : Work) (e : Byte) :
    AlikeOut (exec (.osdRead frame) s) (exec (.osdRead frame) (s.withRegs v e)) := by
  simp only [exec, execOsdRead]
  split
  · exact returnGrid_alike frame s v e
  · exact alike_raise _ s v e

/-- One step of an operation from two states that are alike. -/
theorem exec_alike {i : Instr} {s : State} {v : Work} (e : Byte) (hi : i.isToken = false) (hb : s.busy = true)
    (h : s.phase.readsAlike s.work v) : AlikeOut (exec i s) (exec i (s.withRegs v e)) := by
  have hc : (s.withRegs v e).cfg = s.cfg := rfl
  cases i with
  | osdWrite text => exact osdWrite_alike e hb h
  | osdRead frame => exact osdRead_alike frame s v e
  | osdDump =>
    rw [exec_osdDump_eq, exec_osdDump_eq, hc]
    exact transact_alike fun bs u _ _ => returnGrid_alike bs u v e
  | flashWren =>
    rw [exec_flashWren_eq, exec_flashWren_eq, hc]
    exact transact_alike fun _ u _ _ => alike_finish [] u v e
  | flashRdsr =>
    rw [exec_flashRdsr_eq, exec_flashRdsr_eq]
    exact poll_alike fun sr u _ _ => alike_finish [sr] u _ e
  | flashWait =>
    rw [exec_flashWait_eq, exec_flashWait_eq]
    exact waitPoll_alike (fin := fun sr t => t.finish [sr]) e hb h fun sr u v' _ _ => alike_finish [sr] u v' e
  | flashRead a n =>
    rw [exec_flashRead_eq, exec_flashRead_eq, hc]
    exact afterChecks_alike hb (transact_alike fun bs u _ _ => alike_finish bs u v e)
  | flashPp a p =>
    rw [exec_flashPp_eq, exec_flashPp_eq, hc]
    exact afterChecks_alike hb (transact_alike fun _ u _ _ => alike_finish [] u v e)
  | flashSe a =>
    rw [exec_flashSe_eq, exec_flashSe_eq, hc]
    exact afterChecks_alike hb (transact_alike fun _ u _ _ => alike_finish [] u v e)
  | flashBe => exact alike_refuse _ s v e
  | flashCmd op => exact alike_refuse _ s v e
  | flashErase start stop => exact flashErase_alike e hb h
  | flashWrite start data => exact flashWrite_alike e hb h
  | flashFw image => exact flashFw_alike e hb h
  | flashReadfw => exact flashReadfw_alike e hb h
  | _ => simp [Instr.isToken] at hi

theorem rejectWord_alike (s : State) (v : Work) (e : Byte) : Alike s.rejectWord (s.withRegs v e).rejectWord := by
  have hq : (s.withRegs v e).req = s.req := rfl
  rw [rejectWord_eq, rejectWord_eq, hq]
  split
  · exact alike_refuse _ s v e
  · exact alike_raise _ s v e

/-- A request that is accepted starts with nothing of the registers read. -/
theorem accept_alike {s u : State} (h : Alike s u) : Alike s.accept u.accept := by
  obtain ⟨v, e, rfl, hrun, hidle⟩ := h
  have hq : (s.withRegs v e).requests = s.requests := rfl
  cases hr : s.requests with
  | nil =>
    rw [accept_of_none hr, accept_of_none (hq.trans hr)]
    exact ⟨v, e, rfl, hrun, hidle⟩
  | cons r rest =>
    rw [accept_of_cons hr, accept_of_cons (hq.trans hr)]
    exact alike_run (s := { s with busy := true, pc := 0, phase := .start, req := r, requests := rest }) rfl trivial

theorem cycle_alike {s u : State} (h : Alike s u) : AlikeOut (cycle s) (cycle u) := by
  cases hb : s.busy with
  | false =>
    have hbu : u.busy = false := by
      obtain ⟨v, e, rfl, -⟩ := h
      exact hb
    rw [cycle_of_idle hb, cycle_of_idle hbu]
    exact accept_alike h
  | true =>
    obtain ⟨v, e, rfl, hrun, -⟩ := h
    have hb' : (s.withRegs v e).busy = true := hb
    have hcur : (s.withRegs v e).current = s.current := rfl
    cases hi : s.current with
    | ok i =>
      rw [cycle_of_current hb hi, cycle_of_current hb' (hcur.trans hi)]
      exact exec_alike e (decodeRequest_isToken hi) hb (hrun hb)
    | error err =>
      rw [cycle_of_undecodable hb hi, cycle_of_undecodable hb' (hcur.trans hi)]
      exact rejectWord_alike s v e

/-- A reset in flight keeps of the interrupted step only what the device and the bus hold. -/
theorem resetInFlight_alike {s u : State} {o o' : Out} (hs : u.blockReset = s.blockReset) (h : AlikeOut o o') :
    u.resetInFlight o' = s.resetInFlight o := by
  cases o <;> cases o'
  case next.next t t' =>
    obtain ⟨v, e, rfl, -⟩ := h
    simp only [State.resetInFlight, hs]
    rfl
  case fault.fault => exact hs
  case refused.refused => exact hs
  all_goals exact False.elim h

theorem step_alike {s u : State} (h : Alike s u) : AlikeOut (step s) (step u) := by
  have hin : u.resetIn = s.resetIn := by
    obtain ⟨v, e, rfl, -⟩ := h
    rfl
  have hreset : u.blockReset = s.blockReset := by
    obtain ⟨v, e, rfl, -⟩ := h
    rfl
  have hfail : Alike s.failing u.failing := by
    obtain ⟨v, e, rfl, hrun, hidle⟩ := h
    exact ⟨v, e, rfl, hrun, hidle⟩
  cases hr : s.resetIn <;> simp only [step, hin, hr]
  case off => exact cycle_alike h
  case between => exact hreset ▸ alike_self rfl
  case during =>
    rw [resetInFlight_alike hreset (cycle_alike hfail)]
    refine alike_self ?_
    cases cycle s.failing <;> rfl

theorem runSteps_alike (k : Nat) : ∀ {s u : State}, Alike s u → AlikeOut (runSteps k s) (runSteps k u) := by
  induction k with
  | zero => exact fun h => h
  | succ k ih =>
    intro s u h
    have hstep := step_alike h
    cases hs : step s <;> cases hu : step u <;> rw [hs, hu] at hstep <;> simp only [runSteps, hs, hu]
    case next.next => exact ih hstep
    case fault.fault => exact hstep
    case refused.refused => exact hstep
    all_goals exact False.elim hstep

theorem next_of_alikeOut {t : State} {o : Out} (h : AlikeOut (.next t) o) : ∃ u, o = .next u ∧ Alike t u := by
  cases o
  case next u => exact ⟨u, rfl, h⟩
  all_goals exact False.elim h

/-- Settles O60: an operation that has not begun reads no working register before it has set it, and states that are
alike stay alike along every run, later requests included. -/
theorem earlierOperationsDoNotMatter : Obligations.EarlierOperationsDoNotMatter := by
  rintro s i w e k ⟨-, hb, -, hp, -⟩ t ht
  have hstart : Alike s (s.withRegs w e) := alike_run hb (by simp [hp, Phase.readsAlike])
  obtain ⟨u, hu, v, e', rfl, -, hidle⟩ := next_of_alikeOut (ht ▸ runSteps_alike k hstart)
  exact ⟨_, hu, ⟨rfl, rfl, rfl, rfl, rfl, rfl, rfl⟩, hidle⟩

end Sys2Proof.Machine
end

section
/-!
A dump of the Display (40 R115) when the device answers out of its own state (10 R34; log 4): the bytes of the answer
are those the device's memory lists, and the grid of a whole frame is its bytes made printable.
-/

namespace Sys2Proof.Machine

open Sys2Proof (Byte Config)

/-- Where a memory lists the bytes of a string, a read gives the string, whatever unlisted bytes are. -/
theorem read_of_lookup {free : Nat → Byte} {m : Memory} {a n : Nat} {bs : List Byte}
    (hn : bs.length = n) (h : ∀ k, k < n → m.lookup (a + k) = bs[k]?) : Memory.read free m a n = bs := by
  subst hn
  refine List.ext_getElem (length_read free m a _) fun k _ hk => ?_
  simp [Memory.read, h k hk, List.getElem?_eq_getElem hk]

/-- The printable grid of a whole frame (40 R113, R115). -/
theorem toList_gridOf (c : Config) {frame : List Byte} (h : frame.length = FRAME_BYTES) :
    (gridOf c frame).toList = frame.map (printable c) := by
  simp [gridOf, ← h]

/-- The Display region is read as a whole with one exchange. -/
theorem route_dump {c : Config} (h : c.wf = true) :
    route c (memReadXact c.geo.displayBase FRAME_BYTES) = some (.displayRead c.geo.displayBase FRAME_BYTES) :=
  route_memRead h (by decide) ⟨le_rfl, le_rfl⟩

/-- Settles O24: the device's own answer to the Display read is the frame its memory lists. -/
theorem dumpAfterWriteReturnsTheFrame : Obligations.DumpAfterWriteReturnsTheFrame := by
  intro s frame hc hlen hmem hown
  have hread : ownAnswer s (.displayRead s.cfg.geo.displayBase FRAME_BYTES) = frame :=
    read_of_lookup hlen hmem
  have hans : answerOf (memReadXact s.cfg.geo.displayBase FRAME_BYTES)
      (ownAnswer s (.displayRead s.cfg.geo.displayBase FRAME_BYTES)) s.nextReply = .ok frame := by
    rw [hread, hown, memReadXact]
    simp only [answerOf]
  rw [exec_osdDump_eq, transact_of_ok _ (route_dump hc) hans]
  refine ⟨_, rfl, rfl, rfl, ?_, rfl, rfl, rfl⟩
  simp [State.returnGrid, toList_gridOf s.cfg hlen]

end Sys2Proof.Machine
end

section
/-!
From a state with the invariant every step answers a next state, and every frame it sends is one of the block's (20 R50,
R58): the guards a running operation has passed keep the frame of its next transaction inside the device.
-/

namespace Sys2Proof.Machine

open Sys2Proof (Byte Config Instr)

/-! ## Frames of the block -/

/-- The device has a behaviour for every frame of the block (20 R45, R46, R50). -/
theorem route_of_frameAllowed {c : Config} (hc : c.wf = true) {x : Xact} (h : FrameAllowed c x) :
    ∃ tg, route c x = some tg := by
  have hlast := upgLast_lt (geo_wf hc)
  cases h with
  | displayRow r v hr hv =>
    simp only [ROWS, COLS] at hr hv
    exact ⟨_, route_memWrite hc (by omega) ⟨by omega, by simp only [COLS, FRAME_BYTES]; omega⟩⟩
  | displayFrame v hv => exact ⟨_, route_memWrite hc (by simp [hv]) ⟨le_rfl, by simp [hv]⟩⟩
  | displayRead => exact ⟨_, route_dump hc⟩
  | wren => exact ⟨_, route_wren hc⟩
  | rdsr => exact ⟨_, route_rdsr hc⟩
  | read a n hn ha => exact ⟨_, route_read hc ha⟩
  | program a p h1 hp lo hi => exact ⟨_, route_pp hc (by omega) (by omega)⟩
  | erase a lo hi => exact ⟨_, route_se hc (by omega)⟩

/-- The outcome is a next state, and the frames sent since `s` are frames of the block. -/
def AllowedNext (s : State) (o : Out) : Prop :=
  ∃ t, o = .next t ∧ ∃ l, t.bus = s.bus ++ l ∧ ∀ x ∈ l, FrameAllowed s.cfg x

theorem allowedNext_quiet {s t : State} (h : t.bus = s.bus) : AllowedNext s (.next t) := ⟨t, rfl, [], by simp [h]⟩

theorem actsInside_bus {u t : State} (h : ActsInside u t) : t.bus = u.bus := by
  rcases h with ⟨w, ph, ev, -, rfl⟩ | ⟨w, ph, ev, v, -, rfl⟩ | ⟨e, w, ph, d, rfl⟩ <;> rfl

theorem transact_allowed {x : Xact} {k : List Byte → State → State} {s : State} (hc : s.cfg.wf = true)
    (hx : FrameAllowed s.cfg x) (hk : ∀ bs u, GoesOn u (k bs u) ∨ Returns u (k bs u)) :
    AllowedNext s (transact x k s) := by
  obtain ⟨tg, hr⟩ := route_of_frameAllowed hc hx
  obtain ⟨t, ht⟩ := transact_isNext k hr
  refine ⟨t, ht, [x], ?_, by simpa using hx⟩
  obtain ⟨tg, -, ⟨bs, -, rfl⟩ | ⟨e, -, rfl⟩⟩ := transact_next_cases ht
  · simp [actsInside_bus ((hk bs _).imp_right .inl)]
  · simp

theorem poll_allowed {k : Byte → State → State} {s : State} (hc : s.cfg.wf = true)
    (hk : ∀ sr u, GoesOn u (k sr u) ∨ Returns u (k sr u)) : AllowedNext s (pollStatus k s) := by
  rw [pollStatus_eq, flashXact_rdsr hc]
  exact transact_allowed hc .rdsr fun bs u => hk (bs.headD 0) { u with work := { u.work with lastsr := bs.headD 0 } }

/-! ## Flash commands -/

theorem checkStep_allowed {cs : List Check} {x : Xact} {f : List Byte → State → State} {s : State} {k : Nat}
    (hc : s.cfg.wf = true) (hpass : ∀ c ∈ cs.take k, c.1 = false) (hx : AllPass cs → FrameAllowed s.cfg x)
    (hf : ∀ bs u, Returns u (f bs u)) : AllowedNext s (checkStep cs (transact x f) k s) := by
  rcases checkStep_cases cs (transact x f) k s with ⟨e, -, he⟩ | ⟨e, -, he⟩ | ⟨hk, he⟩ <;> rw [he]
  · exact allowedNext_quiet rfl
  · exact allowedNext_quiet rfl
  · rw [List.take_of_length_le (List.getElem?_eq_none_iff.mp hk)] at hpass
    exact transact_allowed hc (hx hpass) fun bs u => .inr (hf bs u)

/-- A command sends its frame only when all its checks have passed (41 R125). -/
theorem afterChecks_allowed {cs : List Check} {x : Xact} {f : List Byte → State → State} {s : State}
    (hc : s.cfg.wf = true) (h : ChecksInv cs s.phase) (hx : AllPass cs → FrameAllowed s.cfg x)
    (hf : ∀ bs u, Returns u (f bs u)) : AllowedNext s (afterChecks cs (transact x f) s) := by
  rcases h with hp | ⟨k, hp, -, hpass⟩ <;> simp only [afterChecks, hp]
  · exact checkStep_allowed hc (by simp) hx hf
  · exact checkStep_allowed hc hpass hx hf

theorem read_allowed {c : Config} {a n : Nat} (h : AllPass (readChecks c.geo a n)) :
    FrameAllowed c (flashXact c c.opRead a [] n) := by
  simp only [AllPass, readChecks, List.forall_mem_cons, decide_eq_false_iff_not] at h
  obtain ⟨hn, ha, -⟩ := h
  rw [flashXact_read c a (by omega)]
  exact .read a n (by omega) (by omega)

theorem pp_allowed {c : Config} {a : Nat} {p : List Byte} (h : AllPass (ppChecks c.geo a p.length)) :
    FrameAllowed c (flashXact c c.opPp a p 0) := by
  simp only [AllPass, ppChecks, List.forall_mem_cons, decide_eq_false_iff_not] at h
  obtain ⟨hpage, -, hregion, -⟩ := h
  rw [flashXact_pp]
  exact .program a p (by omega) (by omega) (by omega) (by omega)

theorem se_allowed {c : Config} {a : Nat} (h : AllPass (seChecks c.geo a)) :
    FrameAllowed c (flashXact c c.opSe a [] 0) := by
  simp only [AllPass, seChecks, List.forall_mem_cons, decide_eq_false_iff_not] at h
  obtain ⟨-, hregion, -⟩ := h
  rw [flashXact_se]
  exact .erase a (by omega) (by omega)

/-! ## The steps of the sequences -/

theorem stepWren_allowed {s : State} (hc : s.cfg.wf = true) (p : Phase) : AllowedNext s (stepWren p s) := by
  rw [stepWren_eq, flashXact_wren hc]
  exact transact_allowed hc .wren fun _ u => .inl (goesOn_advance p u)

theorem stepSector_allowed {s : State} (hc : s.cfg.wf = true) (h : EraseInv s.cfg.geo s.work) :
    AllowedNext s (stepSector s) := by
  obtain ⟨lo, -, hlt, hi⟩ := h
  rw [stepSector_eq, flashXact_se]
  exact transact_allowed hc (.erase _ lo (by omega)) fun _ u => .inl (goesOn_advance _ u)

theorem stepErasePoll_allowed {fin : State → State} {s : State} (hc : s.cfg.wf = true)
    (hf : ∀ u, GoesOn u (fin u) ∨ Returns u (fin u)) (hev : ∀ u, (fin u).events = u.events) :
    AllowedNext s (stepErasePoll fin s) := by
  rw [stepErasePoll_eq]
  exact poll_allowed hc fun sr u => ite_shape (wipSet u.cfg sr) (goesOn_stay u) (sectorDone_shape fin hf hev u)

/-- The next page chunk lies in one page and before the end of the range (42 R145). -/
theorem programChunk_allowed {c : Config} (hc : c.wf = true) {data : List Byte} {w : Work}
    (h : ProgInv c.geo data.length w) :
    FrameAllowed c (ppXact c w.faddr.toNat
      ((data.drop w.foff.toNat).take (chunkLen c.geo w.faddr.toNat (data.length - w.foff.toNat)))) := by
  obtain ⟨lo, hoff, hend, hi, -⟩ := h
  have hpage : w.faddr.toNat % c.geo.page < c.geo.page := Nat.mod_lt _ (geo_wf hc).1.1
  refine .program _ _ ?_ ?_ lo ?_ <;> simp only [List.length_take, List.length_drop, chunkLen] <;> omega

theorem stepPage_allowed {data : List Byte} {s : State} (hc : s.cfg.wf = true)
    (h : ProgInv s.cfg.geo data.length s.work) : AllowedNext s (stepPage data s) := by
  rw [stepPage_eq, flashXact_pp]
  exact transact_allowed hc (programChunk_allowed hc h) fun _ u => .inl (goesOn_advance _ u)

theorem stepProgPoll_allowed {s : State} (hc : s.cfg.wf = true) (len : Nat) :
    AllowedNext s (stepProgPoll len (State.finish []) s) := by
  rw [stepProgPoll_eq]
  exact poll_allowed hc fun sr u => ite_shape (wipSet u.cfg sr) (goesOn_stay u) (pageDone_shape len u)

theorem stepChunk_allowed {s : State} (hc : s.cfg.wf = true) (h : ReadInv s.cfg.geo s.work) :
    AllowedNext s (stepChunk s) := by
  have hfits := readChunk_fits (geo_wf hc) h
  have hlast := upgLast_lt (geo_wf hc)
  have hpos := readChunk_pos (geo_wf hc)
  rw [stepChunk_eq, flashXact_read _ _ hpos]
  exact transact_allowed hc (.read _ _ hpos (by omega)) fun bs u => chunkRead_shape bs u

/-! ## The sending of the frame -/

theorem length_frameRow (fb : Vector Byte 640) {r : Nat} (hr : r < ROWS) : (frameRow fb r).length = COLS := by
  simp only [ROWS] at hr
  simp only [frameRow, COLS, List.length_take, List.length_drop, Vector.length_toList]
  omega

theorem sendStep_allowed {r : Nat} {s : State} (hc : s.cfg.wf = true) (hr : r < ROWS) :
    AllowedNext s (sendStep r s) := by
  unfold sendStep
  split
  · rw [if_pos hr, sendRow_eq]
    refine transact_allowed hc (.displayRow r _ hr (length_frameRow _ hr)) fun _ u => ?_
    split_ifs
    · exact .inl (goesOn_advance _ u)
    · exact .inr (returns_finish _ u)
  · rw [sendFrame_eq]
    exact transact_allowed hc (.displayFrame _ (by simp)) fun _ u => .inr (returns_finish _ u)

theorem parseStep_bus (text : List Byte) (s : State) : (s.parseStep text).bus = s.bus :=
  actsInside_bus ((parseStep_shape text s).imp_right fun ⟨_, hb⟩ => .inr ⟨_, hb⟩)

/-! ## Each operation -/

theorem osdWrite_allowed {text : List Byte} {s : State} (hc : s.cfg.wf = true) (h : OsdInv text s) :
    AllowedNext s (exec (.osdWrite text) s) := by
  cases hp : s.phase with
  | start =>
    simp only [exec, execOsdWrite, hp]
    exact allowedNext_quiet (parseStep_bus text _)
  | parse =>
    simp only [exec, execOsdWrite, hp]
    exact allowedNext_quiet (parseStep_bus text s)
  | send r =>
    simp only [exec, execOsdWrite, hp]
    exact sendStep_allowed hc (by simpa only [OsdInv, hp] using h)
  | _ => simp [OsdInv, hp] at h

theorem flashErase_allowed {start stop : Nat} {s : State} (hc : s.cfg.wf = true)
    (h : RunInv (.flashErase start stop) s) : AllowedNext s (exec (.flashErase start stop) s) := by
  rcases h with hp | ⟨hph, hE⟩
  · rw [exec_flashErase_start hp]
    split_ifs <;> exact allowedNext_quiet rfl
  · cases hp : s.phase <;> simp only [hp, Phase.erasing, Bool.false_eq_true] at hph <;>
      simp only [exec, execFlashErase, hp]
    case eraseWren => exact stepWren_allowed hc _
    case eraseSector => exact stepSector_allowed hc hE
    case erasePoll => exact stepErasePoll_allowed hc (fun u => .inr (returns_finish [] u)) fun _ => rfl

theorem flashWrite_allowed {start : Nat} {data : List Byte} {s : State} (hc : s.cfg.wf = true)
    (h : RunInv (.flashWrite start data) s) : AllowedNext s (exec (.flashWrite start data) s) := by
  rcases h with hp | ⟨hph, hP⟩
  · rw [exec_flashWrite_start hp]
    split_ifs <;> exact allowedNext_quiet rfl
  · cases hp : s.phase <;> simp only [hp, Phase.programming, Bool.false_eq_true] at hph <;>
      simp only [exec, execFlashWrite, hp]
    case progWren => exact stepWren_allowed hc _
    case progPage => exact stepPage_allowed hc hP
    case progPoll => exact stepProgPoll_allowed hc _

theorem flashFw_allowed {image : List Byte} {s : State} (hc : s.cfg.wf = true) (h : RunInv (.flashFw image) s) :
    AllowedNext s (exec (.flashFw image) s) := by
  rcases h with hp | ⟨-, -, ⟨hph, hE⟩ | ⟨hph, hP⟩⟩
  · rw [exec_flashFw_start hp]
    split_ifs <;> exact allowedNext_quiet rfl
  · cases hp : s.phase <;> simp only [hp, Phase.erasing, Bool.false_eq_true] at hph <;>
      simp only [exec, execFlashFw, hp]
    case eraseWren => exact stepWren_allowed hc _
    case eraseSector => exact stepSector_allowed hc hE
    case erasePoll => exact stepErasePoll_allowed hc (fun u => .inl (fwErased_shape _ u)) fun _ => rfl
  · cases hp : s.phase <;> simp only [hp, Phase.programming, Bool.false_eq_true] at hph <;>
      simp only [exec, execFlashFw, hp]
    case progWren => exact stepWren_allowed hc _
    case progPage => exact stepPage_allowed hc hP
    case progPoll => exact stepProgPoll_allowed hc _

theorem flashReadfw_allowed {s : State} (hc : s.cfg.wf = true) (h : RunInv .flashReadfw s) :
    AllowedNext s (exec .flashReadfw s) := by
  rcases h with hp | ⟨hp, hR⟩ <;> simp only [exec, execFlashReadfw, hp]
  · exact stepChunk_allowed (s := s.readInit) hc (readInv_init (geo_wf hc) s.work)
  · exact stepChunk_allowed hc hR

/-- A step of a running operation answers a next state and sends frames of the block only. -/
theorem exec_allowed {i : Instr} {s : State} (hi : i.isToken = false) (hc : s.cfg.wf = true) (h : RunInv i s) :
    AllowedNext s (exec i s) := by
  cases i with
  | osdWrite text => exact osdWrite_allowed hc h
  | osdRead frame =>
    simp only [exec, execOsdRead]
    split_ifs <;> exact allowedNext_quiet rfl
  | osdDump => exact transact_allowed hc .displayRead fun bs u => .inr (returnGrid_shape bs u)
  | flashWren =>
    rw [exec_flashWren_eq, flashXact_wren hc]
    exact transact_allowed hc .wren fun _ u => .inr (returns_finish [] u)
  | flashRdsr => exact poll_allowed hc fun sr u => .inr (returns_finish [sr] u)
  | flashWait => exact poll_allowed hc wait_shape
  | flashRead a n =>
    rw [exec_flashRead_eq]
    exact afterChecks_allowed hc h read_allowed fun bs u => returns_finish bs u
  | flashPp a p =>
    rw [exec_flashPp_eq]
    exact afterChecks_allowed hc h pp_allowed fun _ u => returns_finish [] u
  | flashSe a =>
    rw [exec_flashSe_eq]
    exact afterChecks_allowed hc h se_allowed fun _ u => returns_finish [] u
  | flashBe => exact allowedNext_quiet rfl
  | flashCmd op => exact allowedNext_quiet rfl
  | flashErase start stop => exact flashErase_allowed hc h
  | flashWrite start data => exact flashWrite_allowed hc h
  | flashFw image => exact flashFw_allowed hc h
  | flashReadfw => exact flashReadfw_allowed hc h
  | _ => simp [Instr.isToken] at hi

/-! ## Every step of the machine -/

theorem cycle_allowed {s : State} (h : Inv s) : AllowedNext s (cycle s) := by
  obtain ⟨hc, -, hrun⟩ := h
  cases hb : s.busy with
  | false =>
    rw [cycle_of_idle hb]
    exact allowedNext_quiet (by simpa using (accept_sentOnly s).1)
  | true =>
    cases hi : s.current with
    | ok i =>
      rw [cycle_of_current hb hi]
      exact exec_allowed (decodeRequest_isToken hi) hc (hrun hb i hi)
    | error e =>
      rw [cycle_of_undecodable hb hi]
      exact allowedNext_quiet (actsInside_bus (.inr (.inr ⟨_, rejectWord_shape s⟩)))

/-- From a state with the invariant every step, a reset of the block included, answers a next state and sends frames of
the block only: a reset in flight keeps the frame of the step it interrupts (70 R176). -/
theorem step_allowed {s : State} (h : Inv s) : AllowedNext s (step s) := by
  cases hr : s.resetIn <;> simp only [step, hr]
  case off => exact cycle_allowed h
  case between => exact allowedNext_quiet rfl
  case during =>
    obtain ⟨t, ht, hsent⟩ := cycle_allowed (s := s.failing) h
    rw [ht]
    exact ⟨_, rfl, hsent⟩

/-- Settles O57: the guards keep every frame routable, and a running operation is in one of its own phases. -/
theorem machineNeverStops : Obligations.MachineNeverStops := by
  intro s h
  obtain ⟨t, ht, -⟩ := step_allowed h
  exact ⟨t, ht⟩

end Sys2Proof.Machine
end

section
/-!
The decoder and the encoder of 30 sections 2 and 3 against each other. Two facts carry the family: which instructions
the request decoder can answer (`Instr.Decodable`; on those decoding undoes encoding, whatever the configuration), and
which fields of a request the instruction it decodes to keeps (`Request.Narrows`). For the text of `osd.write`, a byte
is spelled by its token.
-/

namespace Sys2Proof

open Sys2Proof.Machine

/-! ## One-byte tokens (30 R72 to R76) -/

/-- The 7-bit operands of CHAR are those whose byte is no NUL, no LF and no backslash (30 R75). -/
theorem charWf_iff (x : BitVec 7) :
    charWf x = true ↔ 0#1 ++ x ≠ LF ∧ 0#1 ++ x ≠ (0x00 : Byte) ∧ 0#1 ++ x ≠ BACKSLASH := by
  revert x
  decide

/-- The bytes of CHAR and INVALID are a top bit before the operand (30 R75, R76). -/
theorem zero_append_eq_cons (x : BitVec 7) : (0#1 ++ x : Byte) = BitVec.cons false x := rfl

theorem one_append_eq_cons (x : BitVec 7) : (1#1 ++ x : Byte) = BitVec.cons true x := rfl

theorem one_append_setWidth {b : Byte} (h : b.msb = true) : (1#1 ++ b.setWidth 7 : Byte) = b := by
  rw [one_append_eq_cons, ← h, BitVec.cons_msb_setWidth]

theorem zero_append_setWidth {b : Byte} (h : ¬ b.msb = true) : (0#1 ++ b.setWidth 7 : Byte) = b := by
  rw [zero_append_eq_cons, ← Bool.eq_false_iff.mpr h, BitVec.cons_msb_setWidth]

theorem byteToken_invalid (x : BitVec 7) : byteToken (1#1 ++ x) = .invalid x := by
  rw [one_append_eq_cons, byteToken, if_pos (BitVec.msb_cons ..), BitVec.setWidth_cons]

theorem byteToken_char {x : BitVec 7} (h : charWf x = true) : byteToken (0#1 ++ x) = .char x := by
  obtain ⟨hlf, hnul, hbs⟩ := (charWf_iff x).mp h
  have hm : ¬ (0#1 ++ x : Byte).msb = true := by simp [zero_append_eq_cons, BitVec.msb_cons]
  rw [byteToken, if_neg hm, if_neg hlf, if_neg hnul, if_neg hbs, zero_append_eq_cons, BitVec.setWidth_cons]

/-- The token of a byte is spelled by that byte. -/
theorem encode_byteToken (c : Config) (b : Byte) : encode c (byteToken b) = .token [b] := by
  unfold byteToken
  split_ifs with hm hlf hnul hbs
  · rw [encode, one_append_setWidth hm]
  · rw [encode, hlf]
  · rw [encode, hnul]
  · rw [encode, hbs]
  · rw [encode, zero_append_setWidth hm]

theorem byteToken_isToken (b : Byte) : (byteToken b).isToken = true := by
  unfold byteToken
  split_ifs <;> rfl

theorem byteToken_wf (c : Config) (b : Byte) : (byteToken b).wf c = true := by
  unfold byteToken
  split_ifs with hm hlf hnul hbs
  any_goals rfl
  rw [Instr.wf, charWf_iff, zero_append_setWidth hm]
  exact ⟨hlf, hnul, hbs⟩

/-! ## The tokens of a text (30 R69, R77) -/

/-- The bytes of an encoded token; a request has none. -/
def Encoded.tokenBytes : Encoded → List Byte
  | .token bs => bs
  | .request _ => []

theorem flatMap_tokenBytes_decodeText (c : Config) (text : List Byte) :
    (decodeText text).flatMap (fun i => (encode c i).tokenBytes) = text := by
  induction text using decodeText.induct with
  | case1 => rfl
  | case2 b => simp [decodeText, encode_byteToken, Encoded.tokenBytes]
  | case3 b b' rest hi ih =>
    rw [decodeText, if_pos hi, List.flatMap_cons, ih, hi.1, hi.2]
    rfl
  | case4 b b' rest hi hu ih =>
    rw [decodeText, if_neg hi, if_pos hu, List.flatMap_cons, ih, hu.1, hu.2]
    rfl
  | case5 b b' rest hi hu ih =>
    rw [decodeText, if_neg hi, if_neg hu, List.flatMap_cons, ih, encode_byteToken]
    rfl

theorem decodeText_tokens (c : Config) (text : List Byte) :
    ∀ i ∈ decodeText text, i.isToken = true ∧ i.wf c = true := by
  have hbyte (b : Byte) := And.intro (byteToken_isToken b) (byteToken_wf c b)
  induction text using decodeText.induct with
  | case1 => simp [decodeText]
  | case2 b => simpa [decodeText] using hbyte b
  | case3 b b' rest hi ih =>
    rw [decodeText, if_pos hi]
    exact List.forall_mem_cons.mpr ⟨⟨rfl, rfl⟩, ih⟩
  | case4 b b' rest hi hu ih =>
    rw [decodeText, if_neg hi, if_pos hu]
    exact List.forall_mem_cons.mpr ⟨⟨rfl, rfl⟩, ih⟩
  | case5 b b' rest hi hu ih =>
    rw [decodeText, if_neg hi, if_neg hu]
    exact List.forall_mem_cons.mpr ⟨hbyte b, ih⟩

/-! ## What the request decoder answers (30 R80, R81, R89) -/

/-- The selectors of 30 R80 that name one operation each: all but 0x10. -/
def operationSelectors : List Byte := [0x01, 0x02, 0x03, 0x11, 0x20, 0x21, 0x22, 0x23]

theorem decodeSelector_eq_none_iff (r : Request) : decodeSelector r = none ↔ r.sel ∉ operationSelectors := by
  simp only [decodeSelector, operationSelectors, ite_eq_iff, reduceCtorEq, and_false, false_or, and_true,
    List.mem_cons, List.not_mem_nil, or_false, not_or]

/-- The rows of 30 R80 outside selector 0x10, each with its operand fields of 30 R82. -/
inductive SelectorRow (r : Request) : Instr → Prop
  | osdWrite (hs : r.sel = 0x01) : SelectorRow r (.osdWrite r.data)
  | osdRead (hs : r.sel = 0x02) : SelectorRow r (.osdRead r.data)
  | osdDump (hs : r.sel = 0x03) : SelectorRow r .osdDump
  | flashWait (hs : r.sel = 0x11) : SelectorRow r .flashWait
  | flashErase (hs : r.sel = 0x20) : SelectorRow r (.flashErase r.addr r.stop)
  | flashWrite (hs : r.sel = 0x21) : SelectorRow r (.flashWrite r.addr r.data)
  | flashFw (hs : r.sel = 0x22) : SelectorRow r (.flashFw r.data)
  | flashReadfw (hs : r.sel = 0x23) : SelectorRow r .flashReadfw

theorem selectorRow_of_decodeSelector {r : Request} {i : Instr} (h : decodeSelector r = some i) :
    SelectorRow r i := by
  simp only [decodeSelector, ite_eq_iff, Option.some.injEq, reduceCtorEq, and_false, or_false] at h
  obtain ⟨hs, rfl⟩ | ⟨-, h⟩ := h
  · exact .osdWrite hs
  obtain ⟨hs, rfl⟩ | ⟨-, h⟩ := h
  · exact .osdRead hs
  obtain ⟨hs, rfl⟩ | ⟨-, h⟩ := h
  · exact .osdDump hs
  obtain ⟨hs, rfl⟩ | ⟨-, h⟩ := h
  · exact .flashWait hs
  obtain ⟨hs, rfl⟩ | ⟨-, h⟩ := h
  · exact .flashErase hs
  obtain ⟨hs, rfl⟩ | ⟨-, h⟩ := h
  · exact .flashWrite hs
  obtain ⟨hs, rfl⟩ | ⟨-, hs, rfl⟩ := h
  · exact .flashFw hs
  · exact .flashReadfw hs

theorem sel_ne_spi_of_decodeSelector {r : Request} {i : Instr} (h : decodeSelector r = some i) : r.sel ≠ 0x10 := by
  intro hs
  have hnone := (decodeSelector_eq_none_iff r).mpr (by rw [hs]; decide)
  simp [hnone] at h

theorem decodeRequest_spi (c : Config) {r : Request} (hs : r.sel = 0x10) : decodeRequest c r = .ok (decodeSpi c r) :=
  if_pos hs

theorem decodeRequest_reserved (c : Config) {r : Request} (hs : r.sel ≠ 0x10) (hd : decodeSelector r = none) :
    decodeRequest c r = .error (.reservedSelector r.sel r.spiop) := by
  rw [decodeRequest, if_neg hs, hd]

theorem decodeRequest_selector (c : Config) {r : Request} {i : Instr} (hd : decodeSelector r = some i) :
    decodeRequest c r = if r.spiop = 0x00 then .ok i else .error (.nonzeroSpiop r.sel r.spiop) := by
  rw [decodeRequest, if_neg (sel_ne_spi_of_decodeSelector hd), hd]

/-- An instruction comes from the SPI opcode under selector 0x10, or from another selector with a zero opcode. -/
theorem decodeRequest_ok_cases {c : Config} {r : Request} {i : Instr} (h : decodeRequest c r = .ok i) :
    (r.sel = 0x10 ∧ decodeSpi c r = i) ∨ (r.spiop = 0x00 ∧ decodeSelector r = some i) := by
  by_cases hs : r.sel = 0x10
  · rw [decodeRequest_spi c hs] at h
    exact .inl ⟨hs, Except.ok.inj h⟩
  · cases hd : decodeSelector r with
    | none => simp [decodeRequest_reserved c hs hd] at h
    | some j =>
      rw [decodeRequest_selector c hd] at h
      split_ifs at h with hz
      exact .inr ⟨hz, congrArg some (Except.ok.inj h)⟩

theorem decodeRequest_reserved_iff (c : Config) (r : Request) :
    decodeRequest c r = .error (.reservedSelector r.sel r.spiop) ↔ r.sel ≠ 0x10 ∧ decodeSelector r = none := by
  refine ⟨fun h => ⟨sel_ne_spi_of_undecodable h, ?_⟩, fun ⟨hs, hd⟩ => decodeRequest_reserved c hs hd⟩
  cases hd : decodeSelector r with
  | none => rfl
  | some i =>
    rw [decodeRequest_selector c hd] at h
    split_ifs at h
    cases h

theorem decodeRequest_nonzeroSpiop_iff (c : Config) (r : Request) :
    decodeRequest c r = .error (.nonzeroSpiop r.sel r.spiop) ↔ decodeSelector r ≠ none ∧ r.spiop ≠ 0 := by
  cases hd : decodeSelector r with
  | none =>
    simp only [ne_eq, not_true_eq_false, false_and, iff_false]
    intro h
    rw [decodeRequest_reserved c (sel_ne_spi_of_undecodable h) hd] at h
    cases h
  | some i =>
    rw [decodeRequest_selector c hd]
    by_cases hz : r.spiop = 0 <;> simp [hz]

/-! ## Fields an operation does not read (30 R82) -/

theorem decodeSpi_congr {c : Config} {q r : Request} (h : SameOperands c q r) (hs : r.sel = 0x10) :
    decodeSpi c q = decodeSpi c r := by
  unfold decodeSpi
  rw [h.spiop]
  split_ifs with hbe hwren hrdsr hread hpp hse
  any_goals rfl
  · rw [h.addr (.inl ⟨hs, by simp [hread]⟩), h.n ⟨hs, hread⟩]
  · rw [h.addr (.inl ⟨hs, by simp [hpp]⟩), h.data (.inl ⟨hs, hpp⟩)]
  · rw [h.addr (.inl ⟨hs, by simp [hse]⟩)]

theorem decodeSelector_congr {c : Config} {q r : Request} (h : SameOperands c q r) :
    decodeSelector q = decodeSelector r := by
  unfold decodeSelector
  rw [h.sel]
  refine ite_congr rfl (fun hwrite => ?_) fun _ => ite_congr rfl (fun hread => ?_) fun _ => ite_congr rfl (fun _ => rfl)
    fun _ => ite_congr rfl (fun _ => rfl) fun _ => ite_congr rfl (fun herase => ?_) fun _ => ite_congr rfl
    (fun hprog => ?_) fun _ => ite_congr rfl (fun hfw => ?_) fun _ => rfl
  · rw [h.data (.inr (by simp [hwrite]))]
  · rw [h.data (.inr (by simp [hread]))]
  · rw [h.addr (.inr (by simp [herase])), h.stop herase]
  · rw [h.addr (.inr (by simp [hprog])), h.data (.inr (by simp [hprog]))]
  · rw [h.data (.inr (by simp [hfw]))]

theorem decodeRequest_congr {c : Config} {q r : Request} (h : SameOperands c q r) :
    decodeRequest c q = decodeRequest c r := by
  by_cases hs : r.sel = 0x10
  · rw [decodeRequest_spi c hs, decodeRequest_spi c (h.sel.trans hs), decodeSpi_congr h hs]
  · rw [decodeRequest, decodeRequest, decodeSelector_congr h, h.sel, h.spiop, if_neg hs, if_neg hs]

/-! ## Decoding undoes encoding -/

/-- The instructions a decoder can answer under any configuration: the SPI opcodes are looked for in the order of
`decodeSpi`, so a command is decodable when its opcode is none of those looked for before it. -/
def Instr.Decodable (c : Config) : Instr → Prop
  | .char x => charWf x = true
  | .flashWren => c.opWren ≠ c.opBe
  | .flashRdsr => c.opRdsr ≠ c.opBe ∧ c.opRdsr ≠ c.opWren
  | .flashRead _ _ => c.opRead ≠ c.opBe ∧ c.opRead ≠ c.opWren ∧ c.opRead ≠ c.opRdsr
  | .flashPp _ _ => c.opPp ≠ c.opBe ∧ c.opPp ≠ c.opWren ∧ c.opPp ≠ c.opRdsr ∧ c.opPp ≠ c.opRead
  | .flashSe _ =>
    c.opSe ≠ c.opBe ∧ c.opSe ≠ c.opWren ∧ c.opSe ≠ c.opRdsr ∧ c.opSe ≠ c.opRead ∧ c.opSe ≠ c.opPp
  | .flashCmd op => cmdWf c op = true
  | .invOn | .invOff | .newline | .pad | .bslash | .invalid _ | .osdWrite _ | .osdRead _ | .osdDump | .flashBe
  | .flashWait | .flashErase _ _ | .flashWrite _ _ | .flashFw _ | .flashReadfw => True

theorem cmdWf_iff (c : Config) (op : Byte) :
    cmdWf c op = true ↔ op ≠ c.opBe ∧ op ≠ c.opWren ∧ op ≠ c.opRdsr ∧ op ≠ c.opRead ∧ op ≠ c.opPp ∧ op ≠ c.opSe := by
  simp only [cmdWf, Config.spiOps, Bool.not_eq_true', List.contains_eq_mem, decide_eq_false_iff_not, List.mem_cons,
    List.not_mem_nil, not_or]
  tauto

/-- Different opcodes hide none of the commands. -/
theorem decodable_of_wf {c : Config} {i : Instr} (hc : c.wf = true) (hi : i.wf c = true) : i.Decodable c := by
  obtain ⟨⟨wrenRdsr, wrenRead, wrenPp, wrenSe, wrenBe⟩, ⟨rdsrRead, rdsrPp, rdsrSe, rdsrBe⟩, ⟨readPp, readSe, readBe⟩,
    ⟨ppSe, ppBe⟩, seBe⟩ := opsWf_ne hc
  cases i with
  | char x => exact hi
  | flashCmd op => exact hi
  | flashWren => exact wrenBe
  | flashRdsr => exact ⟨rdsrBe, wrenRdsr.symm⟩
  | flashRead a n => exact ⟨readBe, wrenRead.symm, rdsrRead.symm⟩
  | flashPp a p => exact ⟨ppBe, wrenPp.symm, rdsrPp.symm, readPp.symm⟩
  | flashSe a => exact ⟨seBe, wrenSe.symm, rdsrSe.symm, readSe.symm, ppSe.symm⟩
  | _ => trivial

theorem wf_of_decodable {c : Config} {i : Instr} (h : i.Decodable c) : i.wf c = true := by
  cases i with
  | char x => exact h
  | flashCmd op => exact h
  | _ => rfl

theorem decode_encode {c : Config} {i : Instr} (h : i.Decodable c) : decode c (encode c i) = .ok i := by
  have hspi {r : Request} (hs : r.sel = 0x10) (hi : decodeSpi c r = i) : decode c (.request r) = .ok i :=
    hi ▸ decodeRequest_spi c hs
  cases i with
  | char x => rw [encode, decode, decodeToken, byteToken_char h]
  | invalid x => rw [encode, decode, decodeToken, byteToken_invalid]
  | flashWren =>
    have hbe : c.opWren ≠ c.opBe := h
    exact hspi rfl (by simp [decodeSpi, spiRequest, hbe])
  | flashRdsr =>
    obtain ⟨hbe, hwren⟩ := h
    exact hspi rfl (by simp [decodeSpi, spiRequest, hbe, hwren])
  | flashRead a n =>
    obtain ⟨hbe, hwren, hrdsr⟩ := h
    exact hspi rfl (by simp [decodeSpi, spiRequest, hbe, hwren, hrdsr])
  | flashPp a p =>
    obtain ⟨hbe, hwren, hrdsr, hread⟩ := h
    exact hspi rfl (by simp [decodeSpi, spiRequest, hbe, hwren, hrdsr, hread])
  | flashSe a =>
    obtain ⟨hbe, hwren, hrdsr, hread, hpp⟩ := h
    exact hspi rfl (by simp [decodeSpi, spiRequest, hbe, hwren, hrdsr, hread, hpp])
  | flashBe => exact hspi rfl (if_pos rfl)
  | flashCmd op =>
    obtain ⟨hbe, hwren, hrdsr, hread, hpp, hse⟩ := (cmdWf_iff c op).mp h
    exact hspi rfl (by simp [decodeSpi, spiRequest, hbe, hwren, hrdsr, hread, hpp, hse])
  | _ => rfl

theorem decodeSpi_decodable (c : Config) (r : Request) : (decodeSpi c r).Decodable c := by
  unfold decodeSpi
  split_ifs with hbe hwren hrdsr hread hpp hse
  · trivial
  · rwa [hwren] at hbe
  · rw [hrdsr] at hbe hwren
    exact ⟨hbe, hwren⟩
  · rw [hread] at hbe hwren hrdsr
    exact ⟨hbe, hwren, hrdsr⟩
  · rw [hpp] at hbe hwren hrdsr hread
    exact ⟨hbe, hwren, hrdsr, hread⟩
  · rw [hse] at hbe hwren hrdsr hread hpp
    exact ⟨hbe, hwren, hrdsr, hread, hpp⟩
  · exact (cmdWf_iff c r.spiop).mpr ⟨hbe, hwren, hrdsr, hread, hpp, hse⟩

theorem decodeSelector_decodable {r : Request} {i : Instr} (c : Config) (h : decodeSelector r = some i) :
    i.Decodable c := by
  cases selectorRow_of_decodeSelector h <;> trivial

theorem decodeRequest_decodable {c : Config} {r : Request} {i : Instr} (h : decodeRequest c r = .ok i) :
    i.Decodable c := by
  obtain ⟨-, rfl⟩ | ⟨-, hd⟩ := decodeRequest_ok_cases h
  · exact decodeSpi_decodable c r
  · exact decodeSelector_decodable c hd

/-! ## The request a decoded request is encoded to -/

/-- `q` has the request word of `r`, and each operand field of `q` is that of `r` or empty. -/
structure Request.Narrows (q r : Request) : Prop where
  sel : q.sel = r.sel
  spiop : q.spiop = r.spiop
  addr : q.addr = r.addr ∨ q.addr = 0
  stop : q.stop = r.stop ∨ q.stop = 0
  n : q.n = r.n ∨ q.n = 0
  data : q.data = r.data ∨ q.data = []

theorem encode_decodeSpi (c : Config) {r : Request} (hs : r.sel = 0x10) :
    ∃ q, encode c (decodeSpi c r) = .request q ∧ q.Narrows r := by
  unfold decodeSpi
  split_ifs with hbe hwren hrdsr hread hpp hse
  · exact ⟨_, rfl, hs.symm, hbe.symm, .inr rfl, .inr rfl, .inr rfl, .inr rfl⟩
  · exact ⟨_, rfl, hs.symm, hwren.symm, .inr rfl, .inr rfl, .inr rfl, .inr rfl⟩
  · exact ⟨_, rfl, hs.symm, hrdsr.symm, .inr rfl, .inr rfl, .inr rfl, .inr rfl⟩
  · exact ⟨_, rfl, hs.symm, hread.symm, .inl rfl, .inr rfl, .inl rfl, .inr rfl⟩
  · exact ⟨_, rfl, hs.symm, hpp.symm, .inl rfl, .inr rfl, .inr rfl, .inl rfl⟩
  · exact ⟨_, rfl, hs.symm, hse.symm, .inl rfl, .inr rfl, .inr rfl, .inr rfl⟩
  · exact ⟨_, rfl, hs.symm, rfl, .inr rfl, .inr rfl, .inr rfl, .inr rfl⟩

theorem encode_decodeSelector (c : Config) {r : Request} {i : Instr} (hz : r.spiop = 0x00)
    (h : decodeSelector r = some i) : ∃ q, encode c i = .request q ∧ q.Narrows r := by
  cases selectorRow_of_decodeSelector h with
  | osdWrite hs => exact ⟨_, rfl, hs.symm, hz.symm, .inr rfl, .inr rfl, .inr rfl, .inl rfl⟩
  | osdRead hs => exact ⟨_, rfl, hs.symm, hz.symm, .inr rfl, .inr rfl, .inr rfl, .inl rfl⟩
  | osdDump hs => exact ⟨_, rfl, hs.symm, hz.symm, .inr rfl, .inr rfl, .inr rfl, .inr rfl⟩
  | flashWait hs => exact ⟨_, rfl, hs.symm, hz.symm, .inr rfl, .inr rfl, .inr rfl, .inr rfl⟩
  | flashErase hs => exact ⟨_, rfl, hs.symm, hz.symm, .inl rfl, .inl rfl, .inr rfl, .inr rfl⟩
  | flashWrite hs => exact ⟨_, rfl, hs.symm, hz.symm, .inl rfl, .inr rfl, .inr rfl, .inl rfl⟩
  | flashFw hs => exact ⟨_, rfl, hs.symm, hz.symm, .inr rfl, .inr rfl, .inr rfl, .inl rfl⟩
  | flashReadfw hs => exact ⟨_, rfl, hs.symm, hz.symm, .inr rfl, .inr rfl, .inr rfl, .inr rfl⟩

theorem encode_decodeRequest {c : Config} {r : Request} {i : Instr} (h : decodeRequest c r = .ok i) :
    ∃ q, encode c i = .request q ∧ q.Narrows r := by
  obtain ⟨hs, rfl⟩ | ⟨hz, hd⟩ := decodeRequest_ok_cases h
  · exact encode_decodeSpi c hs
  · exact encode_decodeSelector c hz hd

/-! ## The statements -/

/-- Settles O2: different opcodes make a well-formed instruction decodable, and decoding then undoes encoding. -/
theorem decodeOfEncodeIsTheInstruction : Obligations.DecodeOfEncodeIsTheInstruction :=
  fun _ _ hc hi => decode_encode (decodable_of_wf hc hi)

/-- Settles O3: what a request decodes to is decodable, and its encoding narrows the request. -/
theorem decodedRequestHasItsOwnWord : Obligations.DecodedRequestHasItsOwnWord := by
  refine ⟨fun c q r h => decodeRequest_congr h, fun c r i h => ?_⟩
  have hd := decodeRequest_decodable h
  obtain ⟨q, hq, hsel, hspiop, haddr, hstop, hn, hdata⟩ := encode_decodeRequest h
  have hword : q.word = r.word := by rw [Request.word, hsel, hspiop, Request.word]
  have hback : decodeRequest c q = .ok i := by simpa [hq, decode] using decode_encode hd
  exact ⟨wf_of_decodable hd, decodeRequest_isToken h, q, hq, hword, hback, haddr, hstop, hn, hdata⟩

/-- Settles O4, by induction along the decoder of texts: every token takes its own bytes. -/
theorem tokensOfATextSpellTheText : Obligations.TokensOfATextSpellTheText :=
  fun c text => ⟨flatMap_tokenBytes_decodeText c text, decodeText_tokens c text⟩

/-- Settles O1, by evaluating the decoder on each word. -/
theorem wordsOfTheTableDecode : Obligations.WordsOfTheTableDecode := by
  unfold Obligations.WordsOfTheTableDecode
  decide

/-- Settles O5: a selector other than 0x10 without an operation is reserved; with one, the opcode must be 0. -/
theorem requestWordsRejectedExactly : Obligations.RequestWordsRejectedExactly := by
  intro c r
  rw [decodeRequest_reserved_iff, decodeRequest_nonzeroSpiop_iff, ne_eq (decodeSelector r), decodeSelector_eq_none_iff,
    not_not]
  refine ⟨?_, Iff.rfl⟩
  simp only [operationSelectors, List.mem_cons, List.not_mem_nil]
  tauto

end Sys2Proof
end

section
/-!
The tokens of an OSD text (40 R95 to R109): in a row of the frame each does what its rule says, in a discarded row
nothing.
-/

namespace Sys2Proof.Machine

open Sys2Proof (Byte Instr)

/-! ## Cells (40 R105, R107 `put`) -/

/-- Before column 40 a cell is put at (ROW, COL) and counted. -/
theorem put_of_lt {s : State} (v : Byte) (h : s.work.col.toNat < COLS) :
    s.put v = { s with work := { s.work with
      fb := s.work.fb.setIfInBounds (COLS * s.work.row.toNat + s.work.col.toNat) (cellOf s.work.inv v),
      col := s.work.col + 1 } } := if_pos h

/-- Past column 40 a cell is dropped. -/
theorem put_of_ge {s : State} (v : Byte) (h : COLS ≤ s.work.col.toNat) : s.put v = s := if_neg (Nat.not_lt.mpr h)

/-- COL counts a cell without wrapping. -/
theorem toNat_col_add_one {c : BitVec 6} (h : c.toNat < COLS) : (c + 1).toNat = c.toNat + 1 := by
  simp only [COLS] at h
  rw [BitVec.toNat_add, show (1 : BitVec 6).toNat = 1 from rfl]
  omega

/-- ROW counts a row without wrapping. -/
theorem toNat_row_add_one {r : BitVec 5} (h : r.toNat < ROWS) : (r + 1).toNat = r.toNat + 1 := by
  simp only [ROWS] at h
  rw [BitVec.toNat_add, show (1 : BitVec 5).toNat = 1 from rfl]
  omega

/-- The cell put is the one the frame holds at its place. -/
theorem getElem?_setCell_same (fb : Vector Byte 640) {r c : Nat} (hr : r < ROWS) (hc : c < COLS) (v : Byte) :
    (fb.setIfInBounds (COLS * r + c) v).toList[COLS * r + c]? = some v := by
  simp only [ROWS, COLS] at hr hc
  have : 40 * r + c < 640 := by omega
  simp [this]

/-- Every other cell is as before. -/
theorem getElem?_setCell_ne (fb : Vector Byte 640) {j k : Nat} (h : k ≠ j) (v : Byte) :
    (fb.setIfInBounds j v).toList[k]? = fb.toList[k]? := by
  simp [h.symm]

/-- Settles O16: below 0x80 bit 7 is free, so the addition carries nothing. -/
theorem inverseAdditionFitsAByte : Obligations.InverseAdditionFitsAByte := by
  unfold Obligations.InverseAdditionFitsAByte
  decide

/-! ## Tokens in a row of the frame -/

/-- A backslash is no longer held (40 R107: `ESC <- 0`). -/
def State.releaseEsc (s : State) : State := { s with work := { s.work with esc := false } }

theorem inFrame_of_lt {s : State} (h : s.work.row.toNat < ROWS) : s.inFrame = true := (inFrame_iff s).mpr h

theorem inFrame_of_ge {s : State} (h : ROWS ≤ s.work.row.toNat) : ¬ s.inFrame = true := by
  rw [inFrame_iff]
  omega

theorem tokInvOn_inFrame {s : State} (h : s.inFrame = true) :
    s.tokInvOn = { s with work := { s.work with esc := false, inv := true } } := if_pos h

theorem tokInvOff_inFrame {s : State} (h : s.inFrame = true) :
    s.tokInvOff = { s with work := { s.work with esc := false, inv := false } } := if_pos h

theorem tokNewline_inFrame {s : State} (h : s.inFrame = true) :
    s.tokNewline = { s with work := { s.work with row := s.work.row + 1, col := 0, inv := false } } := if_pos h

theorem tokPad_inFrame {s : State} (h : s.inFrame = true) : s.tokPad = s.put 0x00 := if_pos h

theorem tokChar_inFrame {s : State} (x : BitVec 7) (h : s.inFrame = true) : s.tokChar x = s.put (0#1 ++ x) := if_pos h

theorem tokBslash_inFrame {s : State} (h : s.inFrame = true) :
    s.tokBslash = (s.put BACKSLASH).releaseEsc := if_pos h

/-- Settles O12: each token's own effect in a row of the frame. -/
theorem markersAndNewlineProduceNoCell : Obligations.MarkersAndNewlineProduceNoCell := by
  intro s hr
  have hf := inFrame_of_lt hr
  exact ⟨congrArg Host.Outcome.next (tokInvOn_inFrame hf), congrArg Host.Outcome.next (tokInvOff_inFrame hf),
    _, congrArg Host.Outcome.next (tokNewline_inFrame hf), rfl, toNat_row_add_one hr⟩

/-- A byte below 0x80 is the CHAR operand with a zero before it (30 R75). -/
theorem zero_append_of_toNat {b : Byte} {x : BitVec 7} (h : b.toNat = x.toNat) : (0#1 ++ x : Byte) = b :=
  BitVec.eq_of_toNat_eq (by rw [zero_append_eq_cons, BitVec.toNat_cons']; simp [h])

/-- Settles O13: all three tokens put their cell, and only BSLASH writes ESC. -/
theorem characterTokensPutOneCell : Obligations.CharacterTokensPutOneCell := by
  intro s hr hc i b esc hi
  have hf := inFrame_of_lt hr
  have hput := put_of_lt b hc
  have hx : exec i s = .next { s.put b with work := { (s.put b).work with esc := esc } } := by
    rcases hi with ⟨x, rfl, hb, rfl⟩ | ⟨rfl, rfl, rfl⟩ | ⟨rfl, rfl, rfl⟩
    · rw [← put_esc b s, ← zero_append_of_toNat hb]
      exact congrArg Host.Outcome.next (tokChar_inFrame x hf)
    · rw [← put_esc 0 s]
      exact congrArg Host.Outcome.next (tokPad_inFrame hf)
    · exact congrArg Host.Outcome.next (tokBslash_inFrame hf)
  rw [hput] at hx
  exact ⟨_, hx, rfl, toNat_col_add_one hc, getElem?_setCell_same _ hr hc _, fun k hk => getElem?_setCell_ne _ hk _⟩

/-! ## Tokens that change no cell -/

/-- In a discarded row no token but INVALID has any effect (40 R97, R107 `skip`). -/
theorem exec_token_discarded {i : Instr} {s : State} (h : ROWS ≤ s.work.row.toNat)
    (hi : (∃ x, i = .char x) ∨ i ∈ ([.invOn, .invOff, .newline, .pad, .bslash] : List Instr)) : exec i s = .next s := by
  have hf := inFrame_of_ge h
  simp only [List.mem_cons, List.not_mem_nil, or_false] at hi
  rcases hi with ⟨x, rfl⟩ | rfl | rfl | rfl | rfl | rfl <;> exact congrArg Host.Outcome.next (if_neg hf)

/-- Settles O14: a clipped cell is dropped, and a discarded row takes no token. -/
theorem clippedAndDiscardedTokensChangeNoCell : Obligations.ClippedAndDiscardedTokensChangeNoCell := by
  refine ⟨fun s x hr hc => ?_, fun s i hr hi => exec_token_discarded hr hi⟩
  have hf := inFrame_of_lt hr
  have hput (v : Byte) : s.put v = s := put_of_ge v hc
  exact ⟨congrArg Host.Outcome.next ((tokChar_inFrame x hf).trans (hput _)),
    congrArg Host.Outcome.next ((tokPad_inFrame hf).trans (hput _)),
    congrArg Host.Outcome.next ((tokBslash_inFrame hf).trans (congrArg State.releaseEsc (hput _)))⟩

/-- A byte 0x80..0xFF is the INVALID operand with a one before it (30 R76). -/
theorem one_append_of_toNat {b : Byte} {x : BitVec 7} (h : b.toNat = 0x80 + x.toNat) : (1#1 ++ x : Byte) = b :=
  BitVec.eq_of_toNat_eq (by rw [one_append_eq_cons, BitVec.toNat_cons']; simp [h])

/-- Settles O15: INVALID raises InvalidCharacter at the byte's index. -/
theorem invalidByteEndsTheWrite : Obligations.InvalidByteEndsTheWrite := by
  intro s x b hb
  rw [← one_append_of_toNat hb]
  exact endsAs_raise (.invalidCharacter s.pc (1#1 ++ x)) s

end Sys2Proof.Machine
end

section
/-!
One step of the streaming parser (40 R107), byte by byte: which tokens it runs, and when it holds a backslash.
-/

namespace Sys2Proof.Machine

open Sys2Proof (Byte Instr)

/-! ## Bytes -/

theorem msb_eq_false_of_lt {b : Byte} (h : b.toNat < 0x80) : b.msb = false :=
  BitVec.msb_eq_false_iff_two_mul_lt.mpr (by omega)

theorem msb_eq_true_of_ge {b : Byte} (h : 0x80 ≤ b.toNat) : b.msb = true :=
  BitVec.msb_eq_true_iff_two_mul_ge.mpr (by omega)

/-! ## One byte -/

theorem exec_osdWrite_parse (text : List Byte) {s : State} (h : s.phase = .parse) :
    exec (.osdWrite text) s = .next (s.parseStep text) := by simp only [exec, execOsdWrite, h]

theorem parseStep_of_some {text : List Byte} {s : State} {b : Byte} (h : text[s.pc]? = some b) :
    s.parseStep text = s.parseByte b := by simp only [State.parseStep, h]

theorem parseStep_of_none {text : List Byte} {s : State} (h : text[s.pc]? = none) :
    s.parseStep text = s.parseEnd := by simp only [State.parseStep, h]

theorem parseByte_invalid {b : Byte} {s : State} (h : b.msb = true) :
    s.parseByte b = s.tokInvalid (b.setWidth 7) := if_pos h

theorem parseByte_inFrame {b : Byte} {s : State} (h : b.msb = false) (hf : s.inFrame = true) :
    s.parseByte b = (s.frameByte b).advance := by simp [State.parseByte, h, hf]

theorem parseByte_discarded {b : Byte} {s : State} (h : b.msb = false) (hf : ¬ s.inFrame = true) :
    s.parseByte b = s.advance := by simp [State.parseByte, h, hf]

theorem frameByte_inv_on {s : State} (he : s.work.esc = true) : s.frameByte LETTER_I = s.tokInvOn := by
  simp [State.frameByte, he]

theorem frameByte_inv_off {s : State} (he : s.work.esc = true) : s.frameByte LETTER_U = s.tokInvOff := by
  simp [State.frameByte, he]

theorem frameByte_unmarked {b : Byte} {s : State} (h : s.work.esc = true → b ≠ LETTER_I ∧ b ≠ LETTER_U) :
    s.frameByte b = s.unmarkedByte b := by
  rw [State.frameByte, if_neg fun ⟨he, hi⟩ => (h he).1 hi, if_neg fun ⟨he, hu⟩ => (h he).2 hu]

/-- A held backslash that is completed to no marker becomes a cell before its next byte is decoded (40 R103). -/
def State.flushEsc (s : State) : State := if s.work.esc then s.tokBslash else s

theorem flushEsc_of_held {s : State} (h : s.work.esc = true) : s.flushEsc = s.tokBslash := if_pos h

theorem flushEsc_of_not_held {s : State} (h : s.work.esc = false) : s.flushEsc = s := if_neg (by simp [h])

theorem unmarkedByte_eq (b : Byte) (s : State) :
    s.unmarkedByte b = if b = BACKSLASH then s.flushEsc.holdEsc else s.flushEsc.plainByte b := rfl

theorem unmarkedByte_backslash (s : State) : s.unmarkedByte BACKSLASH = s.flushEsc.holdEsc :=
  (unmarkedByte_eq BACKSLASH s).trans (if_pos rfl)

theorem unmarkedByte_plain {b : Byte} (s : State) (h : b ≠ BACKSLASH) :
    s.unmarkedByte b = s.flushEsc.plainByte b := (unmarkedByte_eq b s).trans (if_neg h)

theorem parseEnd_eq (s : State) : s.parseEnd = (s.flushEsc.goto (.send 0)).advance := rfl

/-- A plain byte runs its one-byte token (30 R72 to R76). -/
theorem exec_byteToken {b : Byte} (s : State) (hm : b.msb = false) (hb : b ≠ BACKSLASH) :
    exec (byteToken b) s = .next (s.plainByte b) := by
  rw [byteToken, if_neg (by simp [hm])]
  unfold State.plainByte
  split_ifs <;> rfl

/-! ## Counting the byte -/

theorem plainByte_pc (b : Byte) (s : State) : (s.plainByte b).pc = s.pc := by
  obtain ⟨w, e⟩ := plainByte_shape b s
  rw [e]

theorem tokBslash_pc (s : State) : s.tokBslash.pc = s.pc := by
  obtain ⟨w, e⟩ := tokBslash_shape s
  rw [e]

theorem tokInvOn_pc (s : State) : s.tokInvOn.pc = s.pc := by unfold State.tokInvOn; split <;> rfl

theorem tokInvOff_pc (s : State) : s.tokInvOff.pc = s.pc := by unfold State.tokInvOff; split <;> rfl

theorem advance_of_pc {s t : State} (h : t.pc = s.pc) : t.advance = { t with pc := s.pc + 1 } := by
  rw [State.advance, h]

/-- In a discarded row a valid byte is skipped, which is also what its token would do there. -/
theorem parseByte_of_token {s t : State} {b : Byte} (hm : b.msb = false) (hpc : t.pc = s.pc)
    (hin : s.inFrame = true → s.frameByte b = t) (hout : ¬ s.inFrame = true → t = s) :
    s.parseByte b = { t with pc := s.pc + 1 } := by
  rw [← advance_of_pc hpc]
  by_cases hf : s.inFrame = true
  · rw [parseByte_inFrame hm hf, hin hf]
  · rw [parseByte_discarded hm hf, hout hf]

theorem plainByte_discarded (b : Byte) {s : State} (h : ¬ s.inFrame = true) : s.plainByte b = s := by
  unfold State.plainByte State.tokNewline State.tokPad State.tokChar
  simp [h]

/-- Settles O7: the byte's token in a row of the frame, and no effect of either in a discarded row. -/
theorem parserStepRunsItsToken : Obligations.ParserStepRunsItsToken := by
  intro text s b ho hb hp hi hget hlt
  have hm := msb_eq_false_of_lt hlt
  have hstep : step s = .next (s.parseByte b) := by
    rw [step_of_current ho hb hi, exec_osdWrite_parse text hp, parseStep_of_some hget]
  rw [hstep]
  refine ⟨?_, ?_, fun he hne => ?_, fun he hr hI hU hne => ?_⟩
  · rintro he rfl
    exact ⟨_, rfl, congrArg Host.Outcome.next
      (parseByte_of_token hm (tokInvOn_pc s) (fun _ => frameByte_inv_on he) fun hf => if_neg hf)⟩
  · rintro he rfl
    exact ⟨_, rfl, congrArg Host.Outcome.next
      (parseByte_of_token hm (tokInvOff_pc s) (fun _ => frameByte_inv_off he) fun hf => if_neg hf)⟩
  · refine ⟨_, exec_byteToken s hm hne, congrArg Host.Outcome.next (parseByte_of_token hm (plainByte_pc b s)
      (fun _ => ?_) (plainByte_discarded b))⟩
    rw [frameByte_unmarked (by simp [he]), unmarkedByte_plain s hne, flushEsc_of_not_held he]
  · refine ⟨_, _, rfl, exec_byteToken _ hm hne, congrArg Host.Outcome.next (parseByte_of_token hm
      ((plainByte_pc b _).trans (tokBslash_pc s)) (fun _ => ?_) fun hf => absurd (inFrame_of_lt hr) hf)⟩
    rw [frameByte_unmarked fun _ => ⟨hI, hU⟩, unmarkedByte_plain s hne, flushEsc_of_held he]

/-- Settles O8: a backslash is held, and released as a cell by the next one or by the end of the text. -/
theorem parserHoldsAndReleasesBackslashes : Obligations.ParserHoldsAndReleasesBackslashes := by
  intro text s ho hb hp hi
  rw [step_of_current ho hb hi, exec_osdWrite_parse text hp]
  have backslash (hget : text[s.pc]? = some BACKSLASH) (hr : s.work.row.toNat < ROWS) :
      s.parseStep text = s.flushEsc.holdEsc.advance := by
    rw [parseStep_of_some hget, parseByte_inFrame (by decide) (inFrame_of_lt hr),
      frameByte_unmarked (fun _ => by decide), unmarkedByte_backslash]
  refine ⟨fun hget he hr => ?_, fun hget he hr => ⟨_, rfl, ?_⟩, fun b hget hlt hr => ?_, fun hget he => ?_,
    fun hget he => ⟨_, rfl, ?_⟩, fun b hget hge => ?_⟩
  · rw [backslash hget hr, flushEsc_of_not_held he]
    rfl
  · rw [backslash hget hr, flushEsc_of_held he, ← tokBslash_pc s]
    rfl
  · rw [parseStep_of_some hget, parseByte_discarded (msb_eq_false_of_lt hlt) (inFrame_of_ge hr)]
    rfl
  · rw [parseStep_of_none hget, parseEnd_eq, flushEsc_of_not_held he]
    rfl
  · rw [parseStep_of_none hget, parseEnd_eq, flushEsc_of_held he, ← tokBslash_pc s]
    rfl
  · rw [parseStep_of_some hget, parseByte_invalid (msb_eq_true_of_ge hge)]
    rfl

end Sys2Proof.Machine
end

section
/-!
The printable grid (40 R113 to R115): which bytes print, and the operations that return a frame's grid.
-/

namespace Sys2Proof.Machine

open Sys2Proof (Byte Config)

theorem printable_of_mem (c : Config) {b : Byte} (h : 0x20 ≤ b.toNat ∧ b.toNat ≤ 0x7E) : printable c b = b := if_pos h

theorem printable_of_not_mem (c : Config) {b : Byte} (h : ¬ (0x20 ≤ b.toNat ∧ b.toNat ≤ 0x7E)) :
    printable c b = c.placeholder := if_neg h

/-- Settles O22: the two branches of the map, and the grid of a whole frame byte by byte. -/
theorem printableMapsOtherBytesToThePlaceholder : Obligations.PrintableMapsOtherBytesToThePlaceholder := by
  refine ⟨fun c b => ⟨fun lo hi => printable_of_mem c ⟨lo, hi⟩, fun h => printable_of_not_mem c (by omega)⟩, rfl,
    fun c frame hlen k => ?_⟩
  rw [toList_gridOf c hlen, List.getElem?_map]

/-- Returning the grid of a whole frame: GRID holds it and it is the value of the result. -/
theorem returnGrid_of_frame {frame : List Byte} (s : State) (h : frame.length = FRAME_BYTES) :
    s.returnGrid frame = { s with
      busy := false, err := 0, work := { s.work with grid := gridOf s.cfg frame }, pc := s.pc + 1,
      results := s.results ++ [⟨0, frame.map (printable s.cfg), .success⟩] } := by
  rw [← toList_gridOf s.cfg h]
  rfl

theorem exec_osdRead_of_frame {frame : List Byte} (s : State) (h : frame.length = FRAME_BYTES) :
    exec (.osdRead frame) s = .next (s.returnGrid frame) := congrArg Host.Outcome.next (if_pos h)

theorem exec_osdRead_of_ne {frame : List Byte} (s : State) (h : frame.length ≠ FRAME_BYTES) :
    exec (.osdRead frame) s = .next (s.raise (.layoutError FRAME_BYTES frame.length)) :=
  congrArg Host.Outcome.next (if_neg h)

/-- Settles O21: the check on the length either passes, and the grid is returned, or raises. -/
theorem osdReadReturnsThePrintableGrid : Obligations.OsdReadReturnsThePrintableGrid := by
  refine fun frame s => ⟨fun hlen => ?_, fun hlen => ?_⟩
  · rw [exec_osdRead_of_frame s hlen, returnGrid_of_frame s hlen]
    exact ⟨_, rfl, rfl, toList_gridOf s.cfg hlen⟩
  · rw [exec_osdRead_of_ne s hlen]
    exact endsAs_raise (.layoutError FRAME_BYTES frame.length) s

/-- An answered Display read returns a whole frame (20 R54). -/
theorem length_of_answers_dump {s : State} {bs : List Byte} (hc : s.cfg.wf = true)
    (h : s.answers (memReadXact s.cfg.geo.displayBase FRAME_BYTES) bs) : bs.length = FRAME_BYTES := by
  obtain ⟨tg, hr, h⟩ := h
  obtain rfl : Target.displayRead s.cfg.geo.displayBase FRAME_BYTES = tg := by simpa [route_dump hc] using hr
  exact length_of_answered (length_ownAnswer_displayRead s _ _) h

/-- Settles O23: the exchange reads the whole Display and changes nothing of the device. -/
theorem osdDumpReturnsTheGridOfTheAnswer : Obligations.OsdDumpReturnsTheGridOfTheAnswer := by
  refine ⟨by decide, ?_⟩
  rintro s _ bs hc rfl h
  have hlen := length_of_answers_dump hc h
  rw [exec_osdDump_eq, transact_of_answers _ (route_dump hc) h, returnGrid_of_frame _ hlen]
  exact ⟨_, rfl, hlen, rfl, toList_gridOf s.cfg hlen⟩

end Sys2Proof.Machine
end

section
/-!
Sending the frame (40 R111, R112): what one Display write leaves, and that the sixteen rows of row mode leave in the
Display what the one write of frame mode does (R116).
-/

namespace Sys2Proof.Machine

open Sys2Proof (Byte Config Geometry)

/-! ## One Display write -/

/-- The state after an answered write of `v` at device address `a` of the Display region (10 R34). -/
def State.shown (a : Nat) (v : List Byte) (s : State) : State :=
  { s.sent (memWriteXact a v) with devMem := s.devMem.write a v }

theorem transact_memWrite {a : Nat} {v bs : List Byte} {s : State} (k : List Byte → State → State)
    (hc : s.cfg.wf = true) (hv : 1 ≤ v.length) (ha : inDisplay s.cfg.geo a v.length)
    (h : s.answers (memWriteXact a v) bs) : transact (memWriteXact a v) k s = .next (k bs (s.shown a v)) :=
  transact_of_answers k (route_memWrite hc hv ha) h

theorem lookup_shown_inside {a x : Nat} {v : List Byte} (s : State) (h : a ≤ x) (h' : x < a + v.length) :
    (s.shown a v).devMem.lookup x = v[x - a]? := lookup_write_inside s.devMem h h'

theorem lookup_shown_outside {a x : Nat} {v : List Byte} (s : State) (h : x < a ∨ a + v.length ≤ x) :
    (s.shown a v).devMem.lookup x = s.devMem.lookup x := lookup_write_outside s.devMem h

/-! ## One step -/

theorem exec_osdWrite_send (text : List Byte) {s : State} {r : Nat} (h : s.phase = .send r) :
    exec (.osdWrite text) s = sendStep r s := by simp only [exec, execOsdWrite, h]

theorem sendStep_rows {s : State} {r : Nat} (hm : s.cfg.osdWriteMode = .rows) (hr : r < ROWS) :
    sendStep r s = sendRow r s := by simp only [sendStep, hm, if_pos hr]

theorem sendStep_frame {s : State} (r : Nat) (hm : s.cfg.osdWriteMode = .frame) :
    sendStep r s = sendFrame s := by simp only [sendStep, hm]

/-- The device address of row `r`. -/
def rowBase (g : Geometry) (r : Nat) : Nat := g.displayBase + COLS * r

/-- The frame that writes row `r`. -/
def rowXact (s : State) (r : Nat) : Xact := memWriteXact (rowBase s.cfg.geo r) (frameRow s.work.fb r)

/-- The state after an answered write of row `r`. -/
def State.rowShown (r : Nat) (s : State) : State := s.shown (rowBase s.cfg.geo r) (frameRow s.work.fb r)

/-- The frame that writes all rows. -/
def frameXact (s : State) : Xact := memWriteXact s.cfg.geo.displayBase s.work.fb.toList

/-- The state after an answered write of all rows. -/
def State.frameShown (s : State) : State := s.shown s.cfg.geo.displayBase s.work.fb.toList

theorem rowBase_succ (g : Geometry) (r : Nat) : rowBase g (r + 1) = rowBase g r + COLS :=
  (Nat.add_assoc g.displayBase (COLS * r) COLS).symm

/-- A row of the frame ends inside the Display region (10 R30, R34). -/
theorem rowBase_succ_le (g : Geometry) {r : Nat} (hr : r < ROWS) :
    rowBase g (r + 1) ≤ g.displayBase + FRAME_BYTES := Nat.add_le_add_left (Nat.mul_le_mul_left COLS hr) _

theorem row_inDisplay (g : Geometry) (fb : Vector Byte 640) {r : Nat} (hr : r < ROWS) :
    inDisplay g (rowBase g r) (frameRow fb r).length := by
  rw [inDisplay, length_frameRow fb hr, ← rowBase_succ]
  exact ⟨Nat.le_add_right _ _, rowBase_succ_le g hr⟩

theorem frame_inDisplay (g : Geometry) (fb : Vector Byte 640) : inDisplay g g.displayBase fb.toList.length :=
  ⟨le_rfl, by simp [FRAME_BYTES]⟩

/-- The step of row `r`: the row is written, and the next one follows or the operation returns. -/
theorem exec_sendRow (text : List Byte) {s : State} {r : Nat} {bs : List Byte} (hc : s.cfg.wf = true)
    (hp : s.phase = .send r) (hm : s.cfg.osdWriteMode = .rows) (hr : r < ROWS) (h : s.answers (rowXact s r) bs) :
    exec (.osdWrite text) s = .next (if r + 1 < ROWS then ((s.rowShown r).goto (.send (r + 1))).advance
      else (s.rowShown r).finish []) := by
  rw [exec_osdWrite_send text hp, sendStep_rows hm hr, sendRow_eq]
  exact transact_memWrite _ hc (by simp [length_frameRow _ hr]) (row_inDisplay _ _ hr) h

/-- The step of frame mode: all rows are written and the operation returns. -/
theorem exec_sendFrame (text : List Byte) {s : State} {r : Nat} {bs : List Byte} (hc : s.cfg.wf = true)
    (hp : s.phase = .send r) (hm : s.cfg.osdWriteMode = .frame) (h : s.answers (frameXact s) bs) :
    exec (.osdWrite text) s = .next (s.frameShown.finish []) := by
  rw [exec_osdWrite_send text hp, sendStep_frame r hm, sendFrame_eq]
  exact transact_memWrite _ hc (by simp) (frame_inDisplay _ _) h

/-! ## What the Display holds -/

theorem getElem?_frameRow (fb : Vector Byte 640) (r : Nat) {k : Nat} (hk : k < COLS) :
    (frameRow fb r)[k]? = fb.toList[COLS * r + k]? := by
  rw [frameRow, List.getElem?_take_of_lt hk, List.getElem?_drop]

theorem lookup_rowShown_inside (s : State) {r k : Nat} (hr : r < ROWS) (hk : k < COLS) :
    (s.rowShown r).devMem.lookup (rowBase s.cfg.geo r + k) = s.work.fb.toList[COLS * r + k]? := by
  rw [State.rowShown, lookup_shown_inside s (Nat.le_add_right _ k) (by rw [length_frameRow _ hr]; omega),
    Nat.add_sub_cancel_left, getElem?_frameRow _ _ hk]

theorem lookup_rowShown_outside (s : State) {r a : Nat} (hr : r < ROWS)
    (h : a < rowBase s.cfg.geo r ∨ rowBase s.cfg.geo (r + 1) ≤ a) :
    (s.rowShown r).devMem.lookup a = s.devMem.lookup a :=
  lookup_shown_outside s (by rwa [length_frameRow _ hr, ← rowBase_succ])

theorem lookup_frameShown_inside (s : State) {k : Nat} (hk : k < FRAME_BYTES) :
    s.frameShown.devMem.lookup (s.cfg.geo.displayBase + k) = s.work.fb.toList[k]? := by
  rw [State.frameShown, lookup_shown_inside s (Nat.le_add_right _ k) (by simpa using hk), Nat.add_sub_cancel_left]

theorem lookup_frameShown_outside (s : State) {a : Nat}
    (h : a < s.cfg.geo.displayBase ∨ s.cfg.geo.displayBase + FRAME_BYTES ≤ a) :
    s.frameShown.devMem.lookup a = s.devMem.lookup a := lookup_shown_outside s (by simpa using h)

/-- Settles O19: one write in either mode, and what it leaves in the device's memory. -/
theorem sendStepWritesTheFrame : Obligations.SendStepWritesTheFrame := by
  refine ⟨rfl, ?_⟩
  rintro text s r bs _ hc rfl hp
  refine ⟨?_, ?_⟩
  · rintro _ rfl hm hr h
    refine ⟨_, exec_sendRow text hc hp hm hr h, ?_⟩
    split_ifs with hlast <;> simp only [ROWS] at hlast
    · exact ⟨rfl, fun _ => ⟨rfl, rfl, rfl, rfl, rfl⟩, by omega, fun k hk => lookup_rowShown_inside s hr hk,
        fun a ha => lookup_rowShown_outside s hr ha⟩
    · exact ⟨rfl, by omega, fun _ => ⟨rfl, rfl, rfl⟩, fun k hk => lookup_rowShown_inside s hr hk,
        fun a ha => lookup_rowShown_outside s hr ha⟩
  · rintro _ rfl hm h
    exact ⟨_, exec_sendFrame text hc hp hm h, rfl, fun k hk => lookup_frameShown_inside s hk,
      fun a ha => lookup_frameShown_outside s ha⟩

/-! ## The whole frame -/

/-- A write is answered by every reply but an error. -/
theorem answers_of_noError {s : State} {r : Reply} {rest : List Reply} {a : Nat} {v : List Byte} (hc : s.cfg.wf = true)
    (hv : 1 ≤ v.length) (ha : inDisplay s.cfg.geo a v.length) (hs : s.replies = r :: rest) (hr : r.noError) :
    s.answers (memWriteXact a v) [] := by
  refine ⟨_, route_memWrite hc hv ha, ?_⟩
  rw [State.nextReply, hs]
  cases r with
  | own => rfl
  | bytes bs => rfl
  | error code => exact absurd rfl (hr code)

/-- The block is about to send row `r`, or in frame mode the frame, of a running `osd.write`. -/
structure Sending (text : List Byte) (r : Nat) (s : State) : Prop where
  wf : s.cfg.wf = true
  off : s.resetIn = .off
  busy : s.busy = true
  phase : s.phase = .send r
  current : s.current = .ok (.osdWrite text)

/-- From `s` to `t` the operation has returned after `n` frames, and the Display holds FB from row `r` on; the replies
`rest` are left. -/
structure FrameSent (n r : Nat) (rest : List Reply) (s t : State) : Prop where
  busy : t.busy = false
  err : t.err = 0
  results : t.results = s.results ++ [⟨0, [], .success⟩]
  bus : ∃ l : List Xact, l.length = n ∧ t.bus = s.bus ++ l
  replies : t.replies = rest
  inside : ∀ a, COLS * r ≤ a → a < FRAME_BYTES →
    t.devMem.lookup (s.cfg.geo.displayBase + a) = s.work.fb.toList[a]?
  outside : ∀ a, a < rowBase s.cfg.geo r ∨ s.cfg.geo.displayBase + FRAME_BYTES ≤ a →
    t.devMem.lookup a = s.devMem.lookup a
  flash : t.flash = s.flash
  sr : t.sr = s.sr

/-- Every cell from row `r` on is one of row `r` or from row `r + 1` on. -/
theorem cell_of_row_cases {r a : Nat} (h : COLS * r ≤ a) :
    (∃ k, k < COLS ∧ a = COLS * r + k) ∨ COLS * (r + 1) ≤ a := by
  by_cases hk : a - COLS * r < COLS
  · exact .inl ⟨a - COLS * r, hk, by omega⟩
  · exact .inr (by rw [Nat.mul_succ]; omega)

/-- The last row returns. -/
theorem frameSent_last {s : State} {q : Reply} {rest : List Reply} (hs : s.replies = q :: rest) :
    FrameSent 1 15 rest s ((s.rowShown 15).finish []) where
  busy := rfl
  err := rfl
  results := rfl
  bus := ⟨[rowXact s 15], rfl, rfl⟩
  replies := congrArg List.tail hs
  inside a lo hi := by
    rcases cell_of_row_cases lo with ⟨k, hk, rfl⟩ | h
    · rw [← Nat.add_assoc]
      exact lookup_rowShown_inside s (by decide) hk
    · simp only [COLS, FRAME_BYTES] at h hi
      omega
  outside a h := lookup_rowShown_outside s (by decide) h
  flash := rfl
  sr := rfl

/-- A row before the last is kept by the rows after it. -/
theorem frameSent_next {s t : State} {n r : Nat} {rest : List Reply} (hr : r < ROWS)
    (h : FrameSent n (r + 1) rest ((s.rowShown r).goto (.send (r + 1))).advance t) : FrameSent (n + 1) r rest s t where
  busy := h.busy
  err := h.err
  results := h.results
  bus := by
    obtain ⟨l, hl, hbus⟩ := h.bus
    exact ⟨rowXact s r :: l, by simp [hl], by rw [hbus]; simp [State.rowShown, State.shown, rowXact]⟩
  replies := h.replies
  inside a lo hi := by
    rcases cell_of_row_cases lo with ⟨k, hk, rfl⟩ | hnext
    · have hbefore : rowBase s.cfg.geo r + k < rowBase s.cfg.geo (r + 1) := by
        rw [rowBase_succ]
        omega
      rw [← Nat.add_assoc]
      exact (h.outside _ (.inl hbefore)).trans (lookup_rowShown_inside s hr hk)
    · exact h.inside a hnext hi
  outside a ha := by
    have hend := rowBase_succ_le s.cfg.geo hr
    have hstart := rowBase_succ s.cfg.geo r
    exact (h.outside a (ha.imp_left fun _ => show a < rowBase s.cfg.geo (r + 1) by omega)).trans
      (lookup_rowShown_outside s hr (ha.imp_right fun _ => by omega))
  flash := h.flash
  sr := h.sr

/-- Frame mode returns after its one frame. -/
theorem frameSent_frame {s : State} {q : Reply} {rest : List Reply} (hs : s.replies = q :: rest) :
    FrameSent 1 0 rest s (s.frameShown.finish []) where
  busy := rfl
  err := rfl
  results := rfl
  bus := ⟨[frameXact s], rfl, rfl⟩
  replies := congrArg List.tail hs
  inside _ _ hi := lookup_frameShown_inside s hi
  outside _ h := lookup_frameShown_outside s h
  flash := rfl
  sr := rfl

/-- The rows from `r` on are sent one a step, each answered with success. -/
theorem runSteps_rows {text : List Byte} {rest : List Reply} (rs : List Reply) :
    ∀ (r : Nat) (s : State), Sending text r s → s.cfg.osdWriteMode = .rows → r < ROWS → r + rs.length = ROWS →
      s.replies = rs ++ rest → (∀ q ∈ rs, q.noError) →
      ∃ t, runSteps rs.length s = .next t ∧ FrameSent rs.length r rest s t := by
  induction rs with
  | nil => intro r s _ _ hr hlen; simp only [List.length_nil] at hlen; omega
  | cons q rs ih =>
    intro r s h hm hr hlen hs hok
    obtain ⟨hq, hok⟩ := List.forall_mem_cons.mp hok
    have hans : s.answers (rowXact s r) [] :=
      answers_of_noError h.wf (by simp [length_frameRow _ hr]) (row_inDisplay _ _ hr) hs hq
    have hstep := (step_of_current h.off h.busy h.current).trans (exec_sendRow text h.wf h.phase hm hr hans)
    rw [List.length_cons, runSteps_succ_of_next hstep]
    rw [List.length_cons] at hlen
    by_cases hlast : r + 1 < ROWS
    · rw [if_pos hlast]
      obtain ⟨t, ht, hsent⟩ := ih (r + 1) ((s.rowShown r).goto (.send (r + 1))).advance
        ⟨h.wf, h.off, h.busy, rfl, h.current⟩ hm hlast (by omega) (congrArg List.tail hs) hok
      exact ⟨t, ht, frameSent_next hr hsent⟩
    · obtain rfl : r = 15 := by simp only [ROWS] at hr hlast; omega
      obtain rfl : rs = [] := List.eq_nil_of_length_eq_zero (by simp only [ROWS] at hlen; omega)
      rw [if_neg hlast]
      exact ⟨_, rfl, frameSent_last hs⟩

/-- The frame is sent as a whole in one step, answered with success. -/
theorem runSteps_frame {text : List Byte} {s : State} {q : Reply} {rest : List Reply} (h : Sending text 0 s)
    (hm : s.cfg.osdWriteMode = .frame) (hs : s.replies = q :: rest) (hq : q.noError) :
    ∃ t, runSteps 1 s = .next t ∧ FrameSent 1 0 rest s t := by
  have hans : s.answers (frameXact s) [] := answers_of_noError h.wf (by simp) (frame_inDisplay _ _) hs hq
  rw [runSteps_succ_of_next
    ((step_of_current h.off h.busy h.current).trans (exec_sendFrame text h.wf h.phase hm hans))]
  exact ⟨_, rfl, frameSent_frame hs⟩

/-- Settles O20: in both modes the Display holds the frame from row 0 on. -/
theorem bothModesLeaveTheFrameInDisplay : Obligations.BothModesLeaveTheFrameInDisplay := by
  rintro text s rs rest _ hc rfl ho hb hp hi hmode hs hok
  have h : Sending text 0 s := ⟨hc, ho, hb, hp, hi⟩
  have hrun : ∃ t, runSteps rs.length s = .next t ∧ FrameSent rs.length 0 rest s t := by
    rcases hmode with ⟨hm, hlen⟩ | ⟨hm, hlen⟩
    · exact runSteps_rows rs 0 s h hm (by decide) (by rw [hlen]) hs hok
    · obtain ⟨q, rfl⟩ := List.length_eq_one_iff.mp hlen
      exact runSteps_frame h hm hs (hok q (List.mem_singleton_self q))
  obtain ⟨t, ht, hsent⟩ := hrun
  exact ⟨t, ht, hsent.busy, hsent.err, hsent.results, hsent.bus, hsent.replies,
    fun a ha => hsent.inside a (Nat.zero_le a) ha, hsent.outside, hsent.flash, hsent.sr⟩


end Sys2Proof.Machine
end

section
/-!
The streaming parser against the whole-text form (40 R99, R107). `Work.expected` is the frame a run will end with: the
cells before (ROW, COL) are those FB holds, the others come from the text not yet rendered (`Work.pending`).
Every byte keeps it, whichever token the byte ends; at the end of the text it is FB, at the start it is the whole-text
form's frame.
-/

namespace Sys2Proof.Machine

open Sys2Proof (Byte)

/-! ## Rows of a text (40 R96) -/

theorem splitRows_lf (text : List Byte) : splitRows (LF :: text) = [] :: splitRows text := if_pos rfl

theorem splitRows_cons {b : Byte} {text row : List Byte} {rows : List (List Byte)} (hb : b ≠ LF)
    (h : splitRows text = row :: rows) : splitRows (b :: text) = (b :: row) :: rows := by
  rw [splitRows, if_neg hb, h]

/-- A text has a first row, which starts as the text does unless it is empty. -/
theorem splitRows_shape (text : List Byte) :
    ∃ row rows, splitRows text = row :: rows ∧ ∀ b ∈ row.head?, text.head? = some b := by
  induction text with
  | nil => exact ⟨[], [], rfl, by simp⟩
  | cons b text ih =>
    obtain ⟨row, rows, h, -⟩ := ih
    by_cases hb : b = LF
    · exact ⟨[], splitRows text, by rw [hb, splitRows_lf], by simp⟩
    · exact ⟨b :: row, rows, splitRows_cons hb h, by simp⟩

/-! ## Cells of a row (40 R99 `render_row`) -/

/-- The byte `b` and the text after it do not start with a marker (40 R101, R102). -/
def NoMarker (b : Byte) (text : List Byte) : Prop :=
  b = BACKSLASH → ∀ b' ∈ text.head?, b' ≠ LETTER_I ∧ b' ≠ LETTER_U

theorem renderRow_cell {b : Byte} {row : List Byte} (inv : Bool) (h : NoMarker b row) :
    renderRow inv (b :: row) = cellOf inv b :: renderRow inv row := by
  cases row with
  | nil => rfl
  | cons b' row =>
    have h' (hb : b = BACKSLASH) := h hb b' rfl
    rw [renderRow, if_neg fun ⟨hb, hi⟩ => (h' hb).1 hi, if_neg fun ⟨hb, hu⟩ => (h' hb).2 hu]

theorem renderRow_on (inv : Bool) (row : List Byte) :
    renderRow inv (BACKSLASH :: LETTER_I :: row) = renderRow true row := if_pos ⟨rfl, rfl⟩

theorem renderRow_off (inv : Bool) (row : List Byte) :
    renderRow inv (BACKSLASH :: LETTER_U :: row) = renderRow false row := by
  rw [renderRow, if_neg (by decide), if_pos ⟨rfl, rfl⟩]

/-- Cell `c` of row `j` of a text, the inverse flag being `inv` at the row's start; none past the row's cells and past
the text's rows. -/
def renderedCell (inv : Bool) (text : List Byte) (j c : Nat) : Option Byte :=
  (splitRows text)[j]?.bind fun row => (renderRow inv row)[c]?

theorem frameCell_eq (text : List Byte) (r c : Nat) : frameCell text r c = (renderedCell false text r c).getD 0x00 := by
  unfold frameCell renderedCell
  split <;> simp_all [List.getD_eq_getElem?_getD]

theorem renderedCell_nil (inv : Bool) (j c : Nat) : renderedCell inv [] j c = none := by
  cases j <;> rfl

theorem renderedCell_lf_zero (inv : Bool) (text : List Byte) (c : Nat) :
    renderedCell inv (LF :: text) 0 c = none := by
  rw [renderedCell, splitRows_lf]
  rfl

theorem renderedCell_lf_succ (inv : Bool) (text : List Byte) (j c : Nat) :
    renderedCell inv (LF :: text) (j + 1) c = renderedCell inv text j c := by
  rw [renderedCell, splitRows_lf]
  rfl

/-- A byte that ends no row leaves the rows after it alone. -/
theorem renderedCell_succ_row {b : Byte} (hb : b ≠ LF) (inv : Bool) (text : List Byte) (j c : Nat) :
    renderedCell inv (b :: text) (j + 1) c = renderedCell inv text (j + 1) c := by
  obtain ⟨row, rows, h, -⟩ := splitRows_shape text
  rw [renderedCell, renderedCell, splitRows_cons hb h, h]
  rfl

/-- A byte that starts no marker is the row's first cell, and the cells after it are those of the text after it. -/
theorem renderedCell_cell {b : Byte} {text : List Byte} (hb : b ≠ LF) (hn : NoMarker b text) (inv : Bool) (c : Nat) :
    renderedCell inv (b :: text) 0 0 = some (cellOf inv b) ∧
      renderedCell inv (b :: text) 0 (c + 1) = renderedCell inv text 0 c := by
  obtain ⟨row, rows, h, hhead⟩ := splitRows_shape text
  have hrow : NoMarker b row := fun he b' hb' => hn he b' (hhead b' hb')
  rw [renderedCell, renderedCell, renderedCell, splitRows_cons hb h, h]
  simp [renderRow_cell inv hrow]

theorem renderedCell_marker {b : Byte} (inv inv' : Bool) (hb : b ≠ LF)
    (hr : ∀ row, renderRow inv (BACKSLASH :: b :: row) = renderRow inv' row) (text : List Byte) (c : Nat) :
    renderedCell inv (BACKSLASH :: b :: text) 0 c = renderedCell inv' text 0 c := by
  obtain ⟨row, rows, h, -⟩ := splitRows_shape text
  rw [renderedCell, renderedCell, splitRows_cons (by decide) (splitRows_cons hb h), h]
  exact congrArg (·[c]?) (hr row)

/-! ## The frame a run will end with -/

/-- What column `c` of row `r` holds once `text` has been rendered from column `col` of row `row` on, with the inverse
flag `inv` in the rest of that row, over a frame of the cells `fb`. -/
def expectedCell (row col : Nat) (inv : Bool) (fb text : List Byte) (r c : Nat) : Option Byte :=
  (if r < row ∨ r = row ∧ c < col then none
    else if r = row then renderedCell inv text 0 (c - col)
    else renderedCell false text (r - row) c).or fb[COLS * r + c]?

section
variable {row col : Nat} {inv : Bool} {fb : List Byte}

theorem expectedCell_before (text : List Byte) {r c : Nat} (h : r < row ∨ r = row ∧ c < col) :
    expectedCell row col inv fb text r c = fb[COLS * r + c]? := by
  rw [expectedCell, if_pos h, Option.none_or]

theorem expectedCell_current (text : List Byte) (d : Nat) :
    expectedCell row col inv fb text row (col + d) =
      (renderedCell inv text 0 d).or fb[COLS * row + (col + d)]? := by
  rw [expectedCell, if_neg (by omega), if_pos rfl, Nat.add_sub_cancel_left]

theorem expectedCell_later (text : List Byte) (j c : Nat) :
    expectedCell row col inv fb text (row + (j + 1)) c =
      (renderedCell false text (j + 1) c).or fb[COLS * (row + (j + 1)) + c]? := by
  rw [expectedCell, if_neg (by omega), if_neg (by omega), Nat.add_sub_cancel_left]

/-- A cell is before the point (row, col), in the rest of that row, or in a later row. -/
theorem cell_cases (row col r c : Nat) :
    (r < row ∨ r = row ∧ c < col) ∨ (r = row ∧ ∃ d, c = col + d) ∨ ∃ j, r = row + (j + 1) := by
  rcases Nat.lt_trichotomy r row with h | h | h
  · exact .inl (.inl h)
  · rcases Nat.lt_or_ge c col with hc | hc
    · exact .inl (.inr ⟨h, hc⟩)
    · exact .inr (.inl ⟨h, Nat.exists_eq_add_of_le hc⟩)
  · exact .inr (.inr (Nat.exists_eq_add_of_lt h))

/-- With nothing left to render a cell is the one the frame holds. -/
theorem expectedCell_nil (r c : Nat) : expectedCell row col inv fb [] r c = fb[COLS * r + c]? := by
  simp only [expectedCell, renderedCell_nil, ite_self, Option.none_or]

/-- Rendered from the start over a frame of zeros it is the whole-text form's cell. -/
theorem expectedCell_start (text : List Byte) {r c : Nat} (h : fb[COLS * r + c]? = some 0x00) :
    expectedCell 0 0 false fb text r c = some (frameCell text r c) := by
  have hcell : expectedCell 0 0 false fb text r c = (renderedCell false text r c).or (some 0x00) := by
    rw [← h]
    cases r with
    | zero => simpa using expectedCell_current (row := 0) (col := 0) text c
    | succ j => simpa using expectedCell_later (row := 0) (col := 0) text j c
  rw [hcell, frameCell_eq]
  cases renderedCell false text r c <;> rfl

/-! ## Each token keeps it -/

/-- A marker sets the inverse flag for the rest of its row. -/
theorem expectedCell_marker {b : Byte} (inv' : Bool) (hb : b ≠ LF)
    (hrow : ∀ cells, renderRow inv (BACKSLASH :: b :: cells) = renderRow inv' cells) (text : List Byte) (r c : Nat) :
    expectedCell row col inv' fb text r c = expectedCell row col inv fb (BACKSLASH :: b :: text) r c := by
  rcases cell_cases row col r c with h | ⟨rfl, d, rfl⟩ | ⟨j, rfl⟩
  · rw [expectedCell_before _ h, expectedCell_before _ h]
  · rw [expectedCell_current, expectedCell_current, renderedCell_marker inv inv' hb hrow]
  · rw [expectedCell_later, expectedCell_later, renderedCell_succ_row (by decide), renderedCell_succ_row hb]

/-- NEWLINE ends the row and starts the next with the inverse flag clear. -/
theorem expectedCell_newline (text : List Byte) (r c : Nat) :
    expectedCell (row + 1) 0 false fb text r c = expectedCell row col inv fb (LF :: text) r c := by
  rcases cell_cases row col r c with h | ⟨rfl, d, rfl⟩ | ⟨j, rfl⟩
  · rw [expectedCell_before _ h, expectedCell_before _ (by omega)]
  · rw [expectedCell_current, renderedCell_lf_zero, expectedCell_before _ (by omega), Option.none_or]
  · rw [expectedCell_later, renderedCell_lf_succ, ← Nat.add_assoc, Nat.add_right_comm]
    cases j with
    | zero => simpa using expectedCell_current (row := row + 1) (col := 0) text c
    | succ j => exact expectedCell_later text j c

/-- Two cells of the frame at different places are different bytes of it (10 R30). -/
theorem cellIndex_ne {r c : Nat} (hc : c < COLS) (hcol : col < COLS) (h : r ≠ row ∨ c ≠ col) :
    COLS * r + c ≠ COLS * row + col := by
  simp only [COLS] at hc hcol ⊢
  omega

/-- A cell put at the point is the one the text puts there. -/
theorem expectedCell_put {b : Byte} {fb' text : List Byte} (hb : b ≠ LF) (hn : NoMarker b text)
    (hsame : fb'[COLS * row + col]? = some (cellOf inv b))
    (hne : ∀ k, k ≠ COLS * row + col → fb'[k]? = fb[k]?) (hcol : col < COLS) {r c : Nat} (hc : c < COLS) :
    expectedCell row (col + 1) inv fb' text r c = expectedCell row col inv fb (b :: text) r c := by
  rcases cell_cases row col r c with h | ⟨rfl, d, rfl⟩ | ⟨j, rfl⟩
  · rw [expectedCell_before _ h, expectedCell_before _ (by omega), hne _ (cellIndex_ne hc hcol (by omega))]
  · rw [expectedCell_current]
    cases d with
    | zero =>
      rw [(renderedCell_cell hb hn inv 0).1, expectedCell_before _ (by omega)]
      exact hsame
    | succ d =>
      rw [(renderedCell_cell hb hn inv d).2, ← hne _ (cellIndex_ne hc hcol (.inr (by omega))), ← Nat.add_assoc,
        Nat.add_right_comm]
      exact expectedCell_current text d
  · rw [expectedCell_later, expectedCell_later, renderedCell_succ_row hb,
      hne _ (cellIndex_ne hc hcol (.inl (by omega)))]

/-- Past column 40 a cell is dropped (40 R109). -/
theorem expectedCell_clipped {b : Byte} {text : List Byte} (hb : b ≠ LF) (hcol : COLS ≤ col) {r c : Nat}
    (hc : c < COLS) : expectedCell row col inv fb text r c = expectedCell row col inv fb (b :: text) r c := by
  rcases cell_cases row col r c with h | ⟨rfl, d, rfl⟩ | ⟨j, rfl⟩
  · rw [expectedCell_before _ h, expectedCell_before _ h]
  · omega
  · rw [expectedCell_later, expectedCell_later, renderedCell_succ_row hb]

end

/-- What column `c` of row `r` holds once the parser has consumed `text`. -/
def Work.expected (w : Work) (text : List Byte) (r c : Nat) : Option Byte :=
  expectedCell w.row.toNat w.col.toNat w.inv w.fb.toList text r c

/-- From the registers `osd.write` starts with it is the whole-text form's cell (40 R107 `init`). -/
theorem expected_osdInit (s : State) (text : List Byte) {r c : Nat} (hr : r < ROWS) (hc : c < COLS) :
    s.osdInit.work.expected text r c = some (frameCell text r c) := by
  have hk : COLS * r + c < FRAME_BYTES := by
    simp only [ROWS, COLS, FRAME_BYTES] at hr hc ⊢
    omega
  refine expectedCell_start text ?_
  rw [State.osdInit, Vector.toList_replicate, List.getElem?_replicate_of_lt hk]

/-- In a discarded row the text has no effect (40 R97). -/
theorem expected_discarded {w : Work} (text text' : List Byte) {r : Nat} (c : Nat) (h : ROWS ≤ w.row.toNat)
    (hr : r < ROWS) : w.expected text r c = w.expected text' r c := by
  have : r < w.row.toNat := by omega
  rw [Work.expected, Work.expected, expectedCell_before _ (.inl this), expectedCell_before _ (.inl this)]

theorem expected_tokInvOn {s : State} (h : s.inFrame = true) (text : List Byte) (r c : Nat) :
    s.tokInvOn.work.expected text r c = s.work.expected (BACKSLASH :: LETTER_I :: text) r c := by
  rw [tokInvOn_inFrame h]
  exact expectedCell_marker true (by decide) (renderRow_on _) text r c

theorem expected_tokInvOff {s : State} (h : s.inFrame = true) (text : List Byte) (r c : Nat) :
    s.tokInvOff.work.expected text r c = s.work.expected (BACKSLASH :: LETTER_U :: text) r c := by
  rw [tokInvOff_inFrame h]
  exact expectedCell_marker false (by decide) (renderRow_off _) text r c

theorem expected_tokNewline {s : State} (h : s.inFrame = true) (text : List Byte) (r c : Nat) :
    s.tokNewline.work.expected text r c = s.work.expected (LF :: text) r c := by
  refine Eq.trans ?_ (expectedCell_newline text r c)
  rw [tokNewline_inFrame h, ← toNat_row_add_one ((inFrame_iff s).mp h)]
  rfl

theorem expected_put {s : State} {b : Byte} {text : List Byte} (h : s.inFrame = true) (hb : b ≠ LF)
    (hn : NoMarker b text) (r : Nat) {c : Nat} (hc : c < COLS) :
    (s.put b).work.expected text r c = s.work.expected (b :: text) r c := by
  have hrow := (inFrame_iff s).mp h
  rcases Nat.lt_or_ge s.work.col.toNat COLS with hcol | hcol
  · refine Eq.trans ?_ (expectedCell_put hb hn (getElem?_setCell_same s.work.fb hrow hcol (cellOf s.work.inv b))
      (fun _ hk => getElem?_setCell_ne s.work.fb hk _) hcol hc)
    rw [put_of_lt b hcol, ← toNat_col_add_one hcol]
    rfl
  · rw [put_of_ge b hcol]
    exact expectedCell_clipped hb hcol hc

theorem expected_tokBslash {s : State} {text : List Byte} (h : s.inFrame = true) (hn : NoMarker BACKSLASH text)
    (r : Nat) {c : Nat} (hc : c < COLS) :
    s.tokBslash.work.expected text r c = s.work.expected (BACKSLASH :: text) r c := by
  rw [tokBslash_inFrame h]
  exact expected_put h (by decide) hn r hc

theorem expected_plainByte {s : State} {b : Byte} (h : s.inFrame = true) (hm : b.msb = false) (hb : b ≠ BACKSLASH)
    (text : List Byte) (r : Nat) {c : Nat} (hc : c < COLS) :
    (s.plainByte b).work.expected text r c = s.work.expected (b :: text) r c := by
  unfold State.plainByte
  split_ifs with hlf hnul
  · rw [hlf, expected_tokNewline h]
  · rw [tokPad_inFrame h, hnul]
    exact expected_put h (by decide) (fun he => absurd he (by decide)) r hc
  · rw [tokChar_inFrame _ h, zero_append_setWidth (by simp [hm])]
    exact expected_put h hlf (fun he => absurd he hb) r hc

/-! ## Each byte keeps it -/

/-- The text not yet rendered: a held backslash and the bytes not yet consumed. -/
def Work.pending (w : Work) (text : List Byte) : List Byte := if w.esc then BACKSLASH :: text else text

theorem pending_of_held {w : Work} (text : List Byte) (h : w.esc = true) : w.pending text = BACKSLASH :: text :=
  if_pos h

theorem pending_of_not_held {w : Work} (text : List Byte) (h : w.esc = false) : w.pending text = text :=
  if_neg (by simp [h])

/-- A held backslash that its next byte completes to no marker is rendered as a cell. -/
theorem expected_flushEsc {s : State} {text : List Byte} (h : s.inFrame = true)
    (hn : s.work.esc = true → NoMarker BACKSLASH text) (r : Nat) {c : Nat} (hc : c < COLS) :
    s.flushEsc.work.expected text r c = s.work.expected (s.work.pending text) r c := by
  cases he : s.work.esc with
  | true => rw [flushEsc_of_held he, pending_of_held _ he, expected_tokBslash h (hn he) r hc]
  | false => rw [flushEsc_of_not_held he, pending_of_not_held _ he]

theorem flushEsc_esc {s : State} (h : s.inFrame = true) : s.flushEsc.work.esc = false := by
  cases he : s.work.esc with
  | true => rw [flushEsc_of_held he, tokBslash_esc h]
  | false => rw [flushEsc_of_not_held he, he]

theorem flushEsc_inFrame {s : State} (h : s.inFrame = true) : s.flushEsc.inFrame = true := by
  rw [inFrame_iff] at h ⊢
  unfold State.flushEsc
  split
  · rwa [tokBslash_row]
  · exact h

theorem plainByte_esc (b : Byte) (s : State) : (s.plainByte b).work.esc = s.work.esc := by
  unfold State.plainByte State.tokNewline State.tokPad State.tokChar
  split_ifs <;> simp

theorem expected_unmarkedByte {s : State} {b : Byte} (h : s.inFrame = true) (hm : b.msb = false)
    (hn : s.work.esc = true → b ≠ LETTER_I ∧ b ≠ LETTER_U) (text : List Byte) (r : Nat) {c : Nat} (hc : c < COLS) :
    (s.unmarkedByte b).work.expected ((s.unmarkedByte b).work.pending text) r c =
      s.work.expected (s.work.pending (b :: text)) r c := by
  have hmark (he : s.work.esc = true) : NoMarker BACKSLASH (b :: text) := by
    rintro - _ ⟨⟩
    exact hn he
  rw [← expected_flushEsc h hmark r hc]
  by_cases hb : b = BACKSLASH
  · rw [hb, unmarkedByte_backslash, pending_of_held text rfl]
    rfl
  · rw [unmarkedByte_plain s hb, pending_of_not_held text (by rw [plainByte_esc, flushEsc_esc h])]
    exact expected_plainByte (flushEsc_inFrame h) hm hb text r hc

theorem expected_frameByte {s : State} {b : Byte} (h : s.inFrame = true) (hm : b.msb = false) (text : List Byte)
    (r : Nat) {c : Nat} (hc : c < COLS) :
    (s.frameByte b).work.expected ((s.frameByte b).work.pending text) r c =
      s.work.expected (s.work.pending (b :: text)) r c := by
  by_cases hn : s.work.esc = true → b ≠ LETTER_I ∧ b ≠ LETTER_U
  · rw [frameByte_unmarked hn]
    exact expected_unmarkedByte h hm hn text r hc
  · obtain ⟨he, rfl | rfl⟩ : s.work.esc = true ∧ (b = LETTER_I ∨ b = LETTER_U) := by tauto
    · rw [frameByte_inv_on he, pending_of_held _ he, ← expected_tokInvOn h, pending_of_not_held]
      rw [tokInvOn_inFrame h]
    · rw [frameByte_inv_off he, pending_of_held _ he, ← expected_tokInvOff h, pending_of_not_held]
      rw [tokInvOff_inFrame h]

/-- A valid byte keeps the frame the run will end with. -/
theorem expected_parseByte (s : State) {b : Byte} (hm : b.msb = false) (text : List Byte) {r c : Nat} (hr : r < ROWS)
    (hc : c < COLS) :
    (s.parseByte b).work.expected ((s.parseByte b).work.pending text) r c =
      s.work.expected (s.work.pending (b :: text)) r c := by
  by_cases h : s.inFrame = true
  · rw [parseByte_inFrame hm h, advance_work, expected_frameByte h hm text r hc]
  · rw [parseByte_discarded hm h, advance_work]
    exact expected_discarded _ _ c (by simpa [inFrame_iff] using h) hr

/-- At the end of the text FB is the frame the run was to end with. -/
theorem parseEnd_fb (s : State) {r c : Nat} (hr : r < ROWS) (hc : c < COLS) :
    s.parseEnd.work.fb.toList[COLS * r + c]? = s.work.expected (s.work.pending []) r c := by
  rw [parseEnd_eq, advance_work, goto_work, ← expectedCell_nil (row := s.flushEsc.work.row.toNat)
    (col := s.flushEsc.work.col.toNat) (inv := s.flushEsc.work.inv)]
  by_cases h : s.inFrame = true
  · exact expected_flushEsc h (fun _ => by simp [NoMarker]) r hc
  · have hflush : s.flushEsc = s := by simp [State.flushEsc, State.tokBslash, h]
    rw [hflush]
    exact expected_discarded _ _ c (by simpa [inFrame_iff] using h) hr

/-! ## The run over a text -/

/-- The parser of a running `osd.write` consumes its text. -/
structure Parsing (text : List Byte) (s : State) : Prop where
  off : s.resetIn = .off
  busy : s.busy = true
  phase : s.phase = .parse
  current : s.current = .ok (.osdWrite text)

/-- The state after `n` bytes have been consumed, the working registers then being `w`. -/
def State.consumed (n : Nat) (w : Work) (s : State) : State := { s with work := w, pc := s.pc + n }

theorem parsing_consumed {text : List Byte} {s : State} (n : Nat) (w : Work) (h : Parsing text s) :
    Parsing text (s.consumed n w) := ⟨h.off, h.busy, h.phase, h.current⟩

theorem step_of_parsing {text : List Byte} {s : State} (h : Parsing text s) : step s = .next (s.parseStep text) :=
  (step_of_current h.off h.busy h.current).trans (exec_osdWrite_parse text h.phase)

theorem parseByte_valid_shape {b : Byte} (s : State) (hm : b.msb = false) :
    ∃ w, s.parseByte b = s.consumed 1 w := by
  by_cases h : s.inFrame = true
  · obtain ⟨w, e⟩ := frameByte_shape b s
    exact ⟨w, by rw [parseByte_inFrame hm h, e]; rfl⟩
  · exact ⟨s.work, by rw [parseByte_discarded hm h]; rfl⟩

theorem parseEnd_shape (s : State) : ∃ w, s.parseEnd = { s with work := w, pc := s.pc + 1, phase := .send 0 } := by
  obtain ⟨w, e⟩ := tokBslash_shape s
  rw [parseEnd_eq]
  unfold State.flushEsc
  split
  · exact ⟨w, by rw [e]; rfl⟩
  · exact ⟨s.work, rfl⟩

/-- Valid bytes are consumed one a step, change nothing but the working registers and `pc`, and keep the frame the run
will end with. -/
theorem runSteps_validBytes {text : List Byte} (rest : List Byte) (m : Nat) (bs : List Byte) :
    ∀ s : State, Parsing text s → text.drop s.pc = bs ++ rest → (∀ b ∈ bs, b.msb = false) →
      ∃ w, runSteps (bs.length + m) s = runSteps m (s.consumed bs.length w) ∧
        ∀ r c, r < ROWS → c < COLS →
          w.expected (w.pending rest) r c = s.work.expected (s.work.pending (bs ++ rest)) r c := by
  induction bs with
  | nil => intro s _ _ _; exact ⟨s.work, by rw [List.length_nil, Nat.zero_add]; rfl, fun _ _ _ _ => rfl⟩
  | cons b bs ih =>
    intro s h hdrop hvalid
    obtain ⟨hm, hvalid⟩ := List.forall_mem_cons.mp hvalid
    have hget : text[s.pc]? = some b := by
      rw [← Nat.add_zero s.pc, ← List.getElem?_drop, hdrop]
      rfl
    have hnext : text.drop (s.pc + 1) = bs ++ rest := by rw [← List.drop_drop, hdrop]; rfl
    obtain ⟨w₁, e⟩ := parseByte_valid_shape s hm
    have hkeep {r c : Nat} := expected_parseByte s hm (bs ++ rest) (r := r) (c := c)
    have hstep : step s = .next (s.consumed 1 w₁) := by
      rw [step_of_parsing h, parseStep_of_some hget, e]
    rw [e] at hkeep
    obtain ⟨w, hrun, hw⟩ := ih _ (parsing_consumed 1 w₁ h) hnext hvalid
    refine ⟨w, ?_, fun r c hr hc => (hw r c hr hc).trans (hkeep hr hc)⟩
    rw [List.length_cons, Nat.add_right_comm, runSteps_succ_of_next hstep, hrun]
    simp only [State.consumed, Nat.add_assoc, Nat.add_comm 1]

/-- The first step of `osd.write` is the parser's from the registers it starts with. -/
theorem step_accepted {text : List Byte} {s : State} (h : s.accepted (.osdWrite text)) :
    Parsing text (s.osdInit.goto .parse) ∧ step s = step (s.osdInit.goto .parse) := by
  obtain ⟨ho, hb, -, hp, hi⟩ := h
  have hparsing : Parsing text (s.osdInit.goto .parse) := ⟨ho, hb, rfl, hi⟩
  refine ⟨hparsing, ?_⟩
  rw [step_of_current ho hb hi, step_of_parsing hparsing]
  simp only [exec, execOsdWrite, hp]

theorem runSteps_succ_congr {s u : State} (h : step s = step u) (k : Nat) :
    runSteps (k + 1) s = runSteps (k + 1) u := by
  simp only [runSteps, h]

/-- An accepted `osd.write` consumes the valid bytes its text begins with; the frame it will end with is then still the
one the whole-text form gives. -/
theorem accepted_consumes {text bs rest : List Byte} {s : State} (h : s.accepted (.osdWrite text))
    (htext : text = bs ++ rest) (hvalid : ∀ b ∈ bs, b.msb = false) :
    ∃ u, Parsing text u ∧ u = { s with phase := .parse, pc := bs.length, work := u.work } ∧
      runSteps (bs.length + 1) s = runSteps 1 u ∧
      ∀ r c, r < ROWS → c < COLS → u.work.expected (u.work.pending rest) r c = some (frameCell text r c) := by
  obtain ⟨hparsing, hstart⟩ := step_accepted h
  obtain ⟨w, hrun, hw⟩ := runSteps_validBytes rest 1 bs _ hparsing htext hvalid
  refine ⟨_, parsing_consumed bs.length w hparsing, ?_, (runSteps_succ_congr hstart _).trans hrun, fun r c hr hc => ?_⟩
  · simp [State.consumed, State.osdInit, State.goto]
  · rw [← expected_osdInit s text hr hc, htext]
    exact hw r c hr hc

/-- A frame with the whole-text form's cells is the one it renders (10 R30). -/
theorem toList_eq_frameOf {fb : Vector Byte 640} {text : List Byte}
    (h : ∀ r c, r < ROWS → c < COLS → fb.toList[COLS * r + c]? = some (frameCell text r c)) :
    fb.toList = frameOf text := by
  refine List.ext_getElem (by simp [frameOf]) fun k hk _ => ?_
  have hk : k < ROWS * COLS := by simpa [ROWS, COLS] using hk
  have hcell := h (k / COLS) (k % COLS) (Nat.div_lt_of_lt_mul (by rwa [Nat.mul_comm])) (Nat.mod_lt k (by decide))
  rw [Nat.div_add_mod] at hcell
  rw [(List.getElem_eq_iff _).mpr hcell]
  simp [frameOf]

/-- Settles O17: the frame the run is to end with is the whole-text form's when the text is consumed, and the end of the
text leaves it in FB. -/
theorem streamingParserRendersTheWholeText : Obligations.StreamingParserRendersTheWholeText := by
  intro text s ha hvalid
  obtain ⟨u, hparsing, hu, hrun, hframe⟩ := accepted_consumes (rest := []) ha (List.append_nil text).symm
    fun b hb => msb_eq_false_of_lt (hvalid b hb)
  have hend : step u = .next u.parseEnd := by
    rw [step_of_parsing hparsing, parseStep_of_none (by rw [hu]; simp)]
  obtain ⟨w, e⟩ := parseEnd_shape u
  refine ⟨_, hrun.trans (runSteps_succ_of_next hend),
    toList_eq_frameOf fun r c hr hc => (parseEnd_fb u hr hc).trans (hframe r c hr hc), ?_⟩
  rw [e, hu]
  exact ⟨rfl, ha.2.1, rfl, rfl, ⟨rfl, rfl⟩, ⟨rfl, rfl, rfl⟩, rfl, rfl, rfl, rfl⟩

/-- Settles O18: the bytes before the least invalid one are valid and are consumed, and that one is raised. -/
theorem leastInvalidIndexIsReported : Obligations.LeastInvalidIndexIsReported := by
  intro text s j b ha hget hge hleast
  have hm := msb_eq_true_of_ge hge
  have hlen : (text.take j).length = j := List.length_take_of_le (List.getElem?_eq_some_iff.mp hget).1.le
  have hvalid : ∀ c ∈ text.take j, c.msb = false := by
    intro c hc
    obtain ⟨k, hk, rfl⟩ := List.mem_take_iff_getElem.mp hc
    exact msb_eq_false_of_lt (hleast k _ (by omega) (List.getElem?_eq_getElem _))
  obtain ⟨u, hparsing, hu, hrun, -⟩ := accepted_consumes ha (List.take_append_drop j text).symm hvalid
  rw [hlen] at hu hrun
  have hend : step u = .next (u.raise (.invalidCharacter j b)) := by
    rw [step_of_parsing hparsing, parseStep_of_some (b := b) (by rw [hu]; exact hget), parseByte_invalid hm,
      State.tokInvalid, one_append_setWidth hm, hu]
  refine ⟨_, hrun.trans (runSteps_succ_of_next hend), ?_⟩
  rw [hu]
  exact ⟨rfl, rfl, rfl, rfl, ⟨rfl, rfl⟩, ⟨rfl, rfl, rfl⟩, rfl, rfl, rfl, rfl⟩

end Sys2Proof.Machine
end

section
/-!
The other primitive flash commands (41 R124, R126, R127, R131 to R133): those refused for any operand, the write-enable,
the status poll, and the loop of `flash.wait` over it.
-/

namespace Sys2Proof.Machine

open Sys2Proof (Byte Config Request)

/-! ## Commands that are refused -/

/-- A refused command ends with its code, and its working registers are kept (41 R125). -/
theorem endsAs_refuse (e : Info) (s : State) :
    EndsAs (.next (s.refuse e)) { s with busy := false, err := e.code, results := s.results ++ [⟨e.code, [], e⟩] } :=
  ⟨s.pc + 1, rfl⟩

/-- Settles O28: the check on the length is the first and fails. -/
theorem emptyReadIsRefused : Obligations.EmptyReadIsRefused := by
  intro s a hp
  have hfail : (readChecks s.cfg.geo a 0)[0]? = some (true, .emptyRead a 0) := rfl
  rw [exec_flashRead_eq, afterChecks_refuse (k := 0) hp hfail]
  exact endsAs_refuse _ s

theorem decodeSpi_be {c : Config} {r : Request} (h : r.spiop = c.opBe) : decodeSpi c r = .flashBe := if_pos h

theorem decodeSpi_cmd {c : Config} {r : Request} (h : r.spiop ∉ c.spiOps) : decodeSpi c r = .flashCmd r.spiop := by
  simp only [Config.spiOps, List.mem_cons, List.not_mem_nil, or_false, not_or] at h
  obtain ⟨hwren, hrdsr, hread, hpp, hse, hbe⟩ := h
  simp only [decodeSpi, if_neg hbe, if_neg hwren, if_neg hrdsr, if_neg hread, if_neg hpp, if_neg hse]

/-- Settles O32: the decoder looks for the bulk-erase opcode first, and its command is refused. -/
theorem bulkEraseIsAlwaysForbidden : Obligations.BulkEraseIsAlwaysForbidden :=
  ⟨fun c _ hs hop => (decodeRequest_spi c hs).trans (congrArg _ (decodeSpi_be hop)),
    fun s => endsAs_refuse (.forbiddenOpcode s.cfg.opBe) s⟩

/-- Settles O33: an opcode that is none of the six is left to `flash.cmd`, which is refused. -/
theorem otherSpiOpcodesAreRefused : Obligations.OtherSpiOpcodesAreRefused :=
  ⟨fun c _ hs hop => (decodeRequest_spi c hs).trans (congrArg _ (decodeSpi_cmd hop)),
    fun s op => endsAs_refuse (.invalidOpcode 0x10 op) s⟩

/-! ## The write-enable and one status poll -/

/-- Settles O25: WREN is routed to the flash, of which only SR changes. -/
theorem wrenSendsItsFrame : Obligations.WrenSendsItsFrame := by
  refine ⟨by decide, fun s bs hc h => ?_⟩
  rw [exec_flashWren_eq, flashXact_wren hc, transact_of_answers _ (route_wren hc) h]
  exact ⟨s.pc + 1, rfl⟩

/-- The state after a status poll that the device answers with `b` (41 R127): LASTSR holds it, and SR is free (log 8). -/
def State.polled (b : Byte) (s : State) : State :=
  { s.sent (rdsrXact s.cfg) with sr := Config.freeSr s.draws, work := { s.work with lastsr := b } }

theorem pollStatus_of_answers {s : State} {b : Byte} (k : Byte → State → State) (hc : s.cfg.wf = true)
    (h : s.answers (rdsrXact s.cfg) [b]) : pollStatus k s = .next (k b (s.polled b)) := by
  rw [pollStatus_eq, flashXact_rdsr hc, transact_of_answers _ (route_rdsr hc) h]
  rfl

/-- Settles O26: one poll, whose byte is returned. -/
theorem rdsrKeepsAndReturnsTheStatus : Obligations.RdsrKeepsAndReturnsTheStatus := by
  refine ⟨by decide, fun s b hc h => ?_⟩
  rw [exec_flashRdsr_eq, pollStatus_of_answers _ hc h]
  exact endsAs_finish [b] (s.polled b)

/-! ## The loop of `flash.wait` -/

theorem wipSet_iff (c : Config) (b : Byte) : wipSet c b = true ↔ b &&& c.wipMask ≠ 0 := bne_iff_ne

/-- A poll that finds WIP clear ends `flash.wait`. -/
theorem exec_flashWait_ready {s : State} {b : Byte} (hc : s.cfg.wf = true) (h : s.answers (rdsrXact s.cfg) [b])
    (hb : b &&& s.cfg.wipMask = 0) : exec .flashWait s = .next ((s.polled b).finish [b]) := by
  rw [exec_flashWait_eq, pollStatus_of_answers _ hc h]
  exact congrArg _ (if_neg fun hw => (wipSet_iff s.cfg b).mp hw hb)

/-- A poll that finds WIP set leaves `flash.wait` polling. -/
theorem exec_flashWait_busy {s : State} {b : Byte} (hc : s.cfg.wf = true) (h : s.answers (rdsrXact s.cfg) [b])
    (hb : b &&& s.cfg.wipMask ≠ 0) : exec .flashWait s = .next (s.polled b).advance := by
  rw [exec_flashWait_eq, pollStatus_of_answers _ hc h]
  exact congrArg _ (if_pos ((wipSet_iff s.cfg b).mpr hb))

/-- Settles O34: the two outcomes of a poll. -/
theorem waitPollsUntilWipIsClear : Obligations.WaitPollsUntilWipIsClear := by
  refine fun s b hc h => ⟨fun hb => ?_, fun hb => ?_⟩
  · rw [exec_flashWait_ready hc h hb]
    exact endsAs_finish [b] (s.polled b)
  · rw [exec_flashWait_busy hc h hb]
    rfl

/-- The poll is answered by a reply of one byte. -/
theorem answers_rdsr_of_replies {s : State} {b : Byte} {rest : List Reply} (hc : s.cfg.wf = true)
    (hs : s.replies = .bytes [b] :: rest) : s.answers (rdsrXact s.cfg) [b] := by
  refine ⟨_, route_rdsr hc, ?_⟩
  rw [State.nextReply, hs]
  rfl

/-- A `flash.wait` is running, and no reset is asked for. -/
structure Waiting (s : State) : Prop where
  wf : s.cfg.wf = true
  off : s.resetIn = .off
  busy : s.busy = true
  current : s.current = .ok .flashWait

/-- A step of a running `flash.wait` that is answered a byte with WIP set. -/
theorem step_of_waiting {s : State} {b : Byte} {rest : List Reply} (h : Waiting s)
    (hs : s.replies = .bytes [b] :: rest) (hb : b &&& s.cfg.wipMask ≠ 0) :
    step s = .next (s.polled b).advance :=
  (step_of_current h.off h.busy h.current).trans (exec_flashWait_busy h.wf (answers_rdsr_of_replies h.wf hs) hb)

theorem waiting_polled {s : State} (b : Byte) (h : Waiting s) : Waiting (s.polled b).advance :=
  ⟨h.wf, h.off, h.busy, h.current⟩

/-- Answers with WIP set are polled one a step, and the operation still runs after the last. -/
theorem runSteps_waiting {rest : List Reply} (bs : List Byte) :
    ∀ s : State, Waiting s → (∀ b ∈ bs, b &&& s.cfg.wipMask ≠ 0) →
      s.replies = bs.map (fun b => .bytes [b]) ++ rest →
      ∃ t, runSteps bs.length s = .next t ∧ t.busy = true ∧ t.results = s.results ∧ t.pc = s.pc + bs.length ∧
        t.replies = rest ∧ t.bus = s.bus ++ List.replicate bs.length (rdsrXact s.cfg) := by
  induction bs with
  | nil => exact fun s h _ hs => ⟨s, rfl, h.busy, rfl, rfl, hs, (List.append_nil _).symm⟩
  | cons b bs ih =>
    intro s h hwip hs
    obtain ⟨hb, hwip⟩ := List.forall_mem_cons.mp hwip
    obtain ⟨t, ht, hbusy, hres, hpc, hrest, hbus⟩ :=
      ih (s.polled b).advance (waiting_polled b h) hwip (congrArg List.tail hs)
    exact ⟨t, (runSteps_succ_of_next (step_of_waiting h hs hb)).trans ht, hbusy, hres,
      hpc.trans (Nat.add_right_comm s.pc 1 bs.length), hrest, hbus.trans (List.append_cons _ _ _).symm⟩

/-- Settles O35, by induction on the answers: each poll with WIP set is followed by another. -/
theorem waitHasNoResultWhileWipIsSet : Obligations.WaitHasNoResultWhileWipIsSet := by
  rintro _ s bs rest hc ho hb hi hwip rfl hs
  exact runSteps_waiting bs s ⟨hc, ho, hb, hi⟩ hwip hs

end Sys2Proof.Machine
end

section
/-!
The boot image (42 R153): a step reaches the flash only by a frame of the block, and no frame of the block reaches a
byte below the upgrade region.
-/

namespace Sys2Proof.Machine

open Sys2Proof (Byte Config)

/-- Settles O59: the frames a step sends are those of `step_allowed`. -/
theorem everyFrameSentIsAllowed : Obligations.EveryFrameSentIsAllowed := by
  intro s t h ht l hl
  obtain ⟨t', ht', l', hl', hallowed⟩ := step_allowed h
  obtain rfl : t' = t := by simpa [ht'] using ht
  rwa [List.append_cancel_left (hl.symm.trans hl')]

/-- A frame of the block changes no flash byte below the upgrade region (20 R65, log 6). -/
theorem not_touches_of_frameAllowed {c : Config} {x : Xact} {tg : Target} {a : Nat} (hc : c.wf = true)
    (hx : FrameAllowed c x) (hr : route c x = some tg) (ha : a < c.geo.upgStart) : ¬ tg.touches c.geo a := by
  have hlast := upgLast_lt (geo_wf hc)
  have target {tg' : Target} (hr' : route c x = some tg') : tg = tg' := Option.some.inj (hr.symm.trans hr')
  cases hx with
  | displayRow r v hrow hv =>
    simp only [ROWS, COLS] at hrow hv
    rw [target (route_memWrite hc (by omega) ⟨by omega, by simp only [COLS, FRAME_BYTES]; omega⟩)]
    exact not_false
  | displayFrame v hv =>
    rw [target (route_memWrite hc (by simp [hv]) ⟨le_rfl, by simp [hv]⟩)]
    exact not_false
  | displayRead => rw [target (route_dump hc)]; exact not_false
  | wren => rw [target (route_wren hc)]; exact not_false
  | rdsr => rw [target (route_rdsr hc)]; exact not_false
  | read b n hn hb => rw [target (route_read hc hb)]; exact not_false
  | program b p h1 hp lo hi =>
    have hbase := le_pageBase (geo_wf hc) lo
    rw [target (route_pp hc (by omega) (by omega)), Target.touches]
    omega
  | erase b lo hi =>
    have hbase := le_sectorBase (geo_wf hc) lo
    rw [target (route_se hc (by omega)), Target.touches]
    omega

/-- From `s` to `t` no flash byte below the upgrade region changes. -/
def KeepsBoot (s t : State) : Prop := ∀ a, a < s.cfg.geo.upgStart → t.flash.lookup a = s.flash.lookup a

theorem keepsBoot_of_flash {s t : State} (h : t.flash = s.flash) : KeepsBoot s t := fun _ _ => by rw [h]

theorem actsInside_flash {u t : State} (h : ActsInside u t) : t.flash = u.flash := by
  rcases h with ⟨w, ph, ev, -, rfl⟩ | ⟨w, ph, ev, v, -, rfl⟩ | ⟨e, w, ph, d, rfl⟩ <;> rfl

/-- A step of an operation that sends frames of the block only. -/
theorem acts_keepsBoot {s t : State} (hc : s.cfg.wf = true) (h : Acts s t) {l : List Xact} (hl : t.bus = s.bus ++ l)
    (hallowed : ∀ x ∈ l, FrameAllowed s.cfg x) : KeepsBoot s t := by
  obtain ⟨u, rfl | ⟨x, w, tg, hr, hu⟩, ht⟩ := h
  · exact keepsBoot_of_flash (actsInside_flash ht)
  · intro a ha
    have hbus : u.bus = s.bus ++ [x] := by rcases hu with rfl | rfl <;> simp
    obtain rfl : l = [x] := List.append_cancel_left ((hl.symm.trans (actsInside_bus ht)).trans hbus)
    have hout := not_touches_of_frameAllowed hc (hallowed x (List.mem_singleton_self x)) hr ha
    rw [actsInside_flash ht]
    rcases hu with rfl | rfl
    · exact doneEffect_flash_outside hout
    · exact failedEffect_flash_outside hout

theorem accept_flash (s : State) : s.accept.flash = s.flash := by
  unfold State.accept
  split <;> rfl

theorem cycle_keepsBoot {s t : State} (h : Inv s) (ht : cycle s = .next t) : KeepsBoot s t := by
  obtain ⟨t', ht', l, hl, hallowed⟩ := cycle_allowed h
  obtain rfl : t' = t := by simpa [ht'] using ht
  cases hb : s.busy with
  | false =>
    obtain rfl : s.accept = t' := by simpa [cycle_of_idle hb] using ht
    exact keepsBoot_of_flash (accept_flash s)
  | true =>
    cases hi : s.current with
    | ok i =>
      obtain ⟨p, ha⟩ := exec_acts_from (decodeRequest_isToken hi) ((cycle_of_current hb hi).symm.trans ht)
      exact acts_keepsBoot (s := { s with pc := p }) h.1 ha hl hallowed
    | error e =>
      obtain rfl : s.rejectWord = t' := by simpa [cycle_of_undecodable hb hi] using ht
      exact keepsBoot_of_flash (actsInside_flash (.inr (.inr ⟨_, rejectWord_shape s⟩)))

/-- Settles O58: a step with the reset off keeps the boot image, and a reset leaves the flash as it is or as the step it
interrupts leaves it. -/
theorem bootImageIsNeverTouched : Obligations.BootImageIsNeverTouched := by
  intro s t h ht
  cases hr : s.resetIn <;> simp only [step, hr] at ht
  case off => exact cycle_keepsBoot h ht
  case between =>
    obtain rfl : s.blockReset = t := by simpa using ht
    exact keepsBoot_of_flash rfl
  case during =>
    obtain ⟨u, hu, -⟩ := cycle_allowed (s := s.failing) h
    rw [hu] at ht
    cases ht
    have hkept : KeepsBoot s.failing u := cycle_keepsBoot h hu
    exact hkept

end Sys2Proof.Machine
end

section
/-!
How data is cut into page chunks (42 R145).
-/

namespace Sys2Proof.Machine

open Sys2Proof (Byte Geometry)

theorem chunksOf_nil (g : Geometry) (fuel a : Nat) : chunksOf g fuel a [] = [] := by cases fuel <;> rfl

/-- The first chunk of data, and the chunks of what is left. -/
theorem chunksOf_succ (g : Geometry) (fuel a : Nat) {data : List Byte} (h : data ≠ []) :
    chunksOf g (fuel + 1) a data =
      (a, data.take (chunkLen g a data.length)) ::
        chunksOf g fuel (a + chunkLen g a data.length) (data.drop (chunkLen g a data.length)) :=
  if_neg (mt List.length_eq_zero_iff.mp h)

theorem chunkLen_le (g : Geometry) (a n : Nat) : chunkLen g a n ≤ n := Nat.min_le_right _ _

theorem chunkLen_pos {g : Geometry} (hg : 0 < g.page) (a : Nat) {n : Nat} (h : 0 < n) : 0 < chunkLen g a n := by
  have := Nat.mod_lt a hg
  rw [chunkLen]
  omega

/-- A chunk stays in its page. -/
theorem mod_add_chunkLen_le {g : Geometry} (hg : 0 < g.page) (a n : Nat) : a % g.page + chunkLen g a n ≤ g.page := by
  have := Nat.mod_lt a hg
  rw [chunkLen]
  omega

/-- A chunk that leaves data over ends its page. -/
theorem add_chunkLen_mod {g : Geometry} (hg : 0 < g.page) (a : Nat) {n : Nat} (h : chunkLen g a n < n) :
    (a + chunkLen g a n) % g.page = 0 := by
  have hmod := Nat.mod_lt a hg
  have hlen : a % g.page + chunkLen g a n = g.page := by
    rw [chunkLen] at h ⊢
    omega
  rw [← Nat.mod_add_mod, hlen, Nat.mod_self]

/-- One less fuel is enough for the data after a chunk. -/
theorem length_drop_chunkLen_le {g : Geometry} (hg : 0 < g.page) (a : Nat) {data : List Byte} {fuel : Nat}
    (h : data ≠ []) (hf : data.length ≤ fuel + 1) : (data.drop (chunkLen g a data.length)).length ≤ fuel := by
  have := chunkLen_pos hg a (List.length_pos_of_ne_nil h)
  rw [List.length_drop]
  omega

section
variable {g : Geometry} (hg : 0 < g.page)
include hg

theorem flatMap_chunksOf (fuel : Nat) : ∀ (a : Nat) (data : List Byte), data.length ≤ fuel →
    (chunksOf g fuel a data).flatMap (fun c => c.2) = data := by
  induction fuel with
  | zero => intro a data h; exact (List.eq_nil_of_length_eq_zero (Nat.le_zero.mp h)).symm
  | succ fuel ih =>
    intro a data h
    by_cases hd : data = []
    · rw [hd, chunksOf_nil, List.flatMap_nil]
    · rw [chunksOf_succ g fuel a hd, List.flatMap_cons, ih _ _ (length_drop_chunkLen_le hg a hd h),
        List.take_append_drop]

theorem mem_chunksOf (fuel : Nat) : ∀ (a : Nat) (data : List Byte), ∀ c ∈ chunksOf g fuel a data,
    1 ≤ c.2.length ∧ c.1 % g.page + c.2.length ≤ g.page := by
  induction fuel with
  | zero => intro a data c h; simp [chunksOf] at h
  | succ fuel ih =>
    intro a data c h
    by_cases hd : data = []
    · simp [hd, chunksOf_nil] at h
    · rw [chunksOf_succ g fuel a hd] at h
      rcases List.mem_cons.mp h with rfl | h
      · rw [List.length_take_of_le (chunkLen_le g a data.length)]
        exact ⟨chunkLen_pos hg a (List.length_pos_of_ne_nil hd), mod_add_chunkLen_le hg a _⟩
      · exact ih _ _ c h

/-- The first chunk of what a chunk leaves over starts a page. -/
theorem chunksOf_drop_head {fuel a : Nat} {data : List Byte} {c : Nat × List Byte}
    (h : (chunksOf g fuel (a + chunkLen g a data.length) (data.drop (chunkLen g a data.length)))[0]? = some c) :
    c.1 % g.page = 0 := by
  cases fuel with
  | zero => simp [chunksOf] at h
  | succ fuel =>
    by_cases hd : data.drop (chunkLen g a data.length) = []
    · simp [hd, chunksOf_nil] at h
    · rw [chunksOf_succ g fuel _ hd] at h
      cases h
      exact add_chunkLen_mod hg a (by simpa using hd)

/-- A chunk starts where the ones before it end, and every chunk but the first at a page boundary. -/
theorem chunksOf_getElem? (fuel : Nat) : ∀ (a : Nat) (data : List Byte) (j : Nat) (c : Nat × List Byte),
    (chunksOf g fuel a data)[j]? = some c →
      c.1 = a + (((chunksOf g fuel a data).take j).map (fun d => d.2.length)).sum ∧ (0 < j → c.1 % g.page = 0) := by
  induction fuel with
  | zero => intro a data j c h; simp [chunksOf] at h
  | succ fuel ih =>
    intro a data j c h
    by_cases hd : data = []
    · simp [hd, chunksOf_nil] at h
    · rw [chunksOf_succ g fuel a hd] at h ⊢
      cases j with
      | zero => cases h; simp
      | succ j =>
        rw [List.getElem?_cons_succ] at h
        obtain ⟨hstart, hpage⟩ := ih _ _ j c h
        refine ⟨?_, fun _ => ?_⟩
        · rw [hstart, List.take_succ_cons, List.map_cons, List.sum_cons,
            List.length_take_of_le (chunkLen_le g a data.length), Nat.add_assoc]
        · cases j with
          | zero => exact chunksOf_drop_head hg h
          | succ j => exact hpage (Nat.succ_pos j)

/-- Data from a page boundary on is cut into `ceil(len / PAGE)` chunks. -/
theorem length_chunksOf (fuel : Nat) : ∀ (a : Nat) (data : List Byte), a % g.page = 0 → data.length ≤ fuel →
    (chunksOf g fuel a data).length = (data.length + (g.page - 1)) / g.page := by
  induction fuel with
  | zero =>
    intro a data _ h
    obtain rfl := List.eq_nil_of_length_eq_zero (Nat.le_zero.mp h)
    exact (Nat.div_eq_of_lt (by simpa using hg)).symm
  | succ fuel ih =>
    intro a data ha h
    by_cases hd : data = []
    · rw [hd, chunksOf_nil]
      exact (Nat.div_eq_of_lt (by simpa using hg)).symm
    · have hpos := List.length_pos_of_ne_nil hd
      have hlen : chunkLen g a data.length = min g.page data.length := by rw [chunkLen, ha, Nat.sub_zero]
      have hfuel := length_drop_chunkLen_le hg a hd h
      rw [chunksOf_succ g fuel a hd, List.length_cons]
      by_cases hlast : data.length ≤ g.page
      · rw [hlen, Nat.min_eq_right hlast, List.drop_length, chunksOf_nil, List.length_nil, Nat.zero_add]
        exact (Nat.div_eq_of_lt_le (by omega) (by omega)).symm
      · have hfull : chunkLen g a data.length = g.page := hlen.trans (Nat.min_eq_left (by omega))
        rw [hfull] at hfuel ⊢
        rw [ih _ _ (by rw [Nat.add_mod_right, ha]) hfuel, List.length_drop, ← Nat.add_div_right _ hg]
        congr 1
        omega

end

/-- Settles O44: each part by induction on the chunks. -/
theorem chunksCutTheDataAtPageBoundaries : Obligations.ChunksCutTheDataAtPageBoundaries := by
  rintro g start data _ hg rfl
  exact ⟨flatMap_chunksOf hg _ start data le_rfl, mem_chunksOf hg _ start data, chunksOf_getElem? hg _ start data,
    fun hs => length_chunksOf hg _ start data hs le_rfl⟩

end Sys2Proof.Machine
end

section
/-!
Progress events (42 R151), and the registers of a sequence as numbers when they move on.
-/

namespace Sys2Proof.Machine

open Sys2Proof (Byte Geometry)

/-- The event of a step from `before` to `after` bytes done, if a multiple of the granularity is crossed. -/
def progressEvents (g : Geometry) (kind : ProgressKind) (before after : Nat) : List Progress :=
  if before / granularity g kind < after / granularity g kind then [⟨kind, after⟩] else []

theorem crosses_iff (g : Geometry) (kind : ProgressKind) (before after : Nat) :
    crosses g kind before after = true ↔ before / granularity g kind < after / granularity g kind := decide_eq_true_iff

theorem progress_of_crossed {kind : ProgressKind} {before after : Nat} (s : State)
    (h : before / granularity s.cfg.geo kind < after / granularity s.cfg.geo kind) :
    s.progress kind before after = { s with events := s.events ++ [⟨kind, after⟩] } :=
  if_pos ((crosses_iff s.cfg.geo kind before after).mpr h)

theorem progress_of_not_crossed {kind : ProgressKind} {before after : Nat} (s : State)
    (h : ¬ before / granularity s.cfg.geo kind < after / granularity s.cfg.geo kind) :
    s.progress kind before after = s := if_neg (mt (crosses_iff s.cfg.geo kind before after).mp h)

/-- Settles O50: the two outcomes of the comparison, for each kind. -/
theorem progressEventsAtTheirGranularity : Obligations.ProgressEventsAtTheirGranularity := by
  refine ⟨⟨rfl, rfl, rfl⟩, fun kind before after m s hm => ?_⟩
  obtain rfl : m = granularity s.cfg.geo kind := by cases kind <;> exact hm
  exact ⟨progress_of_crossed s, progress_of_not_crossed s⟩

theorem progress_events (kind : ProgressKind) (before after : Nat) (s : State) :
    (s.progress kind before after).events = s.events ++ progressEvents s.cfg.geo kind before after := by
  unfold progressEvents
  split
  · next h => rw [progress_of_crossed s h]
  · next h => rw [progress_of_not_crossed s h, List.append_nil]

theorem countDone_events (kind : ProgressKind) (m : Nat) (s : State) :
    (s.countDone kind m).events =
      s.events ++ progressEvents s.cfg.geo kind s.work.doneBytes.toNat (s.work.doneBytes.toNat + m) :=
  progress_events kind _ _ s

/-- Counting bytes done, with the event and DONE said. -/
theorem countDone_eq (kind : ProgressKind) (m : Nat) (s : State) :
    s.countDone kind m = { s with
      events := s.events ++ progressEvents s.cfg.geo kind s.work.doneBytes.toNat (s.work.doneBytes.toNat + m),
      work := { s.work with doneBytes := s.work.doneBytes + BitVec.ofNat 20 m } } := by
  obtain ⟨ev, -, e⟩ := countDone_shape kind m s
  have hev := countDone_events kind m s
  rw [e] at hev ⊢
  rw [← hev]

/-- A register moves on without wrapping while its width holds the sum. -/
theorem toNat_add_ofNat {w : Nat} {a : BitVec w} {m : Nat} (h : a.toNat + m < 2 ^ w) :
    (a + BitVec.ofNat w m).toNat = a.toNat + m := by
  rw [BitVec.toNat_add, BitVec.toNat_ofNat, Nat.add_mod_mod, Nat.mod_eq_of_lt h]

end Sys2Proof.Machine
end

section
/-!
The lines of an erase step and of a program step (42 R142, R146), which `flash.erase`, `flash.write` and `flash.fw`
share: a write-enable, one command, and polls until WIP is clear. What each of their steps answers, said once.
-/

namespace Sys2Proof.Machine

open Sys2Proof (Byte Config Geometry Instr)

/-! ## The lines -/

/-- A write-enable, the frame of one command, and a poll that goes on to `done` once WIP is clear. -/
structure StepLines where
  wren : Phase
  command : Phase
  poll : Phase
  frame : Config → Work → Xact
  done : State → State

/-- The operation takes the steps of these lines in their phases. -/
structure StepLines.RunBy (L : StepLines) (i : Instr) : Prop where
  wren : ∀ s : State, s.phase = L.wren → exec i s = stepWren L.command s
  command : ∀ s : State, s.phase = L.command →
    exec i s = transact (L.frame s.cfg s.work) (fun _ t => (t.goto L.poll).advance) s
  poll : ∀ s : State, s.phase = L.poll →
    exec i s = pollStatus (fun sr t => if wipSet t.cfg sr then t.advance else L.done t) s

/-- An erase step; `fin` follows the loop over the sectors. -/
def eraseLines (fin : State → State) : StepLines where
  wren := .eraseWren
  command := .eraseSector
  poll := .erasePoll
  frame c w := seXact c w.faddr.toNat
  done := State.sectorDone fin

/-- The bytes of the next page chunk of `data`. -/
def Work.chunk (g : Geometry) (data : List Byte) (w : Work) : List Byte :=
  (data.drop w.foff.toNat).take (chunkLen g w.faddr.toNat (data.length - w.foff.toNat))

/-- A program step of `data`, after whose last chunk the operation returns. -/
def progLines (data : List Byte) : StepLines where
  wren := .progWren
  command := .progPage
  poll := .progPoll
  frame c w := ppXact c w.faddr.toNat (w.chunk c.geo data)
  done := State.pageDone data.length (State.finish [])

theorem stepSector_seXact (s : State) :
    stepSector s = transact (seXact s.cfg s.work.faddr.toNat) (fun _ t => (t.goto .erasePoll).advance) s := by
  rw [stepSector_eq, flashXact_se]

theorem stepPage_ppXact (data : List Byte) (s : State) :
    stepPage data s = transact (ppXact s.cfg s.work.faddr.toNat (s.work.chunk s.cfg.geo data))
      (fun _ t => (t.goto .progPoll).advance) s := by
  rw [stepPage_eq, flashXact_pp]
  rfl

theorem flashErase_eraseLines (start stop : Nat) : (eraseLines (State.finish [])).RunBy (.flashErase start stop) where
  wren s h := by simp only [exec, execFlashErase, show s.phase = .eraseWren from h]; rfl
  command s h := by
    simp only [exec, execFlashErase, show s.phase = .eraseSector from h]
    exact stepSector_seXact s
  poll s h := by
    simp only [exec, execFlashErase, show s.phase = .erasePoll from h]
    exact stepErasePoll_eq _ s

theorem flashWrite_progLines (start : Nat) (data : List Byte) : (progLines data).RunBy (.flashWrite start data) where
  wren s h := by simp only [exec, execFlashWrite, show s.phase = .progWren from h]; rfl
  command s h := by
    simp only [exec, execFlashWrite, show s.phase = .progPage from h]
    exact stepPage_ppXact data s
  poll s h := by
    simp only [exec, execFlashWrite, show s.phase = .progPoll from h]
    exact stepProgPoll_eq data.length _ s

/-- `flash.fw` erases as `flash.erase` does; its write follows the loop (42 R147). -/
theorem flashFw_eraseLines (image : List Byte) :
    (eraseLines (State.fwErased image.length)).RunBy (.flashFw image) where
  wren s h := by simp only [exec, execFlashFw, show s.phase = .eraseWren from h]; rfl
  command s h := by
    simp only [exec, execFlashFw, show s.phase = .eraseSector from h]
    exact stepSector_seXact s
  poll s h := by
    simp only [exec, execFlashFw, show s.phase = .erasePoll from h]
    exact stepErasePoll_eq _ s

/-- `flash.fw` programs as `flash.write` does (42 R147). -/
theorem flashFw_progLines (image : List Byte) : (progLines image).RunBy (.flashFw image) where
  wren s h := by simp only [exec, execFlashFw, show s.phase = .progWren from h]; rfl
  command s h := by
    simp only [exec, execFlashFw, show s.phase = .progPage from h]
    exact stepPage_ppXact image s
  poll s h := by
    simp only [exec, execFlashFw, show s.phase = .progPoll from h]
    exact stepProgPoll_eq image.length _ s

/-! ## Their answered steps -/

/-- The state after an answered write-enable (41 R126): SR is free (log 8). -/
def State.enabled (s : State) : State := { s.sent (wrenXact s.cfg) with sr := Config.freeSr s.draws }

/-- The state after an answered frame `x` to `tg`. -/
def State.delivered (x : Xact) (tg : Target) (s : State) : State := doneEffect s.draws tg (s.sent x)

section
variable {L : StepLines} {i : Instr} (hL : L.RunBy i) {s : State}
include hL

theorem exec_wren {bs : List Byte} (hc : s.cfg.wf = true) (hp : s.phase = L.wren)
    (h : s.answers (wrenXact s.cfg) bs) : exec i s = .next (s.enabled.goto L.command).advance := by
  rw [hL.wren s hp, stepWren_eq, flashXact_wren hc, transact_of_answers _ (route_wren hc) h]
  rfl

theorem exec_command {x : Xact} {tg : Target} {bs : List Byte} (hp : s.phase = L.command)
    (hx : L.frame s.cfg s.work = x) (hr : route s.cfg x = some tg) (h : s.answers x bs) :
    exec i s = .next ((s.delivered x tg).goto L.poll).advance := by
  rw [hL.command s hp, hx, transact_of_answers _ hr h]
  rfl

theorem exec_poll_busy {b : Byte} (hc : s.cfg.wf = true) (hp : s.phase = L.poll)
    (h : s.answers (rdsrXact s.cfg) [b]) (hb : b &&& s.cfg.wipMask ≠ 0) :
    exec i s = .next (s.polled b).advance := by
  rw [hL.poll s hp, pollStatus_of_answers _ hc h]
  exact congrArg _ (if_pos ((wipSet_iff s.cfg b).mpr hb))

theorem exec_poll_ready {b : Byte} (hc : s.cfg.wf = true) (hp : s.phase = L.poll)
    (h : s.answers (rdsrXact s.cfg) [b]) (hb : b &&& s.cfg.wipMask = 0) :
    exec i s = .next (L.done (s.polled b)) := by
  rw [hL.poll s hp, pollStatus_of_answers _ hc h]
  exact congrArg _ (if_neg fun hw => (wipSet_iff s.cfg b).mp hw hb)

end

/-! ## The erase step -/

/-- Settles O37: the two frames of an erase step; the SE frame reaches only the sector it addresses. -/
theorem eraseStepSendsItsFrames : Obligations.EraseStepSendsItsFrames := by
  intro s start stop bs hc
  have hL := flashErase_eraseLines start stop
  refine ⟨fun hp h => exec_wren hL hc hp h, ?_⟩
  rintro _ rfl hp hfit h
  refine ⟨_, exec_command hL hp rfl (route_se hc hfit) h, rfl, fun x hx => doneEffect_flash_outside (tg := .erase _) ?_⟩
  simp only [Target.touches, sent_cfg]
  omega

theorem afterSector_eq (s : State) : s.afterSector = { s with
    events := s.events ++ progressEvents s.cfg.geo .erase s.work.doneBytes.toNat
      (s.work.doneBytes.toNat + s.cfg.geo.sector),
    work := { s.work with
      faddr := s.work.faddr + BitVec.ofNat 24 s.cfg.geo.sector,
      doneBytes := s.work.doneBytes + BitVec.ofNat 20 s.cfg.geo.sector } } := by
  rw [State.afterSector, countDone_eq]
  rfl

theorem sectorDone_more (fin : State → State) {s : State} (hfit : s.work.faddr.toNat + s.cfg.geo.sector < 0x1000000)
    (h : s.work.faddr.toNat + s.cfg.geo.sector < s.work.fend.toNat) :
    s.sectorDone fin = (s.afterSector.goto .eraseWren).advance := by
  rw [sectorDone_eq, if_pos]
  simpa [toNat_add_ofNat hfit] using h

theorem sectorDone_last (fin : State → State) {s : State} (hfit : s.work.faddr.toNat + s.cfg.geo.sector < 0x1000000)
    (h : s.work.fend.toNat ≤ s.work.faddr.toNat + s.cfg.geo.sector) : s.sectorDone fin = fin s.afterSector := by
  rw [sectorDone_eq, if_neg]
  simpa [toNat_add_ofNat hfit] using h

/-- Settles O38: a poll with WIP set stays, and one with WIP clear moves on by a sector. -/
theorem erasePollMovesToTheNextSector : Obligations.ErasePollMovesToTheNextSector := by
  rintro s _ start stop b hc rfl hp hfit hdone h
  have hL := flashErase_eraseLines start stop
  by_cases hb : b &&& s.cfg.wipMask = 0
  · have e := afterSector_eq (s.polled b)
    have haddr : (s.polled b).afterSector.work.faddr.toNat = s.work.faddr.toNat + s.cfg.geo.sector := by
      rw [e]
      exact toNat_add_ofNat hfit
    have hcount : (s.polled b).afterSector.work.doneBytes.toNat = s.work.doneBytes.toNat + s.cfg.geo.sector := by
      rw [e]
      exact toNat_add_ofNat hdone
    have hev : (s.polled b).afterSector.events = _ := congrArg State.events e
    refine ⟨_, exec_poll_ready hL hc hp h hb, ?_⟩
    by_cases hmore : s.work.faddr.toNat + s.cfg.geo.sector < s.work.fend.toNat
    · rw [show (eraseLines (State.finish [])).done (s.polled b) = _ from sectorDone_more _ hfit hmore]
      exact ⟨by rw [e]; rfl, fun hne => absurd hb hne, fun _ => ⟨haddr, hcount, hev,
        fun _ => by rw [e]; exact ⟨rfl, rfl, rfl, rfl, rfl⟩, fun hle => absurd hle (Nat.not_le.mpr hmore)⟩⟩
    · rw [show (eraseLines (State.finish [])).done (s.polled b) = _ from
        sectorDone_last _ hfit (Nat.le_of_not_lt hmore)]
      exact ⟨by rw [e]; rfl, fun hne => absurd hb hne, fun _ => ⟨haddr, hcount, hev,
        fun hlt => absurd hlt hmore, fun _ => by rw [e]; exact ⟨rfl, rfl, rfl⟩⟩⟩
  · exact ⟨_, exec_poll_busy hL hc hp h hb, rfl, fun _ => ⟨hp, rfl, rfl, rfl, rfl, rfl, rfl, rfl⟩,
      fun h0 => absurd h0 hb⟩

end Sys2Proof.Machine
end

section
/-!
The program step (42 R144 to R146), and `flash.fw` in terms of `flash.erase` and `flash.write` (42 R147).
-/

namespace Sys2Proof.Machine

open Sys2Proof (Byte Config Geometry Instr)

/-! ## The program step -/

/-- The next page chunk lies inside the flash and has at least one byte. -/
theorem route_chunk {c : Config} {w : Work} {data : List Byte} (hc : c.wf = true)
    (hfit : w.faddr.toNat + chunkLen c.geo w.faddr.toNat (data.length - w.foff.toNat) ≤ c.geo.flashSize)
    (hoff : w.foff.toNat < data.length) :
    route c ((progLines data).frame c w) = some (.program w.faddr.toNat (w.chunk c.geo data)) := by
  have hpos := chunkLen_pos (geo_wf hc).1.1 w.faddr.toNat (Nat.sub_pos_of_lt hoff)
  have hlen : (w.chunk c.geo data).length = chunkLen c.geo w.faddr.toNat (data.length - w.foff.toNat) := by
    rw [Work.chunk, List.length_take, List.length_drop]
    exact Nat.min_eq_left (chunkLen_le _ _ _)
  exact route_pp hc (by rwa [hlen]) (by omega)

/-- Settles O41: the two frames of a program step; the PP frame reaches only the page it addresses. -/
theorem programStepSendsItsFrames : Obligations.ProgramStepSendsItsFrames := by
  rintro s _ start data bs hc rfl
  have hL := flashWrite_progLines start data
  refine ⟨fun hp h => exec_wren hL hc hp h, ?_⟩
  rintro hp _ _ _ rfl rfl rfl hfit hoff h
  refine ⟨_, exec_command hL hp rfl (route_chunk hc hfit hoff) h, rfl,
    fun y hy => doneEffect_flash_outside (tg := .program _ (s.work.chunk s.cfg.geo data)) ?_⟩
  simp only [Target.touches, sent_cfg]
  omega

theorem afterPage_eq (len : Nat) (s : State) : s.afterPage len = { s with
    events := s.events ++ progressEvents s.cfg.geo .program s.work.doneBytes.toNat
      (s.work.doneBytes.toNat + s.nextChunk len),
    work := { s.work with
      faddr := s.work.faddr + BitVec.ofNat 24 (s.nextChunk len),
      foff := s.work.foff + BitVec.ofNat 20 (s.nextChunk len),
      doneBytes := s.work.doneBytes + BitVec.ofNat 20 (s.nextChunk len) } } := by
  rw [State.afterPage, countDone_eq]
  rfl

theorem pageDone_more {len : Nat} (fin : State → State) {s : State}
    (hoff : (s.afterPage len).work.foff.toNat = s.work.foff.toNat + s.nextChunk len)
    (h : s.work.foff.toNat + s.nextChunk len < len) :
    s.pageDone len fin = ((s.afterPage len).goto .progWren).advance := by
  rw [pageDone_eq, if_pos (by rwa [hoff])]

theorem pageDone_last {len : Nat} (fin : State → State) {s : State}
    (hoff : (s.afterPage len).work.foff.toNat = s.work.foff.toNat + s.nextChunk len)
    (h : len ≤ s.work.foff.toNat + s.nextChunk len) : s.pageDone len fin = fin (s.afterPage len) := by
  rw [pageDone_eq, if_neg (by rw [hoff]; omega)]

/-- Inside the range of a program FADDR and FOFF move on by a chunk without wrapping. -/
theorem afterPage_regs {len : Nat} {s : State} (hg : s.cfg.geo.Wf) (h : ProgInv s.cfg.geo len s.work) :
    (s.afterPage len).work.faddr.toNat = s.work.faddr.toNat + s.nextChunk len ∧
      (s.afterPage len).work.foff.toNat = s.work.foff.toNat + s.nextChunk len := by
  obtain ⟨-, hoff, hend, hi, hlen⟩ := h
  have hlast := upgLast_lt hg
  have hleft : s.nextChunk len ≤ len - s.work.foff.toNat := chunkLen_le _ _ _
  rw [afterPage_work]
  exact ⟨toNat_addr_add hg (by omega), toNat_off_add hg (by omega)⟩

/-- Settles O42: a poll with WIP set stays, and one with WIP clear moves on by a chunk. -/
theorem programPollMovesToTheNextChunk : Obligations.ProgramPollMovesToTheNextChunk := by
  rintro s _ start data b _ hc rfl hp hP hd rfl h
  have hL := flashWrite_progLines start data
  by_cases hb : b &&& s.cfg.wipMask = 0
  · obtain ⟨haddr, hoff⟩ := afterPage_regs (s := s.polled b) (geo_wf hc) hP
    have e := afterPage_eq data.length (s.polled b)
    have hev : ((s.polled b).afterPage data.length).events = s.events ++
        progressEvents s.cfg.geo .program s.work.foff.toNat (s.work.foff.toNat + s.nextChunk data.length) := by
      rw [e, ← hd]
      rfl
    have hdone : ((s.polled b).afterPage data.length).work.doneBytes =
        ((s.polled b).afterPage data.length).work.foff := by
      rw [e]
      exact congrArg (· + _) hd
    refine ⟨_, exec_poll_ready hL hc hp h hb, ?_⟩
    by_cases hmore : s.work.foff.toNat + s.nextChunk data.length < data.length
    · rw [show (progLines data).done (s.polled b) = _ from pageDone_more _ hoff hmore]
      exact ⟨by rw [e]; rfl, fun hne => absurd hb hne, fun _ => ⟨haddr, hoff, hdone, hev,
        fun _ => by rw [e]; exact ⟨rfl, rfl, rfl, rfl, rfl⟩, fun hle => absurd hle (Nat.not_le.mpr hmore)⟩⟩
    · rw [show (progLines data).done (s.polled b) = _ from pageDone_last _ hoff (Nat.le_of_not_lt hmore)]
      exact ⟨by rw [e]; rfl, fun hne => absurd hb hne, fun _ => ⟨haddr, hoff, hdone, hev,
        fun hlt => absurd hlt hmore, fun _ => by rw [e]; exact ⟨rfl, rfl, rfl⟩⟩⟩
  · exact ⟨_, exec_poll_busy hL hc hp h hb, rfl, fun _ => ⟨hp, rfl, rfl, rfl, rfl, rfl, rfl, rfl, rfl⟩,
      fun h0 => absurd h0 hb⟩

/-! ## `flash.fw` -/

/-- What follows a transaction sees the configuration, the phase and the working registers of the state that sent it. -/
theorem transact_congr {x : Xact} {k k' : List Byte → State → State} {s : State}
    (h : ∀ bs u, SameRun s u → k bs u = k' bs u) : transact x k s = transact x k' s := by
  cases hr : route s.cfg x with
  | none => simp only [transact, hr]
  | some tg =>
    cases ha : answerOf x (ownAnswer s tg) s.nextReply with
    | ok bs => rw [transact_of_ok k hr ha, transact_of_ok k' hr ha, h bs _ (doneEffect_sameRun _ tg x s)]
    | error e => rw [transact_of_error k hr ha, transact_of_error k' hr ha]

/-- While sectors are left, what follows the loop does not matter to a poll of an erase step. -/
theorem stepErasePoll_fin_irrelevant (fin fin' : State → State) {s : State}
    (hfit : s.work.faddr.toNat + s.cfg.geo.sector < 0x1000000)
    (h : s.work.faddr.toNat + s.cfg.geo.sector < s.work.fend.toNat) : stepErasePoll fin s = stepErasePoll fin' s := by
  simp only [stepErasePoll_eq, pollStatus_eq]
  refine transact_congr fun bs u ⟨hc, _, hw⟩ => ?_
  have more (fin : State → State) : State.sectorDone fin { u with work := { u.work with lastsr := bs.headD 0 } } = _ :=
    sectorDone_more fin (by simpa only [hc, hw] using hfit) (by simpa only [hc, hw] using h)
  rw [more fin, more fin']

/-- A sector of the erase range ends by the end of the upgrade region. -/
theorem eraseInv_fits {g : Geometry} (hg : g.Wf) {w : Work} (h : EraseInv g w) :
    w.faddr.toNat + g.sector ≤ g.upgLast + 1 := by
  obtain ⟨-, hs, hlt, hi⟩ := h
  exact add_le_of_mod (sector_pos hg) hs (upgEnd_mod hg) (by omega)

/-- Settles O46: the two operations run the same lines, and the poll that ends the erase sets the registers of the
write. -/
theorem firmwareStepsAreEraseAndWriteSteps : Obligations.FirmwareStepsAreEraseAndWriteSteps := by
  rintro s _ image b hc rfl
  have hE := flashErase_eraseLines s.cfg.geo.upgStart (s.cfg.geo.upgLast + 1)
  have hW := flashWrite_progLines s.cfg.geo.upgStart image
  have hFE := flashFw_eraseLines image
  have hFW := flashFw_progLines image
  have fits (h : EraseInv s.cfg.geo s.work) : s.work.faddr.toNat + s.cfg.geo.sector < 0x1000000 := by
    have := eraseInv_fits (geo_wf hc) h
    have := upgLast_lt (geo_wf hc)
    have := flashSize_lt (geo_wf hc)
    omega
  refine ⟨?_, fun hp => ?_, fun hp hI hlast _ _ hb h => ?_⟩
  · rintro (hp | hp | ⟨hp, hI, hlt⟩)
    · rw [hFE.wren s hp, hE.wren s hp]
      rfl
    · rw [hFE.command s hp, hE.command s hp]
      rfl
    · rw [hFE.poll s hp, hE.poll s hp]
      exact stepErasePoll_fin_irrelevant _ _ (fits hI) hlt
  · cases hph : s.phase <;> simp only [hph, Phase.programming, Bool.false_eq_true] at hp
    case progWren => rw [hFW.wren s hph, hW.wren s hph]
    case progPage => rw [hFW.command s hph, hW.command s hph]
    case progPoll => rw [hFW.poll s hph, hW.poll s hph]
  · have e : (eraseLines (State.fwErased image.length)).done (s.polled b) = _ := sectorDone_last _ (fits hI) hlast
    rw [exec_poll_ready hFE hc hp h hb, e, afterSector_eq]
    rfl

end Sys2Proof.Machine
end

section
/-!
One READ of a read-back (42 R149).
-/

namespace Sys2Proof.Machine

open Sys2Proof (Byte Config Geometry Instr)

/-- The state after an answered READ of the chunk at FADDR (41 R128): SR is free (log 8). -/
def State.chunkAsked (s : State) : State :=
  { s.sent (readXact s.cfg s.work.faddr.toNat s.cfg.geo.readChunk) with sr := Config.freeSr s.draws }

theorem afterChunk_eq (bs : List Byte) (s : State) : s.afterChunk bs = { s with
    events := s.events ++ progressEvents s.cfg.geo .read s.work.doneBytes.toNat
      (s.work.doneBytes.toNat + s.cfg.geo.readChunk),
    work := { s.work with
      faddr := s.work.faddr + BitVec.ofNat 24 s.cfg.geo.readChunk,
      doneBytes := s.work.doneBytes + BitVec.ofNat 20 s.cfg.geo.readChunk, rbuf := s.work.rbuf ++ bs } } := by
  rw [State.afterChunk, countDone_eq]
  rfl

theorem stepChunk_of_answers {s : State} {bs : List Byte} (hc : s.cfg.wf = true)
    (hfit : s.work.faddr.toNat + s.cfg.geo.readChunk ≤ s.cfg.geo.flashSize)
    (h : s.answers (readXact s.cfg s.work.faddr.toNat s.cfg.geo.readChunk) bs) :
    stepChunk s = .next (s.chunkAsked.chunkRead bs) := by
  rw [stepChunk_eq, flashXact_read _ _ (readChunk_pos (geo_wf hc)), transact_of_answers _ (route_read hc hfit) h]
  rfl

theorem exec_flashReadfw_start {s : State} (hp : s.phase = .start) : exec .flashReadfw s = stepChunk s.readInit := by
  simp only [exec, execFlashReadfw, hp]

theorem exec_flashReadfw_chunk {s : State} (hp : s.phase = .readChunk) : exec .flashReadfw s = stepChunk s := by
  simp only [exec, execFlashReadfw, hp]

/-- The next step of a read-back reads the chunk at FADDR, the working registers being `w` before it: those it sets in
its first step (42 R140), and later those the steps before left. -/
structure ReadsFrom (w : Work) (s : State) : Prop where
  exec : exec .flashReadfw s = stepChunk { s with work := w }
  inv : ReadInv s.cfg.geo w
  count : w.doneBytes.toNat = w.faddr.toNat - s.cfg.geo.upgStart

theorem readsFrom_start {s : State} (hc : s.cfg.wf = true) (hp : s.phase = .start) :
    ReadsFrom s.readInit.work s where
  exec := exec_flashReadfw_start hp
  inv := readInv_init (geo_wf hc) s.work
  count := by
    have hle := upgStart_le (geo_wf hc)
    have hlast := upgLast_lt (geo_wf hc)
    have haddr := toNat_addrReg (geo_wf hc) (show s.cfg.geo.upgStart ≤ s.cfg.geo.flashSize by omega)
    simp only [State.readInit, haddr, Nat.sub_self]
    rfl

theorem readsFrom_chunk {s : State} (hp : s.phase = .readChunk) (hR : ReadInv s.cfg.geo s.work)
    (hd : s.work.doneBytes.toNat = s.work.faddr.toNat - s.cfg.geo.upgStart) : ReadsFrom s.work s where
  exec := exec_flashReadfw_chunk hp
  inv := hR
  count := hd

/-- The state after the chunk at the FADDR of `w` is taken: RBUF, FADDR and DONE have moved on from `w`, and SR is free
(log 8). -/
def State.chunkTaken (w : Work) (bs : List Byte) (s : State) : State :=
  { s with
    bus := s.bus ++ [readXact s.cfg w.faddr.toNat s.cfg.geo.readChunk], replies := s.replies.tail,
    draws := s.draws + 1, sr := Config.freeSr s.draws,
    events := s.events ++ progressEvents s.cfg.geo .read w.doneBytes.toNat (w.doneBytes.toNat + s.cfg.geo.readChunk),
    work := { w with
      rbuf := w.rbuf ++ bs, faddr := w.faddr + BitVec.ofNat 24 s.cfg.geo.readChunk,
      doneBytes := w.doneBytes + BitVec.ofNat 20 s.cfg.geo.readChunk } }

theorem afterChunk_chunkAsked (w : Work) (bs : List Byte) (s : State) :
    ({ s with work := w } : State).chunkAsked.afterChunk bs = s.chunkTaken w bs := afterChunk_eq bs _

/-- FADDR and DONE move on by a chunk without wrapping. -/
theorem chunkTaken_regs {s : State} {w : Work} (bs : List Byte) (hg : s.cfg.geo.Wf) (h : ReadsFrom w s) :
    (s.chunkTaken w bs).work.faddr.toNat = w.faddr.toNat + s.cfg.geo.readChunk ∧
      (s.chunkTaken w bs).work.doneBytes.toNat = w.doneBytes.toNat + s.cfg.geo.readChunk := by
  have hlast := upgLast_lt hg
  have hfits := readChunk_fits hg h.inv
  have hd := h.count
  have hsize : s.cfg.geo.upgSize = s.cfg.geo.upgLast - s.cfg.geo.upgStart + 1 := rfl
  obtain ⟨lo, hi, -⟩ := h.inv
  exact ⟨toNat_addr_add hg (by omega), toNat_off_add hg (by omega)⟩

/-- An answered READ of a chunk returns READ_CHUNK bytes. -/
theorem length_of_chunk {s : State} {w : Work} {bs : List Byte} (hc : s.cfg.wf = true) (h : ReadsFrom w s)
    (ha : s.answers (readXact s.cfg w.faddr.toNat s.cfg.geo.readChunk) bs) : bs.length = s.cfg.geo.readChunk := by
  have hlast := upgLast_lt (geo_wf hc)
  have hfits := readChunk_fits (geo_wf hc) h.inv
  exact length_of_answers_read hc (by omega) ha

/-- The step of a chunk: it is taken, and the read-back goes on or returns RBUF. -/
theorem exec_readChunk {s : State} {w : Work} {bs : List Byte} (hc : s.cfg.wf = true) (h : ReadsFrom w s)
    (ha : s.answers (readXact s.cfg w.faddr.toNat s.cfg.geo.readChunk) bs) :
    exec .flashReadfw s = .next (if w.faddr.toNat + s.cfg.geo.readChunk ≤ s.cfg.geo.upgLast then
      ((s.chunkTaken w bs).goto .readChunk).advance else (s.chunkTaken w bs).finish (w.rbuf ++ bs)) := by
  have hlast := upgLast_lt (geo_wf hc)
  have hfits : w.faddr.toNat + s.cfg.geo.readChunk ≤ s.cfg.geo.upgLast + 1 := readChunk_fits (geo_wf hc) h.inv
  rw [h.exec, stepChunk_of_answers (s := { s with work := w }) hc (by simp only; omega) ha, chunkRead_eq,
    afterChunk_chunkAsked, (chunkTaken_regs bs (geo_wf hc) h).1]
  rfl

/-- Settles O49: the chunk is taken, and the read-back goes on while FADDR is in the upgrade region. -/
theorem readbackReadsTheNextChunk : Obligations.ReadbackReadsTheNextChunk := by
  rintro s _ _ w _ bs hc rfl rfl hw rfl ha
  have h : ReadsFrom w s := by
    rcases hw with ⟨hp, rfl⟩ | ⟨hp, rfl, hR, hd⟩
    · exact readsFrom_start hc hp
    · exact readsFrom_chunk hp hR hd
  obtain ⟨haddr, hcount⟩ := chunkTaken_regs bs (geo_wf hc) h
  have hlen := length_of_chunk hc h ha
  refine ⟨_, exec_readChunk hc h ha, ?_⟩
  by_cases hmore : w.faddr.toNat + s.cfg.geo.readChunk ≤ s.cfg.geo.upgLast
  · rw [if_pos hmore]
    exact ⟨rfl, hlen, haddr, hcount, rfl, fun _ => ⟨rfl, rfl, rfl, rfl, rfl⟩, fun hend => by omega⟩
  · rw [if_neg hmore]
    refine ⟨rfl, hlen, haddr, hcount, rfl, fun hle => absurd hle hmore, fun hend => ⟨rfl, rfl, rfl, ?_⟩⟩
    obtain ⟨lo, hi, -, hrbuf⟩ := h.inv
    rw [List.length_append, hrbuf, hlen, Geometry.upgSize]
    omega

end Sys2Proof.Machine
end

section
/-!
Runs of the flash sequences (42 R154): what a piece of a run sends, emits and leaves alone, and the frames of one erase
or program step.
-/

namespace Sys2Proof.Machine

open Sys2Proof (Byte Config Geometry Instr)

/-! ## Pieces of a run -/

/-- The operation runs, and no reset is asked for. -/
structure Running (i : Instr) (s : State) : Prop where
  wf : s.cfg.wf = true
  off : s.resetIn = .off
  busy : s.busy = true
  current : s.current = .ok i

theorem step_of_running {i : Instr} {s : State} (h : Running i s) : step s = exec i s :=
  step_of_current h.off h.busy h.current

/-- From `s` to `t` the frames `xs` are sent and the events `ev` emitted, and the replies `rest` are left. The flash
bytes at the addresses of `K` are kept, and so are the Display, the results and the request that runs. -/
structure Ran (K : Nat → Prop) (xs : List Xact) (ev : List Progress) (rest : List Reply) (s t : State) : Prop where
  cfg : t.cfg = s.cfg
  req : t.req = s.req
  resetIn : t.resetIn = s.resetIn
  busy : t.busy = s.busy
  results : t.results = s.results
  devMem : t.devMem = s.devMem
  bus : t.bus = s.bus ++ xs
  events : t.events = s.events ++ ev
  replies : t.replies = rest
  flash : ∀ a, K a → t.flash.lookup a = s.flash.lookup a

theorem Ran.trans {K : Nat → Prop} {xs ys : List Xact} {ev ev' : List Progress} {rest rest' : List Reply}
    {s t u : State} (h : Ran K xs ev rest s t) (h' : Ran K ys ev' rest' t u) :
    Ran K (xs ++ ys) (ev ++ ev') rest' s u where
  cfg := h'.cfg.trans h.cfg
  req := h'.req.trans h.req
  resetIn := h'.resetIn.trans h.resetIn
  busy := h'.busy.trans h.busy
  results := h'.results.trans h.results
  devMem := h'.devMem.trans h.devMem
  bus := by rw [h'.bus, h.bus, List.append_assoc]
  events := by rw [h'.events, h.events, List.append_assoc]
  replies := h'.replies
  flash a ha := (h'.flash a ha).trans (h.flash a ha)

/-- A run leaves the operation running. -/
theorem Ran.running {K : Nat → Prop} {xs : List Xact} {ev : List Progress} {rest : List Reply} {s t : State} {i : Instr}
    (h : Ran K xs ev rest s t) (hs : Running i s) : Running i t where
  wf := h.cfg ▸ hs.wf
  off := h.resetIn.trans hs.off
  busy := h.busy.trans hs.busy
  current := by
    have hi := hs.current
    rwa [State.current, ← h.cfg, ← h.req] at hi

section
variable {K : Nat → Prop} {xs : List Xact} {ev : List Progress} {rest : List Reply} {s t : State}
  (h : Ran K xs ev rest s t)
include h

theorem Ran.advance : Ran K xs ev rest s t.advance :=
  ⟨h.cfg, h.req, h.resetIn, h.busy, h.results, h.devMem, h.bus, h.events, h.replies, h.flash⟩

theorem Ran.goto (p : Phase) : Ran K xs ev rest s (t.goto p) :=
  ⟨h.cfg, h.req, h.resetIn, h.busy, h.results, h.devMem, h.bus, h.events, h.replies, h.flash⟩

end

/-! ## Events -/

/-- The events of `n` steps of `m` bytes each, from `d` bytes done on. -/
def loopEvents (g : Geometry) (kind : ProgressKind) (m d n : Nat) : List Progress :=
  (List.range n).flatMap fun j => progressEvents g kind (d + m * j) (d + m * (j + 1))

theorem loopEvents_zero (g : Geometry) (kind : ProgressKind) (m d : Nat) : loopEvents g kind m d 0 = [] := rfl

theorem loopEvents_succ (g : Geometry) (kind : ProgressKind) (m d n : Nat) :
    loopEvents g kind m d (n + 1) = progressEvents g kind d (d + m) ++ loopEvents g kind m (d + m) n := by
  simp only [loopEvents, List.range_succ_eq_map, List.flatMap_cons, List.flatMap_map, Nat.mul_zero, Nat.add_zero,
    Nat.mul_one, Nat.succ_eq_add_one, Nat.mul_add, Nat.add_assoc, Nat.add_comm, Nat.add_left_comm]

theorem loopEvents_start (g : Geometry) (kind : ProgressKind) (m n : Nat) :
    loopEvents g kind m 0 n = (List.range n).flatMap fun j => progressEvents g kind (m * j) (m * (j + 1)) := by
  simp only [loopEvents, Nat.zero_add]

/-! ## One erase or program step -/

/-- A write with a frame the device has a behaviour for is answered by every reply but an error. -/
theorem answers_write {s : State} {tg : Target} {ys : List Byte} {r : Reply} {rest : List Reply}
    (hroute : route s.cfg (.write ys) = some tg) (hs : s.replies = r :: rest) (hr : r.noError) :
    s.answers (.write ys) [] := by
  refine ⟨tg, hroute, ?_⟩
  rw [State.nextReply, hs]
  cases r with
  | own => rfl
  | bytes bs => rfl
  | error code => exact absurd rfl (hr code)

/-- A target in the flash array: the Display is not reached. -/
def Target.ofFlash : Target → Prop
  | .displayWrite _ _ | .displayRead _ _ => False
  | .wren | .rdsr _ | .read _ _ | .program _ _ | .erase _ => True

theorem doneEffect_devMem {k : Nat} {tg : Target} {s : State} (h : tg.ofFlash) :
    (doneEffect k tg s).devMem = s.devMem := by
  cases tg with
  | displayWrite a v => exact h.elim
  | displayRead a n => exact h.elim
  | _ => rfl

/-- An answered frame to the flash. -/
theorem ran_delivered {K : Nat → Prop} {x : Xact} {tg : Target} {s : State} (hflash : tg.ofFlash)
    (hK : ∀ a, K a → ¬ tg.touches s.cfg.geo a) : Ran K [x] [] s.replies.tail s (s.delivered x tg) where
  cfg := doneEffect_cfg _ _ _
  req := doneEffect_req _ _ _
  resetIn := doneEffect_resetIn _ _ _
  busy := doneEffect_busy _ _ _
  results := doneEffect_results _ _ _
  devMem := doneEffect_devMem hflash
  bus := doneEffect_bus _ _ _
  events := (doneEffect_events _ _ _).trans (List.append_nil _).symm
  replies := doneEffect_replies _ _ _
  flash a ha := doneEffect_flash_outside (hK a ha)

theorem ran_enabled (K : Nat → Prop) (s : State) : Ran K [wrenXact s.cfg] [] s.replies.tail s s.enabled :=
  ran_delivered (tg := .wren) trivial fun _ _ => not_false

theorem ran_polled (K : Nat → Prop) (b : Byte) (s : State) :
    Ran K [rdsrXact s.cfg] [] s.replies.tail s (s.polled b) :=
  ⟨rfl, rfl, rfl, rfl, rfl, rfl, rfl, (List.append_nil _).symm, rfl, fun _ _ => rfl⟩

theorem StepReplies.length_list (x : StepReplies) : x.list.length = x.busy.length + 3 := by simp [StepReplies.list]

section
variable {K : Nat → Prop} {L : StepLines} {i : Instr} (hL : L.RunBy i) {rest : List Reply}
include hL

/-- The polls of a step: any number with WIP set, and one with WIP clear, after which the step is done. -/
theorem runSteps_polls {last : Byte} (m : Nat) (bs : List Byte) :
    ∀ s : State, Running i s → s.phase = L.poll → (∀ b ∈ bs, b &&& s.cfg.wipMask ≠ 0) → last &&& s.cfg.wipMask = 0 →
      s.replies = bs.map (fun b => .bytes [b]) ++ .bytes [last] :: rest →
      ∃ t, runSteps (bs.length + 1 + m) s = runSteps m (L.done t) ∧ t.work = { s.work with lastsr := last } ∧
        Ran K (List.replicate (bs.length + 1) (rdsrXact s.cfg)) [] rest s t := by
  induction bs with
  | nil =>
    intro s h hp _ hlast hs
    have hstep := (step_of_running h).trans
      (exec_poll_ready hL h.wf hp (answers_rdsr_of_replies h.wf hs) hlast)
    have hran := ran_polled K last s
    rw [hs] at hran
    exact ⟨s.polled last, by rw [List.length_nil, Nat.zero_add, Nat.add_comm 1, runSteps_succ_of_next hstep], rfl, hran⟩
  | cons b bs ih =>
    intro s h hp hwip hlast hs
    obtain ⟨hb, hwip⟩ := List.forall_mem_cons.mp hwip
    have hstep := (step_of_running h).trans (exec_poll_busy hL h.wf hp (answers_rdsr_of_replies h.wf hs) hb)
    have hran := ran_polled K b s
    obtain ⟨t, ht, hw, hran'⟩ :=
      ih (s.polled b).advance (hran.advance.running h) hp hwip hlast (congrArg List.tail hs)
    refine ⟨t, ?_, hw, hran.advance.trans hran'⟩
    rw [List.length_cons, Nat.add_right_comm _ 1 m, Nat.add_right_comm _ 1 m, runSteps_succ_of_next hstep,
      Nat.add_right_comm _ m 1, ht]

/-- The write-enable and the command of a step, answered with success. -/
theorem runSteps_command {r r' : Reply} {tg : Target} {ys : List Byte} {s : State} (n : Nat) (h : Running i s)
    (hp : s.phase = L.wren) (hr : r.noError) (hr' : r'.noError) (hframe : L.frame s.cfg s.work = .write ys)
    (hroute : route s.cfg (.write ys) = some tg) (hflash : tg.ofFlash) (hK : ∀ a, K a → ¬ tg.touches s.cfg.geo a)
    (hs : s.replies = r :: r' :: rest) :
    ∃ u, runSteps (n + 1 + 1) s = runSteps n u ∧ u.phase = L.poll ∧ u.work = s.work ∧
      Ran K [wrenXact s.cfg, .write ys] [] rest s u := by
  have hstep := (step_of_running h).trans (exec_wren hL h.wf hp (answers_write (route_wren h.wf) hs hr))
  have hran := ((ran_enabled K s).goto L.command).advance
  rw [hs, List.tail_cons] at hran
  have h' := hran.running h
  have hstep' := (step_of_running h').trans
    (exec_command hL rfl hframe hroute (answers_write hroute hran.replies hr'))
  have hran' := ran_delivered (x := .write ys) (s := (s.enabled.goto L.command).advance) hflash hK
  rw [hran.replies, List.tail_cons] at hran'
  refine ⟨_, ?_, rfl, ?_, hran.trans (hran'.goto L.poll).advance⟩
  · rw [runSteps_succ_of_next hstep, runSteps_succ_of_next hstep']
  · simp [State.delivered, State.enabled]

/-- One step of the lines, all of whose frames are answered with success: it sends the write-enable, the command's frame
and its polls, and is then done. -/
theorem runSteps_lines {x : StepReplies} {tg : Target} {ys : List Byte} {s : State} (m : Nat) (h : Running i s)
    (hp : s.phase = L.wren) (hx : x.Succeeds s.cfg) (hframe : L.frame s.cfg s.work = .write ys)
    (hroute : route s.cfg (.write ys) = some tg) (hflash : tg.ofFlash) (hK : ∀ a, K a → ¬ tg.touches s.cfg.geo a)
    (hs : s.replies = x.list ++ rest) :
    ∃ t, runSteps (x.list.length + m) s = runSteps m (L.done t) ∧ t.work = { s.work with lastsr := x.last } ∧
      Ran K ([wrenXact s.cfg, .write ys] ++ List.replicate x.polls (rdsrXact s.cfg)) [] rest s t := by
  have hs : s.replies = x.wren :: x.command :: (x.busy.map (fun b => .bytes [b]) ++ .bytes [x.last] :: rest) := by
    simp [hs, StepReplies.list]
  obtain ⟨u, hu, hpu, hwu, hran⟩ := runSteps_command hL (K := K) (x.busy.length + 1 + m) h hp hx.wren hx.command hframe
    hroute hflash hK hs
  obtain ⟨t, ht, hw, hran'⟩ := runSteps_polls hL (K := K) m x.busy u (hran.running h) hpu
    (hran.cfg ▸ hx.busy) (hran.cfg ▸ hx.last) hran.replies
  rw [hran.cfg] at hran'
  have hcount : x.list.length + m = x.busy.length + 1 + m + 1 + 1 := by
    rw [StepReplies.length_list]
    omega
  exact ⟨t, by rw [hcount, hu, ht], by rw [hw, hwu], hran.trans hran'⟩

end

end Sys2Proof.Machine
end

section
/-!
`flash.erase` sends exactly the frames of its sectors (42 R141 to R143, R154). The run over the sectors is the one
`flash.fw` takes too.
-/

namespace Sys2Proof.Machine

open Sys2Proof (Byte Config Geometry Instr)

/-! ## The trace -/

theorem eraseTrace_nil (c : Config) (a : Nat) : eraseTrace c a [] = [] := rfl

theorem eraseTrace_cons (c : Config) (a : Nat) (x : StepReplies) (xs : List StepReplies) :
    eraseTrace c a (x :: xs) = eraseFrames c a x.polls ++ eraseTrace c (a + c.geo.sector) xs := by
  simp only [eraseTrace, List.zipIdx_cons, List.flatMap_cons, Nat.mul_zero, Nat.add_zero, Nat.zero_add]
  rw [List.zipIdx_succ, List.flatMap_map]
  simp only [Nat.mul_add, Nat.mul_one, Nat.add_assoc, Nat.add_comm c.geo.sector]

theorem length_eraseTrace (c : Config) (xs : List StepReplies) (a : Nat) :
    (eraseTrace c a xs).length = 2 * xs.length + (xs.map StepReplies.polls).sum := by
  induction xs generalizing a with
  | nil => rfl
  | cons x xs ih =>
    simp only [eraseTrace_cons, List.length_append, ih, eraseFrames, List.length_cons, List.length_nil,
      List.length_replicate, List.map_cons, List.sum_cons]
    omega

/-! ## The run over the sectors -/

/-- Sectors are counted, and all else but the registers is kept. -/
theorem ran_afterSector (K : Nat → Prop) (s : State) :
    Ran K [] (progressEvents s.cfg.geo .erase s.work.doneBytes.toNat (s.work.doneBytes.toNat + s.cfg.geo.sector))
      s.replies s s.afterSector := by
  rw [afterSector_eq]
  exact ⟨rfl, rfl, rfl, rfl, rfl, rfl, (List.append_nil _).symm, rfl, rfl, fun _ _ => rfl⟩

/-- The registers after a sector (42 R142). -/
def Work.erased (g : Geometry) (b : Byte) (w : Work) : Work :=
  { w with
    lastsr := b, faddr := w.faddr + BitVec.ofNat 24 g.sector, doneBytes := w.doneBytes + BitVec.ofNat 20 g.sector }

@[simp] theorem erased_fend (g : Geometry) (b : Byte) (w : Work) : (w.erased g b).fend = w.fend := rfl

/-- `n` sectors are left to erase, the one at FADDR among them, and DONE counts none outside the upgrade region. -/
structure EraseLeft (g : Geometry) (n : Nat) (w : Work) : Prop where
  inv : EraseInv g w
  count : g.upgStart + w.doneBytes.toNat ≤ w.faddr.toNat
  enough : w.fend.toNat ≤ w.faddr.toNat + g.sector * n
  needed : w.faddr.toNat + g.sector * n < w.fend.toNat + g.sector

section
variable {g : Geometry} (hg : g.Wf) {n : Nat} {w : Work}
include hg

/-- FADDR and DONE move on by a sector without wrapping. -/
theorem eraseLeft_regs (b : Byte) (h : EraseLeft g n w) :
    (w.erased g b).faddr.toNat = w.faddr.toNat + g.sector ∧
      (w.erased g b).doneBytes.toNat = w.doneBytes.toNat + g.sector := by
  have hfits := eraseInv_fits hg h.inv
  have hlast := upgLast_lt hg
  have hd := h.count
  have hsize : g.upgSize = g.upgLast - g.upgStart + 1 := rfl
  exact ⟨toNat_addr_add hg (by omega), toNat_off_add hg (by omega)⟩

theorem eraseLeft_next (b : Byte) (h : EraseLeft g (n + 1) w) (hmore : w.faddr.toNat + g.sector < w.fend.toNat) :
    EraseLeft g n (w.erased g b) := by
  obtain ⟨haddr, hcount⟩ := eraseLeft_regs hg b h
  obtain ⟨hinv, hd, henough, hneeded⟩ := h
  rw [Nat.mul_succ] at henough hneeded
  exact ⟨eraseInv_next hg (w.erased g b).doneBytes hinv (haddr ▸ hmore), by omega, by rw [erased_fend]; omega,
    by rw [erased_fend]; omega⟩

end

theorem eraseLeft_zero {g : Geometry} {w : Work} (h : EraseLeft g 0 w) : False := by
  obtain ⟨⟨-, -, hlt, -⟩, -, henough, -⟩ := h
  omega

theorem eraseLeft_last {g : Geometry} {n : Nat} {w : Work} (h : EraseLeft g (n + 1) w)
    (hlast : w.fend.toNat ≤ w.faddr.toNat + g.sector) : n = 0 := by
  have hneeded := h.needed
  rw [Nat.mul_succ] at hneeded
  have : g.sector * n < g.sector * 1 := by omega
  exact Nat.lt_one_iff.mp (Nat.lt_of_mul_lt_mul_left this)

theorem sectorBase_of_mod {g : Geometry} {a : Nat} (h : a % g.sector = 0) : sectorBase g a = a :=
  Nat.mul_div_cancel' (Nat.dvd_of_mod_eq_zero h)

/-- The flash bytes of `K` lie outside the `n` sectors from `a` on. -/
def OutsideSectors (g : Geometry) (K : Nat → Prop) (a n : Nat) : Prop := ∀ x, K x → x < a ∨ a + g.sector * n ≤ x

theorem not_touches_sector {g : Geometry} {K : Nat → Prop} {a n : Nat} (ha : a % g.sector = 0)
    (hK : OutsideSectors g K a (n + 1)) {x : Nat} (hx : K x) : ¬ (Target.erase a).touches g x := by
  have hout := hK x hx
  rw [Nat.mul_succ] at hout
  rw [Target.touches, sectorBase_of_mod ha]
  omega

theorem outsideSectors_next {g : Geometry} {K : Nat → Prop} {a n : Nat} (hK : OutsideSectors g K a (n + 1)) :
    OutsideSectors g K (a + g.sector) n := by
  intro x hx
  have hout := hK x hx
  rw [Nat.mul_succ] at hout
  omega

section
variable {fin : State → State} {i : Instr} (hL : (eraseLines fin).RunBy i) {K : Nat → Prop} {rest : List Reply}
include hL

/-- The frames of one sector and its event, after which the loop goes on or is left. -/
theorem runSteps_sector {x : StepReplies} {s : State} (n m : Nat) (h : Running i s) (hp : s.phase = .eraseWren)
    (hw : EraseLeft s.cfg.geo (n + 1) s.work) (hx : x.Succeeds s.cfg)
    (hK : OutsideSectors s.cfg.geo K s.work.faddr.toNat (n + 1)) (hs : s.replies = x.list ++ rest) :
    ∃ u, runSteps (x.list.length + m) s = runSteps m (if u.work.faddr.toNat < u.work.fend.toNat then
          (u.goto .eraseWren).advance else fin u) ∧
      u.work = s.work.erased s.cfg.geo x.last ∧
      Ran K (eraseFrames s.cfg s.work.faddr.toNat x.polls) (progressEvents s.cfg.geo .erase s.work.doneBytes.toNat
        (s.work.doneBytes.toNat + s.cfg.geo.sector)) rest s u := by
  obtain ⟨-, hmod, hlt, hi⟩ := hw.inv
  have hlast := upgLast_lt (geo_wf h.wf)
  obtain ⟨t, ht, hwt, hran⟩ := runSteps_lines hL (K := K) m h hp hx rfl (route_se h.wf (by omega)) trivial
    (fun _ ha => not_touches_sector hmod hK ha) hs
  have hcfg := hran.cfg
  have hran' := ran_afterSector K t
  rw [hran.cfg, hran.replies, hwt] at hran'
  have hran := hran.trans hran'
  rw [List.append_nil, List.nil_append] at hran
  exact ⟨t.afterSector, ht, by rw [afterSector_work, hcfg, hwt, Work.erased], hran⟩

/-- The frames and the events of all sectors, after which the loop is left. -/
theorem runSteps_sectors (m : Nat) (xs : List StepReplies) :
    ∀ s : State, Running i s → s.phase = .eraseWren → EraseLeft s.cfg.geo xs.length s.work →
      (∀ x ∈ xs, x.Succeeds s.cfg) → OutsideSectors s.cfg.geo K s.work.faddr.toNat xs.length →
      s.replies = xs.flatMap StepReplies.list ++ rest →
      ∃ t, runSteps ((xs.flatMap StepReplies.list).length + m) s = runSteps m (fin t) ∧
        Ran K (eraseTrace s.cfg s.work.faddr.toNat xs)
          (loopEvents s.cfg.geo .erase s.cfg.geo.sector s.work.doneBytes.toNat xs.length) rest s t := by
  induction xs with
  | nil => exact fun s _ _ hw => (eraseLeft_zero hw).elim
  | cons x xs ih =>
    intro s h hp hw hok hK hs
    have hg := geo_wf h.wf
    obtain ⟨hx, hok⟩ := List.forall_mem_cons.mp hok
    obtain ⟨haddr, hcount⟩ := eraseLeft_regs hg x.last hw
    rw [List.flatMap_cons, List.append_assoc] at hs
    rw [List.flatMap_cons, List.length_append, Nat.add_assoc, eraseTrace_cons, List.length_cons, loopEvents_succ]
    obtain ⟨u, hu, hwu, hran⟩ :=
      runSteps_sector hL xs.length ((xs.flatMap StepReplies.list).length + m) h hp hw hx hK hs
    rw [hu, hwu, haddr, erased_fend]
    by_cases hmore : s.work.faddr.toNat + s.cfg.geo.sector < s.work.fend.toNat
    · have hran' := (hran.goto .eraseWren).advance
      have hcfg : (u.goto .eraseWren).advance.cfg = s.cfg := hran.cfg
      have hwork : (u.goto .eraseWren).advance.work = s.work.erased s.cfg.geo x.last := hwu
      obtain ⟨t, ht, hrest⟩ := ih _ (hran'.running h) rfl (by rw [hcfg, hwork]; exact eraseLeft_next hg x.last hw hmore)
        (by rwa [hcfg]) (by rw [hcfg, hwork, haddr]; exact outsideSectors_next hK) hran'.replies
      rw [hcfg, hwork, haddr, hcount] at hrest
      exact ⟨t, by rw [if_pos hmore, ht], hran'.trans hrest⟩
    · obtain rfl := List.eq_nil_of_length_eq_zero (eraseLeft_last hw (Nat.le_of_not_lt hmore))
      rw [if_neg hmore, List.flatMap_nil, List.length_nil, Nat.zero_add, eraseTrace_nil, List.length_nil,
        loopEvents_zero, List.append_nil, List.append_nil]
      exact ⟨u, rfl, hran⟩

end

/-- `n` sectors cover a range when they are as many as it needs. -/
theorem sectors_of_ceil {m len n : Nat} (hm : 0 < m) (hn : n = (len + (m - 1)) / m) :
    len ≤ m * n ∧ m * n < len + m := by
  have hle := Nat.mul_div_le (len + (m - 1)) m
  have hlt := Nat.lt_mul_div_succ (len + (m - 1)) hm
  rw [← hn] at hle hlt
  rw [Nat.mul_succ] at hlt
  omega

/-- The registers an erase of a range starts from (42 R140). -/
theorem eraseLeft_init {s : State} (hg : s.cfg.geo.Wf) {start stop n : Nat} (hs : start % s.cfg.geo.sector = 0)
    (lo : s.cfg.geo.upgStart ≤ start) (hlt : start < stop) (hi : stop ≤ s.cfg.geo.upgLast + 1)
    (henough : stop - start ≤ s.cfg.geo.sector * n) (hneeded : s.cfg.geo.sector * n < stop - start + s.cfg.geo.sector) :
    (s.eraseInit start stop).work.faddr.toNat = start ∧ EraseLeft s.cfg.geo n (s.eraseInit start stop).work := by
  have hlast := upgLast_lt hg
  have ha : start ≤ s.cfg.geo.flashSize := by omega
  have haddr : (s.eraseInit start stop).work.faddr.toNat = start := by
    simp only [State.eraseInit, startReg_of_le hg ha, toNat_addrReg hg ha]
  have hend : (s.eraseInit start stop).work.fend.toNat = stop := toNat_endReg hg hi
  have hcount : (s.eraseInit start stop).work.doneBytes.toNat = 0 := rfl
  exact ⟨haddr, eraseInv_init hg s.work hs lo hlt hi, by omega, by omega, by omega⟩

/-- The check of an erase, passed, sets the registers and sends nothing. -/
theorem ran_eraseInit (K : Nat → Prop) (start stop : Nat) (s : State) :
    Ran K [] [] s.replies s ((s.eraseInit start stop).goto .eraseWren).advance :=
  ⟨rfl, rfl, rfl, rfl, rfl, rfl, (List.append_nil _).symm, (List.append_nil _).symm, rfl, fun _ _ => rfl⟩

/-- From its check on, an operation that erases a range sends the frames of its sectors and emits their events. -/
theorem runSteps_eraseRange {fin : State → State} {i : Instr} (hL : (eraseLines fin).RunBy i) {K : Nat → Prop}
    {rest : List Reply} {s : State} {start stop : Nat} {xs : List StepReplies} (m : Nat) (h : Running i s)
    (hcheck : exec i s = .next ((s.eraseInit start stop).goto .eraseWren).advance)
    (hs : start % s.cfg.geo.sector = 0) (lo : s.cfg.geo.upgStart ≤ start) (hlt : start < stop)
    (hi : stop ≤ s.cfg.geo.upgLast + 1) (henough : stop - start ≤ s.cfg.geo.sector * xs.length)
    (hneeded : s.cfg.geo.sector * xs.length < stop - start + s.cfg.geo.sector) (hok : ∀ x ∈ xs, x.Succeeds s.cfg)
    (hK : OutsideSectors s.cfg.geo K start xs.length) (hreplies : s.replies = xs.flatMap StepReplies.list ++ rest) :
    ∃ t, runSteps ((xs.flatMap StepReplies.list).length + m + 1) s = runSteps m (fin t) ∧
      Ran K (eraseTrace s.cfg start xs) (loopEvents s.cfg.geo .erase s.cfg.geo.sector 0 xs.length) rest s t := by
  have hran := ran_eraseInit K start stop s
  obtain ⟨haddr, hleft⟩ := eraseLeft_init (geo_wf h.wf) hs lo hlt hi henough hneeded
  obtain ⟨t, ht, hran'⟩ := runSteps_sectors hL (K := K) m xs _ (hran.running h) rfl hleft hok
    (show OutsideSectors s.cfg.geo K (s.eraseInit start stop).work.faddr.toNat xs.length by rwa [haddr])
    (hran.replies.trans hreplies)
  have htrace : Ran K (eraseTrace s.cfg (s.eraseInit start stop).work.faddr.toNat xs) _ rest _ t := hran'
  rw [haddr] at htrace
  exact ⟨t, (runSteps_succ_of_next ((step_of_running h).trans hcheck)).trans ht, hran.trans htrace⟩

/-- Settles O39: the check, and then the run over the sectors. -/
theorem eraseSendsExactlyItsTrace : Obligations.EraseSendsExactlyItsTrace := by
  rintro s _ start stop xs rest hc rfl ⟨ho, hb, -, hp, hi⟩ hs lo hlt hstop hlen hok hreplies
  obtain ⟨henough, hneeded⟩ := sectors_of_ceil (sector_pos (geo_wf hc)) hlen
  have hcheck : exec (.flashErase start stop) s = .next ((s.eraseInit start stop).goto .eraseWren).advance := by
    rw [exec_flashErase_start hp, if_neg (by omega), if_pos hlt]
  obtain ⟨t, ht, hran⟩ := runSteps_eraseRange (flashErase_eraseLines start stop)
    (K := fun x => x < start ∨ start + s.cfg.geo.sector * xs.length ≤ x) 0 ⟨hc, ho, hb, hi⟩ hcheck hs lo hlt hstop
    henough hneeded hok (fun _ hx => hx) hreplies
  refine ⟨t.finish [], (Nat.add_comm 1 _) ▸ ht, rfl, rfl, by rw [finish_results, hran.results], hran.bus,
    length_eraseTrace s.cfg xs start, ?_, hran.replies, hran.devMem, hran.flash⟩
  have hev := hran.events
  rw [loopEvents_start] at hev
  exact hev

end Sys2Proof.Machine
end

section
/-!
`flash.write` sends exactly the frames of its page chunks (42 R144 to R146, R154), and `flash.fw` those of the erase of
the upgrade region and of the write of its image (42 R147).
-/

namespace Sys2Proof.Machine

open Sys2Proof (Byte Config Geometry Instr)

/-! ## The trace -/

theorem programTrace_nil (c : Config) : programTrace c [] [] = [] := rfl

theorem programTrace_cons (c : Config) (chunk : Nat × List Byte) (chunks : List (Nat × List Byte)) (x : StepReplies)
    (xs : List StepReplies) :
    programTrace c (chunk :: chunks) (x :: xs) = programFrames c chunk x.polls ++ programTrace c chunks xs := rfl

theorem length_programTrace (c : Config) (chunks : List (Nat × List Byte)) (xs : List StepReplies)
    (h : xs.length = chunks.length) :
    (programTrace c chunks xs).length = 2 * chunks.length + (xs.map StepReplies.polls).sum := by
  induction xs generalizing chunks with
  | nil =>
    obtain rfl := List.eq_nil_of_length_eq_zero h.symm
    rfl
  | cons x xs ih =>
    obtain ⟨chunk, chunks, rfl⟩ := List.exists_cons_of_length_eq_add_one h.symm
    have hih := ih chunks (Nat.succ.inj h)
    simp only [programTrace_cons, List.length_append, hih, programFrames, List.length_cons, List.length_nil,
      List.length_replicate, List.map_cons, List.sum_cons]
    omega

/-! ## The run over the page chunks -/

/-- A page chunk is counted, and all else but the registers is kept. -/
theorem ran_afterPage (K : Nat → Prop) (len : Nat) (s : State) : ∃ ev, Ran K [] ev s.replies s (s.afterPage len) := by
  rw [afterPage_eq]
  exact ⟨_, rfl, rfl, rfl, rfl, rfl, rfl, (List.append_nil _).symm, rfl, rfl, fun _ _ => rfl⟩

/-- A page of the upgrade region reaches no byte below it. -/
theorem not_touches_page {g : Geometry} (hg : g.Wf) {a x : Nat} {p : List Byte} (ha : g.upgStart ≤ a)
    (hx : x < g.upgStart) : ¬ (Target.program a p).touches g x := by
  have := le_pageBase hg ha
  rw [Target.touches]
  omega

/-- The first of the chunks from the registers on, and the others. -/
theorem chunksOf_regs (fuel : Nat) {data : List Byte} {s : State} (h : s.work.foff.toNat < data.length) :
    chunksOf s.cfg.geo (fuel + 1) s.work.faddr.toNat (data.drop s.work.foff.toNat) =
      (s.work.faddr.toNat, s.work.chunk s.cfg.geo data) ::
        chunksOf s.cfg.geo fuel (s.work.faddr.toNat + s.nextChunk data.length)
          (data.drop (s.work.foff.toNat + s.nextChunk data.length)) := by
  rw [chunksOf_succ _ _ _ (by simpa using h), List.drop_drop, List.length_drop]
  rfl

/-- The registers after a page chunk (42 R146). -/
def Work.paged (m : Nat) (b : Byte) (w : Work) : Work :=
  { w with
    lastsr := b, faddr := w.faddr + BitVec.ofNat 24 m, foff := w.foff + BitVec.ofNat 20 m,
    doneBytes := w.doneBytes + BitVec.ofNat 20 m }

section
variable {data : List Byte} {i : Instr} (hL : (progLines data).RunBy i) {K : Nat → Prop} {rest : List Reply}
include hL

/-- The frames of one page chunk, after which the loop goes on or the operation returns. -/
theorem runSteps_chunk {x : StepReplies} {s : State} (n : Nat) (h : Running i s) (hp : s.phase = .progWren)
    (hP : ProgInv s.cfg.geo data.length s.work) (hx : x.Succeeds s.cfg) (hK : ∀ a, K a → a < s.cfg.geo.upgStart)
    (hs : s.replies = x.list ++ rest) :
    ∃ u ev, runSteps (x.list.length + n) s = runSteps n (if u.work.foff.toNat < data.length then
          (u.goto .progWren).advance else u.finish []) ∧
      u.work = s.work.paged (s.nextChunk data.length) x.last ∧
      Ran K (programFrames s.cfg (s.work.faddr.toNat, s.work.chunk s.cfg.geo data) x.polls) ev rest s u := by
  obtain ⟨lo, hoff, hend, hi, -⟩ := hP
  have hlast := upgLast_lt (geo_wf h.wf)
  have hleft := chunkLen_le s.cfg.geo s.work.faddr.toNat (data.length - s.work.foff.toNat)
  obtain ⟨t, ht, hwt, hran⟩ := runSteps_lines hL (K := K) n h hp hx rfl (route_chunk h.wf (by omega) hoff) trivial
    (fun a ha => not_touches_page (geo_wf h.wf) lo (hK a ha)) hs
  obtain ⟨ev, hran'⟩ := ran_afterPage K data.length t
  have hnext : t.nextChunk data.length = s.nextChunk data.length := by
    rw [State.nextChunk, State.nextChunk, hran.cfg, hwt]
  have hran'' := hran.trans hran'
  rw [List.append_nil, hran.replies] at hran''
  exact ⟨t.afterPage data.length, _, ht, by rw [afterPage_work, hnext, hwt, Work.paged], hran''⟩

/-- The frames of all page chunks, after which the operation returns. -/
theorem runSteps_chunks (n fuel : Nat) : ∀ (s : State) (xs : List StepReplies), Running i s → s.phase = .progWren →
    ProgInv s.cfg.geo data.length s.work → data.length - s.work.foff.toNat ≤ fuel →
    xs.length = (chunksOf s.cfg.geo fuel s.work.faddr.toNat (data.drop s.work.foff.toNat)).length →
    (∀ x ∈ xs, x.Succeeds s.cfg) → (∀ a, K a → a < s.cfg.geo.upgStart) →
    s.replies = xs.flatMap StepReplies.list ++ rest →
    ∃ t ev, runSteps ((xs.flatMap StepReplies.list).length + n) s = runSteps n (t.finish []) ∧
      Ran K (programTrace s.cfg (chunksOf s.cfg.geo fuel s.work.faddr.toNat (data.drop s.work.foff.toNat)) xs) ev rest
        s t := by
  induction fuel with
  | zero =>
    intro s xs _ _ hP hfuel
    obtain ⟨-, hoff, -⟩ := hP
    omega
  | succ fuel ih =>
    intro s xs h hp hP hfuel hlen hok hK hs
    have ⟨_, hoff, _⟩ := hP
    have hregs := afterPage_regs (geo_wf h.wf) hP
    have hpos := chunkLen_pos (geo_wf h.wf).1.1 s.work.faddr.toNat (Nat.sub_pos_of_lt hoff)
    rw [chunksOf_regs fuel hoff] at hlen ⊢
    obtain ⟨x, xs, rfl⟩ := List.exists_cons_of_length_eq_add_one hlen
    obtain ⟨hx, hok⟩ := List.forall_mem_cons.mp hok
    rw [List.flatMap_cons, List.append_assoc] at hs
    rw [List.flatMap_cons, List.length_append, Nat.add_assoc, programTrace_cons]
    obtain ⟨u, ev, hu, hwu, hran⟩ :=
      runSteps_chunk hL (K := K) ((xs.flatMap StepReplies.list).length + n) h hp hP hx hK hs
    obtain ⟨haddr, hoff'⟩ : u.work.faddr.toNat = s.work.faddr.toNat + s.nextChunk data.length ∧
        u.work.foff.toNat = s.work.foff.toNat + s.nextChunk data.length := by
      rw [hwu]
      rwa [afterPage_work] at hregs
    rw [hu]
    by_cases hmore : u.work.foff.toNat < data.length
    · have hran' := (hran.goto .progWren).advance
      have hcfg : (u.goto .progWren).advance.cfg = s.cfg := hran.cfg
      obtain ⟨t, ev', ht, hrest⟩ := ih (u.goto .progWren).advance xs (hran'.running h) rfl
        (by
          rw [hcfg, advance_work, goto_work, hwu]
          exact progInv_next (geo_wf h.wf) 0 hP rfl (by rwa [hwu] at hmore))
        (by rw [advance_work, goto_work, hoff']; simp only [State.nextChunk]; omega)
        (by rw [hcfg, advance_work, goto_work, hoff', haddr]; exact Nat.succ.inj hlen)
        (by rwa [hcfg]) (by rwa [hcfg]) hran'.replies
      rw [hcfg, advance_work, goto_work, hoff', haddr] at hrest
      exact ⟨t, _, by rw [if_pos hmore, ht], hran'.trans hrest⟩
    · have hempty : data.drop (s.work.foff.toNat + s.nextChunk data.length) = [] :=
        List.drop_eq_nil_of_le (by omega)
      rw [hempty, chunksOf_nil] at hlen ⊢
      obtain rfl := List.eq_nil_of_length_eq_zero (Nat.succ.inj hlen)
      rw [if_neg hmore, List.flatMap_nil, List.length_nil, Nat.zero_add, programTrace_nil, List.append_nil]
      exact ⟨u, ev, rfl, hran⟩

/-- From the registers its check sets on, an operation that programs data sends the frames of its page chunks. -/
theorem runSteps_programRange {s : State} {start : Nat} {xs : List StepReplies} (n : Nat) (h : Running i s)
    (lo : s.cfg.geo.upgStart ≤ start) (hi : start + data.length ≤ s.cfg.geo.upgLast + 1) (hne : data ≠ [])
    (hlen : xs.length = (chunksOf s.cfg.geo data.length start data).length) (hok : ∀ x ∈ xs, x.Succeeds s.cfg)
    (hK : ∀ a, K a → a < s.cfg.geo.upgStart) (hs : s.replies = xs.flatMap StepReplies.list ++ rest) :
    ∃ t ev, runSteps ((xs.flatMap StepReplies.list).length + n)
          ((s.progInit start data.length).goto .progWren).advance = runSteps n (t.finish []) ∧
      Ran K (programTrace s.cfg (chunksOf s.cfg.geo data.length start data) xs) ev rest s t := by
  have hlast := upgLast_lt (geo_wf h.wf)
  have hran : Ran K [] [] s.replies s ((s.progInit start data.length).goto .progWren).advance :=
    ⟨rfl, rfl, rfl, rfl, rfl, rfl, (List.append_nil _).symm, (List.append_nil _).symm, rfl, fun _ _ => rfl⟩
  have haddr : ((s.progInit start data.length).goto .progWren).advance.work.faddr.toNat = start :=
    toNat_addrReg (geo_wf h.wf) (by omega)
  have hoff : data.drop ((s.progInit start data.length).goto .progWren).advance.work.foff.toNat = data := rfl
  obtain ⟨t, ev, ht, hran'⟩ := runSteps_chunks hL (K := K) (rest := rest) n data.length _ xs (hran.running h) rfl
    (progInv_init (geo_wf h.wf) s.work lo hi (List.length_pos_of_ne_nil hne)) (Nat.sub_le _ _)
    (by rw [haddr, hoff]; exact hlen) hok hK (hran.replies.trans hs)
  rw [haddr, hoff] at hran'
  exact ⟨t, _, ht, hran.trans hran'⟩

end

/-- Settles O43: the check, and then the run over the page chunks. -/
theorem writeSendsExactlyItsTrace : Obligations.WriteSendsExactlyItsTrace := by
  rintro s _ start data _ xs rest hc rfl ⟨ho, hb, -, hp, hi⟩ lo hstop hne rfl hlen hok hreplies
  have h : Running (.flashWrite start data) s := ⟨hc, ho, hb, hi⟩
  have hcheck : exec (.flashWrite start data) s =
      .next ((s.progInit start data.length).goto .progWren).advance := by
    rw [exec_flashWrite_start hp, if_neg (by omega), if_neg (mt List.length_eq_zero_iff.mp hne)]
  obtain ⟨t, ev, ht, hran⟩ := runSteps_programRange (flashWrite_progLines start data)
    (K := fun x => x < s.cfg.geo.upgStart) 0 h lo hstop hne hlen hok (fun _ hx => hx) hreplies
  refine ⟨t.finish [], ?_, rfl, rfl, by rw [finish_results, hran.results], hran.bus,
    length_programTrace s.cfg _ xs hlen, hran.replies, hran.devMem, hran.flash⟩
  rw [Nat.add_comm, runSteps_succ_of_next ((step_of_running h).trans hcheck)]
  exact ht

/-! ## Firmware -/

/-- The upgrade region is UPG_SIZE / SECTOR whole sectors. -/
theorem sector_mul_upgSize_div {g : Geometry} (hg : g.Wf) :
    g.sector * (g.upgSize / g.sector) = g.upgLast + 1 - g.upgStart := by
  have hle := upgStart_le hg
  have hsize : g.upgSize = g.upgLast + 1 - g.upgStart := by simp only [Geometry.upgSize]; omega
  rw [hsize]
  exact Nat.mul_div_cancel'
    (Nat.dvd_sub (Nat.dvd_of_mod_eq_zero (upgEnd_mod hg)) (Nat.dvd_of_mod_eq_zero (upgStart_mod hg)))

/-- Settles O47: the check, the run over the sectors of the upgrade region, and the run over the page chunks of the
image. -/
theorem firmwareSendsExactlyItsTrace : Obligations.FirmwareSendsExactlyItsTrace := by
  refine ⟨by decide, ?_⟩
  rintro s _ image _ es ps rest hc rfl ⟨ho, hb, -, hp, hi⟩ hmin hmax rfl hes hps hok hreplies
  have hg := geo_wf hc
  have h : Running (.flashFw image) s := ⟨hc, ho, hb, hi⟩
  have hle := upgStart_le hg
  have hfit := maxFwExcl_le hg
  have hsize : s.cfg.geo.upgSize = s.cfg.geo.upgLast - s.cfg.geo.upgStart + 1 := rfl
  have hsectors := sector_mul_upgSize_div hg
  have hpos := sector_pos hg
  rw [← hes] at hsectors
  obtain ⟨hokE, hokP⟩ := List.forall_mem_append.mp hok
  rw [List.flatMap_append, List.append_assoc] at hreplies
  have hcheck : exec (.flashFw image) s =
      .next ((s.eraseInit s.cfg.geo.upgStart (s.cfg.geo.upgLast + 1)).goto .eraseWren).advance := by
    rw [exec_flashFw_start hp, if_pos ⟨hmin, hmax⟩]
  obtain ⟨t, ht, hran⟩ := runSteps_eraseRange (flashFw_eraseLines image) (K := fun _ => False)
    ((ps.flatMap StepReplies.list).length + 0) h hcheck (upgStart_mod hg) le_rfl (by omega) le_rfl (by omega) (by omega)
    hokE (fun _ hx => hx.elim) hreplies
  have hgeo := congrArg Config.geo hran.cfg
  obtain ⟨u, ev, hu, hran'⟩ := runSteps_programRange (flashFw_progLines image) (K := fun _ => False) 0
    (hran.running h) (start := s.cfg.geo.upgStart) (xs := ps) (by rw [hgeo]) (by rw [hgeo]; omega)
    (List.ne_nil_of_length_pos (by omega)) (by rw [hgeo]; exact hps) (by rwa [hran.cfg])
    (fun _ hx => hx.elim) hran.replies
  rw [hran.cfg] at hran'
  have hran := hran.trans hran'
  refine ⟨u.finish [], ?_, rfl, rfl, by rw [finish_results, hran.results],
    by rw [finish_bus, hran.bus, List.append_assoc],
    length_chunksOf hg.1.1 _ _ _ (page_of_sector hg (upgStart_mod hg)) le_rfl, hran.replies⟩
  have hwrite : runSteps ((ps.flatMap StepReplies.list).length + 0) (t.fwErased image.length) =
      .next (u.finish []) := by
    rw [State.fwErased, hgeo]
    exact hu
  rw [List.flatMap_append, List.length_append, Nat.add_comm]
  exact ht.trans hwrite

end Sys2Proof.Machine
end

section
/-!
`flash.readfw` sends exactly the READs of the upgrade region and returns the bytes answered (42 R149, R150, R154).
-/

namespace Sys2Proof.Machine

open Sys2Proof (Byte Config Geometry Instr)

/-- The READ frames of `n` chunks from `a` on. -/
def readTrace (c : Config) (a n : Nat) : List Xact :=
  (List.range n).map fun k => readXact c (a + c.geo.readChunk * k) c.geo.readChunk

theorem readTrace_succ (c : Config) (a n : Nat) :
    readTrace c a (n + 1) = readXact c a c.geo.readChunk :: readTrace c (a + c.geo.readChunk) n := by
  simp only [readTrace, List.range_succ_eq_map, List.map_cons, List.map_map, Function.comp_def, Nat.mul_zero,
    Nat.add_zero, Nat.succ_eq_add_one, Nat.mul_add, Nat.mul_one, Nat.add_assoc, Nat.add_comm c.geo.readChunk]

/-- A READ of a chunk is answered by a reply of READ_CHUNK bytes. -/
theorem answers_read_of_replies {s : State} {a n : Nat} {bs : List Byte} {rest : List Reply} (hc : s.cfg.wf = true)
    (hfit : a + n ≤ s.cfg.geo.flashSize) (hlen : bs.length = n) (hs : s.replies = .bytes bs :: rest) :
    s.answers (readXact s.cfg a n) bs := by
  refine ⟨_, route_read hc hfit, ?_⟩
  rw [State.nextReply, hs]
  exact if_pos hlen

/-- From `s` to `t` the read-back has returned `v`, having sent the frames `xs` and emitted the events `ev`; the replies
`rest` are left, and the Display and the flash are as before. -/
structure ReadBack (v : List Byte) (xs : List Xact) (ev : List Progress) (rest : List Reply) (s t : State) : Prop where
  busy : t.busy = false
  err : t.err = 0
  results : t.results = s.results ++ [⟨0, v, .success⟩]
  bus : t.bus = s.bus ++ xs
  events : t.events = s.events ++ ev
  replies : t.replies = rest
  devMem : t.devMem = s.devMem
  flash : t.flash = s.flash

/-- A chunk that is taken leaves the next one to be read. -/
theorem readsFrom_next {s : State} {w : Work} {bs : List Byte} (hg : s.cfg.geo.Wf) (h : ReadsFrom w s)
    (hlen : bs.length = s.cfg.geo.readChunk) (hmore : w.faddr.toNat + s.cfg.geo.readChunk ≤ s.cfg.geo.upgLast) :
    ReadsFrom (s.chunkTaken w bs).work ((s.chunkTaken w bs).goto .readChunk).advance := by
  obtain ⟨haddr, hcount⟩ := chunkTaken_regs bs hg h
  have ⟨lo, _⟩ := h.inv
  have hd := h.count
  refine readsFrom_chunk (s := ((s.chunkTaken w bs).goto .readChunk).advance) rfl
    (readInv_next hg _ h.inv hlen (haddr ▸ hmore)) ?_
  show (s.chunkTaken w bs).work.doneBytes.toNat = (s.chunkTaken w bs).work.faddr.toNat - s.cfg.geo.upgStart
  omega

/-- The chunks from FADDR on are read one a step, and then RBUF is returned. -/
theorem runSteps_read {rest : List Reply} (answers : List (List Byte)) : ∀ (w : Work) (s : State),
    Running .flashReadfw s → ReadsFrom w s → (∀ bs ∈ answers, bs.length = s.cfg.geo.readChunk) →
    w.faddr.toNat + s.cfg.geo.readChunk * answers.length = s.cfg.geo.upgLast + 1 →
    s.replies = answers.map Reply.bytes ++ rest →
    ∃ t, runSteps answers.length s = .next t ∧
      ReadBack (w.rbuf ++ answers.flatten) (readTrace s.cfg w.faddr.toNat answers.length)
        (loopEvents s.cfg.geo .read s.cfg.geo.readChunk w.doneBytes.toNat answers.length) rest s t := by
  induction answers with
  | nil =>
    intro w s _ h _ hend
    obtain ⟨-, hi, -⟩ := h.inv
    simp only [List.length_nil, Nat.mul_zero] at hend
    omega
  | cons bs answers ih =>
    intro w s h hr hlen hend hs
    have hg := geo_wf h.wf
    obtain ⟨hbs, hlen⟩ := List.forall_mem_cons.mp hlen
    obtain ⟨haddr, hcount⟩ := chunkTaken_regs bs hg hr
    have hfits := readChunk_fits hg hr.inv
    have hlast := upgLast_lt hg
    have hstep := (step_of_running h).trans
      (exec_readChunk h.wf hr (answers_read_of_replies h.wf (by omega) hbs hs))
    rw [List.length_cons, Nat.mul_succ] at hend
    rw [List.length_cons, readTrace_succ, loopEvents_succ, List.flatten_cons, ← List.append_assoc,
      runSteps_succ_of_next hstep]
    by_cases hmore : w.faddr.toNat + s.cfg.geo.readChunk ≤ s.cfg.geo.upgLast
    · rw [if_pos hmore]
      obtain ⟨t, ht, hback⟩ := ih (s.chunkTaken w bs).work ((s.chunkTaken w bs).goto .readChunk).advance
        ⟨h.wf, h.off, h.busy, h.current⟩ (readsFrom_next hg hr hbs hmore) hlen
        (by rw [haddr]; simp only [State.chunkTaken, advance_cfg, goto_cfg]; omega) (congrArg List.tail hs)
      rw [haddr, hcount] at hback
      refine ⟨t, ht, hback.busy, hback.err, hback.results, ?_, ?_, hback.replies, hback.devMem, hback.flash⟩
      · exact hback.bus.trans (List.append_cons _ _ _).symm
      · exact hback.events.trans (List.append_assoc _ _ _)
    · have hnone : s.cfg.geo.readChunk * answers.length = 0 := by omega
      obtain rfl : answers = [] := List.eq_nil_of_length_eq_zero
        ((Nat.mul_eq_zero.mp hnone).resolve_left (readChunk_pos hg).ne')
      rw [if_neg hmore, List.flatten_nil, List.append_nil]
      exact ⟨_, rfl, rfl, rfl, rfl, rfl, by rw [List.length_nil, loopEvents_zero, List.append_nil]; rfl,
        congrArg List.tail hs, rfl, rfl⟩

/-- Settles O48: the run over the chunks, from the registers the first step sets. -/
theorem readfwSendsExactlyItsTrace : Obligations.ReadfwSendsExactlyItsTrace := by
  refine ⟨⟨by decide, by decide⟩, ?_⟩
  rintro s _ _ answers rest hc rfl rfl ⟨ho, hb, -, hp, hi⟩ hn hlen hs
  have hg := geo_wf hc
  have hle := upgStart_le hg
  have hlast := upgLast_lt hg
  have haddr : s.readInit.work.faddr.toNat = s.cfg.geo.upgStart := toNat_addrReg hg (by omega)
  have hsize : s.cfg.geo.readChunk * answers.length = s.cfg.geo.upgSize := by
    rw [hn]
    exact Nat.mul_div_cancel' (Nat.dvd_of_mod_eq_zero (upgSize_mod_readChunk hg))
  obtain ⟨t, ht, hback⟩ := runSteps_read answers s.readInit.work s ⟨hc, ho, hb, hi⟩ (readsFrom_start hc hp) hlen
    (by rw [haddr, hsize, Geometry.upgSize]; omega) hs
  have hbus := hback.bus
  have hev : t.events = s.events ++ loopEvents _ _ _ 0 _ := hback.events
  rw [haddr] at hbus
  rw [loopEvents_start] at hev
  refine ⟨t, ht, hback.busy, hback.err, hback.results, ?_, hbus, hev, hback.replies, hback.devMem, hback.flash⟩
  rw [List.length_flatten, List.map_congr_left hlen, List.map_const', List.sum_replicate, smul_eq_mul, Nat.mul_comm]
  exact hsize

end Sys2Proof.Machine
end

section
/-!
How an operation ends with an error (60 R159 to R162). A step that stays inside the block leaves the device and the bus
alone, and a step that sends a frame ends with success or with TransportError.
-/

namespace Sys2Proof.Machine

open Sys2Proof (Byte Instr)

/-! ## A step of an operation: it stays inside the block, or it is one transaction -/

/-- What the operation does with an answer: it goes on or returns. -/
def TakesAnswer (k : List Byte → State → State) : Prop := ∀ bs u, GoesOn u (k bs u) ∨ Returns u (k bs u)

/-- From `s` to `t` the block acts inside, or one transaction is run, with the registers set before it. -/
def InsideOrTransaction (s t : State) : Prop :=
  ActsInside s t ∨ ∃ x w k, TakesAnswer k ∧ transact x k { s with work := w } = .next t

/-- A step is one from some value of `pc`: the first step of `osd.write` sets `pc` to 0 (40 R107 `init`), any other is
from the state's own. -/
theorem exec_from_pc (i : Instr) (s : State) :
    ∃ p, exec i { s with pc := p } = exec i s ∧ ∀ text, i = .osdWrite text → s.phase = .start → p = 0 := by
  by_cases hs : ∃ text, i = .osdWrite text ∧ s.phase = .start
  · obtain ⟨text, rfl, hph⟩ := hs
    exact ⟨0, exec_osdWrite_start_pc text hph, fun _ _ _ => rfl⟩
  · exact ⟨s.pc, rfl, fun text hi hph => absurd ⟨text, hi, hph⟩ hs⟩

theorem exec_insideOrTransaction {i : Instr} {s t : State} (hi : i.isToken = false) (h : exec i s = .next t) :
    ∃ p, InsideOrTransaction { s with pc := p } t := by
  obtain ⟨p, he, hp⟩ := exec_from_pc i s
  refine ⟨p, ?_⟩
  rw [← he] at h
  rcases exec_shape i { s with pc := p } hi hp with hf | ⟨t', ht', hs⟩ | ⟨x, w, k, hx, hk⟩
  · simp [hf] at h
  · obtain rfl : t' = t := by simpa [ht'] using h
    exact .inl (hs.imp_right (Or.imp_right fun ⟨e, he, _⟩ => ⟨e, he⟩))
  · exact .inr ⟨x, w, k, hk, hx.symm.trans h⟩

theorem actsInside_untouched {u t : State} (h : ActsInside u t) : NoTraffic u t ∧ SameDevice u t := by
  rcases h with ⟨w, ph, ev, -, rfl⟩ | ⟨w, ph, ev, v, -, rfl⟩ | ⟨e, w, ph, d, rfl⟩ <;>
    exact ⟨⟨rfl, rfl⟩, rfl, rfl, rfl⟩

/-! ## The result a step adds -/

theorem status_zero_of_goesOn_or_returns {u t : State} {r : Result} (h : GoesOn u t ∨ Returns u t)
    (hr : t.results = u.results ++ [r]) : r.status = 0 := by
  rcases h with ⟨w, ph, ev, -, rfl⟩ | ⟨w, ph, ev, v, -, rfl⟩
  · simp at hr
  · obtain rfl : ⟨0, v, .success⟩ = r := by simpa using hr
    rfl

theorem value_nil_of_actsInside {u t : State} {r : Result} (h : ActsInside u t) (hr : t.results = u.results ++ [r])
    (h0 : r.status ≠ 0) : r.value = [] := by
  rcases h with hg | hret | ⟨e, w, ph, d, rfl⟩
  · exact absurd (status_zero_of_goesOn_or_returns (.inl hg) hr) h0
  · exact absurd (status_zero_of_goesOn_or_returns (.inr hret) hr) h0
  · obtain rfl : ⟨e.code, [], e⟩ = r := by simpa using hr
    rfl

/-- The result of a step that runs a transaction is a success, or the TransportError of a transaction that failed. -/
theorem status_of_transact {x : Xact} {k : List Byte → State → State} {s t : State} {r : Result} (hk : TakesAnswer k)
    (h : transact x k s = .next t) (hr : t.results = s.results ++ [r]) : r.status = 0 ∨ r.status = 7 := by
  obtain ⟨tg, -, ⟨bs, -, rfl⟩ | ⟨e, -, rfl⟩⟩ := transact_next_cases h
  · exact .inl (status_zero_of_goesOn_or_returns (hk bs (doneEffect s.draws tg (s.sent x))) (by simpa using hr))
  · obtain rfl : ⟨(Info.transportError e).code, [], .transportError e⟩ = r := by simpa using hr
    exact .inr rfl

/-! ## Errors other than TransportError -/

/-- An error of the step from `s` to `t` that is not TransportError is precise: the step sent nothing, left the device
alone and returned no value. -/
def ErrsPrecisely (s t : State) : Prop :=
  ∀ r : Result, t.results = s.results ++ [r] → r.status ≠ 0 → r.status ≠ 7 → NoTraffic s t ∧ SameDevice s t ∧ r.value = []

theorem errsPrecisely_of_noResult {s t : State} (h : t.results = s.results) : ErrsPrecisely s t :=
  fun r hr => by simp [h] at hr

theorem errsPrecisely_of_actsInside {s t : State} (h : ActsInside s t) : ErrsPrecisely s t := by
  intro r hr h0 _
  obtain ⟨htraffic, hdevice⟩ := actsInside_untouched h
  exact ⟨htraffic, hdevice, value_nil_of_actsInside h hr h0⟩

theorem exec_errsPrecisely {i : Instr} {s t : State} (hi : i.isToken = false) (h : exec i s = .next t) :
    ErrsPrecisely s t := by
  obtain ⟨p, hs | ⟨x, w, k, hk, hx⟩⟩ := exec_insideOrTransaction hi h
  · exact errsPrecisely_of_actsInside (s := { s with pc := p }) hs
  · intro r hr h0 h7
    exact absurd (status_of_transact hk hx hr) (not_or.mpr ⟨h0, h7⟩)

theorem cycle_errsPrecisely {s t : State} (h : cycle s = .next t) : ErrsPrecisely s t := by
  unfold cycle at h
  split at h
  · split at h
    · next hi => exact exec_errsPrecisely (decodeRequest_isToken hi) h
    · cases h
      exact errsPrecisely_of_actsInside (.inr (.inr ⟨_, rejectWord_shape s⟩))
  · cases h
    obtain ⟨-, hresults, -⟩ := accept_sentOnly s
    exact errsPrecisely_of_noResult hresults

theorem resetInFlight_results (s : State) (o : Out) : (s.resetInFlight o).results = s.results := by
  cases o <;> rfl

/-- Settles O52: a step with the reset off, and a reset of the block, which returns no result. -/
theorem errorsBeforeTrafficArePrecise : Obligations.ErrorsBeforeTrafficArePrecise := by
  intro s t r h
  refine (?_ : ErrsPrecisely s t) r
  unfold step at h
  split at h
  · exact cycle_errsPrecisely h
  · cases h
    exact errsPrecisely_of_noResult rfl
  · cases h
    exact errsPrecisely_of_noResult (resetInFlight_results s _)

/-! ## TransportError -/

/-- A token acts in a row of the frame only (40 R97); if it leaves the bus alone there, it always does. -/
theorem bus_of_inFrame {s t : State} (h : t.bus = s.bus) : (if s.inFrame then t else s).bus = s.bus := by
  split
  · exact h
  · rfl

theorem exec_token_bus {i : Instr} {s t : State} (hi : i.isToken = true) (h : exec i s = .next t) : t.bus = s.bus := by
  cases i with
  | invOn => cases h; exact bus_of_inFrame rfl
  | invOff => cases h; exact bus_of_inFrame rfl
  | newline => cases h; exact bus_of_inFrame rfl
  | pad => cases h; exact bus_of_inFrame (put_bus _ s)
  | bslash => cases h; exact bus_of_inFrame (put_bus _ s)
  | char c => cases h; exact bus_of_inFrame (put_bus _ s)
  | invalid c => cases h; rfl
  | _ => simp [Instr.isToken] at hi

theorem transact_bus {x : Xact} {k : List Byte → State → State} {s t : State} (hk : TakesAnswer k)
    (h : transact x k s = .next t) : t.bus = s.bus ++ [x] := by
  obtain ⟨tg, -, ⟨bs, -, rfl⟩ | ⟨e, -, rfl⟩⟩ := transact_next_cases h
  · simp [actsInside_bus ((hk bs _).imp_right .inl)]
  · simp

/-- The step that sends the frame `x` is the transaction of `x`. -/
theorem exec_transact_of_bus {i : Instr} {x : Xact} {s t : State} (h : exec i s = .next t) (hb : t.bus = s.bus ++ [x]) :
    ∃ p w k, transact x k { s with pc := p, work := w } = .next t := by
  have hsent : t.bus ≠ s.bus := by simp [hb]
  cases hi : i.isToken with
  | true => exact absurd (exec_token_bus hi h) hsent
  | false =>
    obtain ⟨p, hs | ⟨x', w, k, hk, hx⟩⟩ := exec_insideOrTransaction hi h
    · exact absurd (actsInside_bus hs) hsent
    · obtain rfl : x = x' := by simpa [hb] using transact_bus hk hx
      exact ⟨p, w, k, hx⟩

/-- A failed transaction changes nothing but the device. -/
theorem failedEffect_eq (k : Nat) (tg : Target) (s : State) :
    failedEffect k tg s = { s with
      devMem := (failedEffect k tg s).devMem, flash := (failedEffect k tg s).flash, sr := (failedEffect k tg s).sr } := by
  cases tg <;> rfl

theorem answerOf_reported {x : Xact} {own : List Byte} {code : Nat} {e : TransportErr}
    (h : answerOf x own (.error code) = .error e) : e = .reported code := by
  cases h
  rfl

theorem answerOf_wrongLength {ys own bs : List Byte} {n : Nat} {e : TransportErr}
    (h : answerOf (.exchange ys n) own (.bytes bs) = .error e) : bs.length ≠ n ∧ e = .wrongLength n bs.length := by
  simp only [answerOf] at h
  split at h
  · cases h
  · next hn =>
    cases h
    exact ⟨hn, rfl⟩

theorem ownAnswer_withPcWork (tg : Target) (s : State) (p : Nat) (w : Work) :
    ownAnswer { s with pc := p, work := w } tg = ownAnswer s tg := by
  cases tg <;> rfl

/-- A failed Display write leaves the flash, SR and every byte outside the bytes it writes alone (log 7). -/
theorem failedEffect_displayWrite (k a : Nat) (v : List Byte) (s : State) :
    (failedEffect k (.displayWrite a v) s).flash = s.flash ∧ (failedEffect k (.displayWrite a v) s).sr = s.sr ∧
      ∀ y, y < a ∨ a + v.length ≤ y → (failedEffect k (.displayWrite a v) s).devMem.lookup y = s.devMem.lookup y :=
  ⟨rfl, rfl, fun _ hy => lookup_write_outside s.devMem (by rwa [length_freeBytes])⟩

/-- Settles O51: the step that sent the frame is its transaction, and that it failed fixes the next state. -/
theorem transportErrorEndsTheOperation : Obligations.TransportErrorEndsTheOperation := by
  rintro i x s t e h hb ⟨tg, hr, ha⟩
  obtain ⟨p, w, k, hx⟩ := exec_transact_of_bus h hb
  have hfails := transact_of_error (s := { s with pc := p, work := w }) k hr ((ownAnswer_withPcWork tg s p w).symm ▸ ha)
  cases hfails.symm.trans hx
  refine ⟨?_, ?_, ?_, ?_⟩
  · rw [failedEffect_eq]
    rfl
  · intro code hn
    exact answerOf_reported (hn ▸ ha)
  · rintro bs ys n hn rfl
    exact answerOf_wrongLength (hn ▸ ha)
  · rintro a v hc rfl hin hv
    obtain rfl : .displayWrite a v = tg :=
      Option.some.inj ((route_memWrite hc (List.length_pos_of_ne_nil hv) hin).symm.trans hr)
    exact failedEffect_displayWrite s.draws a v (({ s with pc := p, work := w } : State).sent _)

end Sys2Proof.Machine
end

section
/-!
A reset while a transaction is in flight (70 R176): the block is reset, and of the step it interrupts only what reached
the bus and the device stays.
-/

namespace Sys2Proof.Machine

theorem step_of_during {s : State} (h : s.resetIn = .during) : step s = .next (s.resetInFlight (cycle s.failing)) := by
  simp only [step, h]

/-- Apart from the bus and the device, a reset in flight is a reset of the block, whatever the step it interrupts. -/
theorem resetInFlight_eq (s : State) (o : Out) :
    s.resetInFlight o = { s.blockReset with
      bus := (s.resetInFlight o).bus, devMem := (s.resetInFlight o).devMem, flash := (s.resetInFlight o).flash,
      sr := (s.resetInFlight o).sr, draws := (s.resetInFlight o).draws } := by
  cases o <;> rfl

/-- Settles O11: the registers, results and events are those of a reset of the block, and the one frame there may be is
that of the interrupted step. -/
theorem resetInFlightEndsWithoutAResult : Obligations.ResetInFlightEndsWithoutAResult := by
  intro s h
  obtain ⟨hframe, -⟩ := resetInFlight_addsAtMostOne s
  refine ⟨_, step_of_during h, ?_⟩
  rw [resetInFlight_eq]
  exact ⟨rfl, rfl, rfl, rfl, rfl, rfl, rfl, hframe⟩

end Sys2Proof.Machine
end
